-- ==== Sys2Proof/Word.lean ====
section
/-! DEFINITION. The words of the machine: bytes, 64-bit general registers and addresses, vector registers,
and the 4-bit register numbers that an encoding carries (R6, R7, R8). -/

namespace Sys2Proof

/-- A byte of memory or of an instruction (R50, R51). -/
abbrev Byte := BitVec 8

/-- A general register, an effective address or `rip`: XLEN = 64 bits (R6, R24, R25). -/
abbrev Word := BitVec 64

/-- The low half of a vector register, `xmm[i]` (R20). -/
abbrev Xmm := BitVec 128

/-- A whole vector register, `ymm[i]`: VLMAX = 256 bits (R6, R20). -/
abbrev Ymm := BitVec 256

/-- A register number 0..15, as the encoding forms it (`R ++ reg`, `B ++ rm`, the complement of `vvvv`) (R82, R88). -/
abbrev RegNum := BitVec 4

end Sys2Proof
end

