-- ==== Sys2Proof/Config.lean ====
section
/-! DEFINITION. What the spec fixes for every run (R6) and the FREE VALUES: opaque constants with no body,
for the draws that the spec leaves open (92_eei_decisions.md section 2; log entries 7, 11, 12, 13). Nothing
can be proved of what a free value is. -/

namespace Sys2Proof

/-- The number of vector registers and of general registers (R6, R24). -/
def Config.regCount : Nat := 16

/-- The longest instruction in scope, in bytes (R97). -/
def Config.maxInstrBytes : Nat := 11

/-- Whether #AC is reported for a misaligned operand while alignment checking is enabled: the draw of R54 and
R234, applied to the draw counter, the effective address and the element size. The mask of a masked move is no
argument of it (R54). Log entry 7. -/
opaque Config.alignmentDraw : Nat → Word → Nat → Bool

/-- Whether element `i` (second argument), enabled and accessible, has been stored when the masked store at this
draw counter faults: the draw of R60. Log entry 11. -/
opaque Config.partialStoreDraw : Nat → Nat → Bool

/-- Which of several inaccessible enabled elements a masked move reports: the draw of R60. Log entry 12. -/
opaque Config.reportDraw : Nat → Nat

end Sys2Proof
end

