-- ==== Sys2Proof/Syntax.lean ====
section
/-! DEFINITION. The instructions: one constructor of `Instr` per row of spec/opcode_table.json, in the table's
order (R100), over operands that keep the addressing form the encoding chose (R88 to R93). -/

namespace Sys2Proof

/-- The displacement of a memory operand: none, one byte, or four bytes (R90). -/
inductive Disp where
  | d0
  | d8 (d : Byte)
  | d32 (d : BitVec 32)
  deriving DecidableEq, Repr

/-- A memory operand, one constructor per addressing form of R93. -/
inductive Mem where
  /-- `gpr[b] + disp`, no SIB byte. -/
  | base (b : RegNum) (d : Disp)
  /-- RIP-relative: the address of the next instruction plus a 32-bit displacement. -/
  | ripRel (d : BitVec 32)
  /-- SIB byte with a base register; `index = none` is "no index" (R89). -/
  | sib (b : RegNum) (index : Option RegNum) (scale : BitVec 2) (d : Disp)
  /-- SIB byte with `base` = 101b and `mod` = 00b: no base register, a 32-bit displacement (R89). -/
  | sibNoBase (index : Option RegNum) (scale : BitVec 2) (d : BitVec 32)
  deriving DecidableEq, Repr

/-- The ModRM:r/m operand of a form written `x/m`: a vector register or a memory operand (R91). -/
inductive RM where
  | reg (r : RegNum)
  | mem (m : Mem)
  deriving DecidableEq, Repr

/-- The 47 forms of R100. `d` is the destination register, `v` the register in VEX.vvvv, `rm` or `m` the ModRM:r/m
operand, `src` the data register of a store form, `imm` the immediate byte (R86). -/
inductive Instr where
  | vinsertf128 (d v : RegNum) (rm : RM) (imm : Byte)
  | vinserti128 (d v : RegNum) (rm : RM) (imm : Byte)
  | vmaskmovpsLoad128 (d v : RegNum) (m : Mem)
  | vmaskmovpsLoad256 (d v : RegNum) (m : Mem)
  | vmaskmovpdLoad128 (d v : RegNum) (m : Mem)
  | vmaskmovpdLoad256 (d v : RegNum) (m : Mem)
  | vmaskmovpsStore128 (m : Mem) (v src : RegNum)
  | vmaskmovpsStore256 (m : Mem) (v src : RegNum)
  | vmaskmovpdStore128 (m : Mem) (v src : RegNum)
  | vmaskmovpdStore256 (m : Mem) (v src : RegNum)
  | vpblendd128 (d v : RegNum) (rm : RM) (imm : Byte)
  | vpblendd256 (d v : RegNum) (rm : RM) (imm : Byte)
  | vpbroadcastb128 (d : RegNum) (rm : RM)
  | vpbroadcastb256 (d : RegNum) (rm : RM)
  | vpbroadcastw128 (d : RegNum) (rm : RM)
  | vpbroadcastw256 (d : RegNum) (rm : RM)
  | vpbroadcastd128 (d : RegNum) (rm : RM)
  | vpbroadcastd256 (d : RegNum) (rm : RM)
  | vpbroadcastq128 (d : RegNum) (rm : RM)
  | vpbroadcastq256 (d : RegNum) (rm : RM)
  | vbroadcasti128 (d : RegNum) (m : Mem)
  | vpermd (d v : RegNum) (rm : RM)
  | vpermpd (d : RegNum) (rm : RM) (imm : Byte)
  | vpermps (d v : RegNum) (rm : RM)
  | vpermq (d : RegNum) (rm : RM) (imm : Byte)
  | vperm2i128 (d v : RegNum) (rm : RM) (imm : Byte)
  | vpermilpdVar128 (d v : RegNum) (rm : RM)
  | vpermilpdVar256 (d v : RegNum) (rm : RM)
  | vpermilpdImm128 (d : RegNum) (rm : RM) (imm : Byte)
  | vpermilpdImm256 (d : RegNum) (rm : RM) (imm : Byte)
  | vpermilpsVar128 (d v : RegNum) (rm : RM)
  | vpermilpsImm128 (d : RegNum) (rm : RM) (imm : Byte)
  | vpermilpsVar256 (d v : RegNum) (rm : RM)
  | vpermilpsImm256 (d : RegNum) (rm : RM) (imm : Byte)
  | vperm2f128 (d v : RegNum) (rm : RM) (imm : Byte)
  | vpmaskmovdLoad128 (d v : RegNum) (m : Mem)
  | vpmaskmovdLoad256 (d v : RegNum) (m : Mem)
  | vpmaskmovqLoad128 (d v : RegNum) (m : Mem)
  | vpmaskmovqLoad256 (d v : RegNum) (m : Mem)
  | vpmaskmovdStore128 (m : Mem) (v src : RegNum)
  | vpmaskmovdStore256 (m : Mem) (v src : RegNum)
  | vpmaskmovqStore128 (m : Mem) (v src : RegNum)
  | vpmaskmovqStore256 (m : Mem) (v src : RegNum)
  | vpsllvd128 (d v : RegNum) (rm : RM)
  | vpsllvq128 (d v : RegNum) (rm : RM)
  | vpsllvd256 (d v : RegNum) (rm : RM)
  | vpsllvq256 (d v : RegNum) (rm : RM)
  deriving DecidableEq, Repr

end Sys2Proof
end

