-- ==== Sys2Proof/WellFormed.lean ====
section
/-! DEFINITION. Which memory operands the ModRM and SIB bytes can express (R89, R90, R93). Everything else about an
operand is bounded by its type. -/

namespace Sys2Proof

/-- The low three bits of a register number: what ModRM.rm, SIB.base and SIB.index carry (R88, R89). -/
def RegNum.low (r : RegNum) : BitVec 3 := r.extractLsb' 0 3

/-- With `mod` = 00b a base field of 101b means "no base" (or RIP-relative), so a base register numbered 5 or 13
carries a displacement (R89, R93). -/
def Mem.baseDispOk (b : RegNum) (d : Disp) : Bool := d ≠ .d0 || b.low ≠ 5#3

/-- An index register numbered 4 means "no index", so no operand names it (R89). -/
def Mem.indexOk (index : Option RegNum) : Bool := index ≠ some 4#4

/-- The memory operands that an encoding can express. A base register whose low bits are 100b needs the SIB form
(R88, R89). -/
def Mem.wf : Mem → Bool
  | .base b d => b.low ≠ 4#3 && Mem.baseDispOk b d
  | .ripRel _ => true
  | .sib b index _ d => Mem.indexOk index && Mem.baseDispOk b d
  | .sibNoBase index _ _ => Mem.indexOk index

/-- A register operand is always expressible; a memory operand is when `Mem.wf` says so. -/
def RM.wf : RM → Bool
  | .reg _ => true
  | .mem m => m.wf

/-- The ModRM:r/m operand of a form (R86). -/
def Instr.rm : Instr → RM
  | .vinsertf128 _ _ rm _ | .vinserti128 _ _ rm _ | .vpblendd128 _ _ rm _ | .vpblendd256 _ _ rm _
  | .vperm2i128 _ _ rm _ | .vperm2f128 _ _ rm _ => rm
  | .vpbroadcastb128 _ rm | .vpbroadcastb256 _ rm | .vpbroadcastw128 _ rm | .vpbroadcastw256 _ rm
  | .vpbroadcastd128 _ rm | .vpbroadcastd256 _ rm | .vpbroadcastq128 _ rm | .vpbroadcastq256 _ rm => rm
  | .vpermd _ _ rm | .vpermps _ _ rm | .vpermilpdVar128 _ _ rm | .vpermilpdVar256 _ _ rm
  | .vpermilpsVar128 _ _ rm | .vpermilpsVar256 _ _ rm | .vpsllvd128 _ _ rm | .vpsllvq128 _ _ rm
  | .vpsllvd256 _ _ rm | .vpsllvq256 _ _ rm => rm
  | .vpermpd _ rm _ | .vpermq _ rm _ | .vpermilpdImm128 _ rm _ | .vpermilpdImm256 _ rm _
  | .vpermilpsImm128 _ rm _ | .vpermilpsImm256 _ rm _ => rm
  | .vmaskmovpsLoad128 _ _ m | .vmaskmovpsLoad256 _ _ m | .vmaskmovpdLoad128 _ _ m
  | .vmaskmovpdLoad256 _ _ m | .vpmaskmovdLoad128 _ _ m | .vpmaskmovdLoad256 _ _ m
  | .vpmaskmovqLoad128 _ _ m | .vpmaskmovqLoad256 _ _ m => .mem m
  | .vmaskmovpsStore128 m _ _ | .vmaskmovpsStore256 m _ _ | .vmaskmovpdStore128 m _ _
  | .vmaskmovpdStore256 m _ _ | .vpmaskmovdStore128 m _ _ | .vpmaskmovdStore256 m _ _
  | .vpmaskmovqStore128 m _ _ | .vpmaskmovqStore256 m _ _ => .mem m
  | .vbroadcasti128 _ m => .mem m

/-- An instruction is well formed when its ModRM:r/m operand can be encoded. -/
def Instr.wf (i : Instr) : Bool := i.rm.wf

end Sys2Proof
end

