-- ==== Sys2Proof/Decode.lean ====
section
/-! DEFINITION. From bytes to instructions and back: the three-byte VEX prefix, ModRM, SIB and displacement
(R82 to R94), the opcode table (R96, R100), the encodings that raise #UD (R101), the verdict on every other
encoding (R102), the decoding procedure (R105), and the encoder. -/

namespace Sys2Proof

/-! ### The opcode table -/

/-- The opcode maps in scope: VEX `m-mmmm` = 00010b or 00011b (R81, R82). -/
inductive OpMap where
  | m0F38
  | m0F3A
  deriving DecidableEq, Repr

/-- The value of the field `m-mmmm` (R81). -/
def OpMap.bits : OpMap → BitVec 5
  | .m0F38 => 0b00010#5
  | .m0F3A => 0b00011#5

/-- What tells the rows of the table apart: map, VEX.W, VEX.L and the opcode byte (R96). Every row has `pp` = 01b (R80). -/
structure OpKey where
  map : OpMap
  w : BitVec 1
  l : BitVec 1
  op : Byte
  deriving DecidableEq, Repr

/-- The operands a decoded instruction is made of: ModRM:reg, VEX.vvvv, ModRM:r/m and the immediate (R86). -/
structure Operands where
  reg : RegNum
  v : RegNum
  rm : RM
  imm : Byte
  deriving DecidableEq, Repr

/-- One row of the opcode table. `usesV`: VEX.vvvv carries an operand (otherwise its stored bits are 1111b, R99);
`memOnly`: the table's `mod` column is `mem`; `ib`: an immediate byte follows (R85, R100). -/
structure Row where
  key : OpKey
  usesV : Bool
  memOnly : Bool
  ib : Bool
  make : Operands → Option Instr

/-- Format RVMI with `xmm3/m` or `ymm3/m` (R86). -/
def Row.rvmi (k : OpKey) (f : RegNum → RegNum → RM → Byte → Instr) : Row :=
  ⟨k, true, false, true, fun o => some (f o.reg o.v o.rm o.imm)⟩

/-- Format RVM with a register or memory operand 3 (R86). -/
def Row.rvm (k : OpKey) (f : RegNum → RegNum → RM → Instr) : Row :=
  ⟨k, true, false, false, fun o => some (f o.reg o.v o.rm)⟩

/-- The memory alternative of a ModRM:r/m operand, for the rows whose `mod` column is `mem` (R91). -/
def RM.asMem : RM → Option Mem
  | .reg _ => none
  | .mem m => some m

/-- Format RVM with a memory operand only: the masked loads (R86, R142, R210). -/
def Row.rvmMem (k : OpKey) (f : RegNum → RegNum → Mem → Instr) : Row :=
  ⟨k, true, true, false, fun o => o.rm.asMem.map fun m => f o.reg o.v m⟩

/-- Format MVR: the masked stores, data register in ModRM:reg, memory in ModRM:r/m (R86, R87). -/
def Row.mvrMem (k : OpKey) (f : Mem → RegNum → RegNum → Instr) : Row :=
  ⟨k, true, true, false, fun o => o.rm.asMem.map fun m => f m o.v o.reg⟩

/-- Format RM with a register or memory operand 2 (R86). -/
def Row.rmAny (k : OpKey) (f : RegNum → RM → Instr) : Row :=
  ⟨k, false, false, false, fun o => some (f o.reg o.rm)⟩

/-- Format RM with a memory operand only: VBROADCASTI128 (R86, R91). -/
def Row.rmMem (k : OpKey) (f : RegNum → Mem → Instr) : Row :=
  ⟨k, false, true, false, fun o => o.rm.asMem.map fun m => f o.reg m⟩

/-- Format RMI (R86). -/
def Row.rmi (k : OpKey) (f : RegNum → RM → Byte → Instr) : Row :=
  ⟨k, false, false, true, fun o => some (f o.reg o.rm o.imm)⟩

/-- Rows 1 to 12 of R100: inserts, VMASKMOVPS/PD, VPBLENDD. -/
def opcodeRows1to12 : List Row := [
    .rvmi ⟨.m0F3A, 0, 1, 0x18⟩ .vinsertf128,
    .rvmi ⟨.m0F3A, 0, 1, 0x38⟩ .vinserti128,
    .rvmMem ⟨.m0F38, 0, 0, 0x2C⟩ .vmaskmovpsLoad128,
    .rvmMem ⟨.m0F38, 0, 1, 0x2C⟩ .vmaskmovpsLoad256,
    .rvmMem ⟨.m0F38, 0, 0, 0x2D⟩ .vmaskmovpdLoad128,
    .rvmMem ⟨.m0F38, 0, 1, 0x2D⟩ .vmaskmovpdLoad256,
    .mvrMem ⟨.m0F38, 0, 0, 0x2E⟩ .vmaskmovpsStore128,
    .mvrMem ⟨.m0F38, 0, 1, 0x2E⟩ .vmaskmovpsStore256,
    .mvrMem ⟨.m0F38, 0, 0, 0x2F⟩ .vmaskmovpdStore128,
    .mvrMem ⟨.m0F38, 0, 1, 0x2F⟩ .vmaskmovpdStore256,
    .rvmi ⟨.m0F3A, 0, 0, 0x02⟩ .vpblendd128,
    .rvmi ⟨.m0F3A, 0, 1, 0x02⟩ .vpblendd256]

/-- Rows 13 to 26 of R100: broadcasts, cross-lane permutes, VPERM2I128. -/
def opcodeRows13to26 : List Row := [
    .rmAny ⟨.m0F38, 0, 0, 0x78⟩ .vpbroadcastb128,
    .rmAny ⟨.m0F38, 0, 1, 0x78⟩ .vpbroadcastb256,
    .rmAny ⟨.m0F38, 0, 0, 0x79⟩ .vpbroadcastw128,
    .rmAny ⟨.m0F38, 0, 1, 0x79⟩ .vpbroadcastw256,
    .rmAny ⟨.m0F38, 0, 0, 0x58⟩ .vpbroadcastd128,
    .rmAny ⟨.m0F38, 0, 1, 0x58⟩ .vpbroadcastd256,
    .rmAny ⟨.m0F38, 0, 0, 0x59⟩ .vpbroadcastq128,
    .rmAny ⟨.m0F38, 0, 1, 0x59⟩ .vpbroadcastq256,
    .rmMem ⟨.m0F38, 0, 1, 0x5A⟩ .vbroadcasti128,
    .rvm ⟨.m0F38, 0, 1, 0x36⟩ .vpermd,
    .rmi ⟨.m0F3A, 1, 1, 0x01⟩ .vpermpd,
    .rvm ⟨.m0F38, 0, 1, 0x16⟩ .vpermps,
    .rmi ⟨.m0F3A, 1, 1, 0x00⟩ .vpermq,
    .rvmi ⟨.m0F3A, 0, 1, 0x46⟩ .vperm2i128]

/-- Rows 27 to 35 of R100: in-lane permutes, VPERM2F128. -/
def opcodeRows27to35 : List Row := [
    .rvm ⟨.m0F38, 0, 0, 0x0D⟩ .vpermilpdVar128,
    .rvm ⟨.m0F38, 0, 1, 0x0D⟩ .vpermilpdVar256,
    .rmi ⟨.m0F3A, 0, 0, 0x05⟩ .vpermilpdImm128,
    .rmi ⟨.m0F3A, 0, 1, 0x05⟩ .vpermilpdImm256,
    .rvm ⟨.m0F38, 0, 0, 0x0C⟩ .vpermilpsVar128,
    .rmi ⟨.m0F3A, 0, 0, 0x04⟩ .vpermilpsImm128,
    .rvm ⟨.m0F38, 0, 1, 0x0C⟩ .vpermilpsVar256,
    .rmi ⟨.m0F3A, 0, 1, 0x04⟩ .vpermilpsImm256,
    .rvmi ⟨.m0F3A, 0, 1, 0x06⟩ .vperm2f128]

/-- Rows 36 to 47 of R100: VPMASKMOVD/Q, VPSLLVD/Q. -/
def opcodeRows36to47 : List Row := [
    .rvmMem ⟨.m0F38, 0, 0, 0x8C⟩ .vpmaskmovdLoad128,
    .rvmMem ⟨.m0F38, 0, 1, 0x8C⟩ .vpmaskmovdLoad256,
    .rvmMem ⟨.m0F38, 1, 0, 0x8C⟩ .vpmaskmovqLoad128,
    .rvmMem ⟨.m0F38, 1, 1, 0x8C⟩ .vpmaskmovqLoad256,
    .mvrMem ⟨.m0F38, 0, 0, 0x8E⟩ .vpmaskmovdStore128,
    .mvrMem ⟨.m0F38, 0, 1, 0x8E⟩ .vpmaskmovdStore256,
    .mvrMem ⟨.m0F38, 1, 0, 0x8E⟩ .vpmaskmovqStore128,
    .mvrMem ⟨.m0F38, 1, 1, 0x8E⟩ .vpmaskmovqStore256,
    .rvm ⟨.m0F38, 0, 0, 0x47⟩ .vpsllvd128,
    .rvm ⟨.m0F38, 1, 0, 0x47⟩ .vpsllvq128,
    .rvm ⟨.m0F38, 0, 1, 0x47⟩ .vpsllvd256,
    .rvm ⟨.m0F38, 1, 1, 0x47⟩ .vpsllvq256]

/-- The 47 rows of R100, in the spec's order. -/
def opcodeTable : List Row :=
  opcodeRows1to12 ++ opcodeRows13to26 ++ opcodeRows27to35 ++ opcodeRows36to47

/-! ### The VEX prefix -/

/-- The fields of a three-byte VEX prefix, with `r`, `x`, `b` and `vvvv` already complemented: `vvvv` is the register
number, so 0 where the stored bits are 1111b (R82). -/
structure Vex where
  r : BitVec 1
  x : BitVec 1
  b : BitVec 1
  mmmmm : BitVec 5
  w : BitVec 1
  vvvv : RegNum
  l : BitVec 1
  pp : BitVec 2
  deriving DecidableEq, Repr

/-- Reads the bytes P1 and P2 (R82). -/
def Vex.ofBytes (p1 p2 : Byte) : Vex where
  r := ~~~(p1.extractLsb' 7 1)
  x := ~~~(p1.extractLsb' 6 1)
  b := ~~~(p1.extractLsb' 5 1)
  mmmmm := p1.extractLsb' 0 5
  w := p2.extractLsb' 7 1
  vvvv := ~~~(p2.extractLsb' 3 4)
  l := p2.extractLsb' 2 1
  pp := p2.extractLsb' 0 2

/-- Byte P1 of the prefix (R82). -/
def Vex.p1 (v : Vex) : Byte := (~~~v.r) ++ (~~~v.x) ++ (~~~v.b) ++ v.mmmmm

/-- Byte P2 of the prefix (R82). -/
def Vex.p2 (v : Vex) : Byte := v.w ++ (~~~v.vvvv) ++ v.l ++ v.pp

/-- The prefix and opcode byte are those of this key (R96); `pp` is 01b for every row (R80). -/
def Vex.hasKey (v : Vex) (op : Byte) (k : OpKey) : Bool :=
  v.mmmmm = k.map.bits && v.pp = 0b01#2 && v.w = k.w && v.l = k.l && op = k.op

/-- The row matches: key, VEX.vvvv = 1111b where no operand uses it, and the `mod` constraint (R96). -/
def Row.matches (row : Row) (v : Vex) (op : Byte) (md : BitVec 2) : Bool :=
  v.hasKey op row.key && (row.usesV || v.vvvv = 0) && (!row.memOnly || md ≠ 0b11#2)

/-! ### Encodings that raise #UD -/

/-- The rows U-a to U-i of R101. -/
inductive UdRow where
  | vinserti128L0
  | vbroadcasti128Reg
  | vbroadcasti128L0
  | broadcastVvvv
  | vpbroadcastW1
  | vpermdL0
  | vpermpdL0
  | vpermpsL0
  | vpermqL0
  deriving DecidableEq, Repr

/-- The opcode bytes 78h, 79h, 58h, 59h of VPBROADCASTB/W/D/Q (R101 U-e). -/
def isVpbroadcastOp (op : Byte) : Bool := op = 0x78 || op = 0x79 || op = 0x58 || op = 0x59

/-- The condition of one row of R101, on the prefix, the opcode byte and ModRM.mod. -/
def UdRow.hit (v : Vex) (op : Byte) (md : BitVec 2) : UdRow → Bool
  | .vinserti128L0 => v.hasKey op ⟨.m0F3A, 0, 0, 0x38⟩
  | .vbroadcasti128Reg => v.hasKey op ⟨.m0F38, 0, 1, 0x5A⟩ && md = 0b11#2
  | .vbroadcasti128L0 => v.hasKey op ⟨.m0F38, 0, 0, 0x5A⟩
  | .broadcastVvvv =>
      v.mmmmm = OpMap.m0F38.bits && v.pp = 0b01#2 && (isVpbroadcastOp op || op = 0x5A) && v.vvvv ≠ 0
  | .vpbroadcastW1 => v.mmmmm = OpMap.m0F38.bits && v.pp = 0b01#2 && isVpbroadcastOp op && v.w = 1
  | .vpermdL0 => v.hasKey op ⟨.m0F38, 0, 0, 0x36⟩
  | .vpermpdL0 => v.hasKey op ⟨.m0F3A, 1, 0, 0x01⟩
  | .vpermpsL0 => v.hasKey op ⟨.m0F38, 0, 0, 0x16⟩
  | .vpermqL0 => v.hasKey op ⟨.m0F3A, 1, 0, 0x00⟩

/-- The rows of R101 in the spec's order. -/
def udRows : List UdRow :=
  [.vinserti128L0, .vbroadcasti128Reg, .vbroadcasti128L0, .broadcastVvvv, .vpbroadcastW1, .vpermdL0, .vpermpdL0,
   .vpermpsL0, .vpermqL0]

/-! ### ModRM, SIB and displacement -/

/-- A 32-bit little-endian displacement at the head of the bytes (R90). -/
def takeDisp32 : List Byte → Option (BitVec 32 × List Byte)
  | b0 :: b1 :: b2 :: b3 :: rest => some (b3 ++ b2 ++ b1 ++ b0, rest)
  | _ => none

/-- The displacement that `mod` announces (R90): none, one byte, or four bytes. -/
def takeDisp (md : BitVec 2) (bytes : List Byte) : Option (Disp × List Byte) :=
  if md = 0b01#2 then
    match bytes with
    | b :: rest => some (.d8 b, rest)
    | [] => none
  else if md = 0b10#2 then (takeDisp32 bytes).map fun p => (.d32 p.1, p.2)
  else some (.d0, bytes)

/-- The index register of a SIB byte: number 4 is "no index" (R89). -/
def sibIndex (n : RegNum) : Option RegNum := if n = 4#4 then none else some n

/-- The memory operand after a SIB byte (R89, R90, R93). -/
def decodeSib (v : Vex) (md : BitVec 2) (sib : Byte) (rest : List Byte) : Option (Mem × List Byte) :=
  let scale := sib.extractLsb' 6 2
  let index := sibIndex (v.x ++ sib.extractLsb' 3 3)
  let base := sib.extractLsb' 0 3
  if base = 0b101#3 && md = 0b00#2 then
    (takeDisp32 rest).map fun p => (.sibNoBase index scale p.1, p.2)
  else
    (takeDisp md rest).map fun p => (.sib (v.b ++ base) index scale p.1, p.2)

/-- The ModRM:r/m operand, and the bytes after it; `none` when the bytes run out (R88 to R93). -/
def decodeRM (v : Vex) (md : BitVec 2) (rm : BitVec 3) (tail : List Byte) : Option (RM × List Byte) :=
  if md = 0b11#2 then some (.reg (v.b ++ rm), tail)
  else if rm = 0b100#3 then
    match tail with
    | [] => none
    | sib :: rest => (decodeSib v md sib rest).map fun p => (.mem p.1, p.2)
  else if rm = 0b101#3 && md = 0b00#2 then
    (takeDisp32 tail).map fun p => (.mem (.ripRel p.1), p.2)
  else
    (takeDisp md tail).map fun p => (.mem (.base (v.b ++ rm) p.1), p.2)

/-! ### The decoder -/

/-- Why bytes are not an instruction of this spec (R83, R98, R102). -/
inductive Foreign where
  /-- The two-byte VEX prefix C5h (R83). -/
  | twoByteVex
  /-- A legacy or REX prefix byte before a VEX prefix (R98). -/
  | legacyPrefix (b : Byte)
  /-- Any other first byte than C4h (R105 step 1). -/
  | firstByte (b : Byte)
  /-- C4h, but the decode key `K` is in neither table, or its `mod` constraint fails (R102). -/
  | unlisted (k : BitVec 32)
  deriving DecidableEq, Repr

/-- How many bytes the decoder has read when it gives this verdict (R105). -/
def Foreign.bytesRead : Foreign → Nat
  | .twoByteVex => 1
  | .legacyPrefix _ => 1
  | .firstByte _ => 1
  | .unlisted _ => 5

/-- What the bytes at `rip` are (R105). -/
inductive Decoded where
  | instr (i : Instr) (rest : List Byte)
  | ud (row : UdRow)
  | foreign (why : Foreign)
  | truncated
  deriving DecidableEq, Repr

/-- The bytes that R98 names before a VEX prefix. -/
def isLegacyPrefix (b : Byte) : Bool :=
  b = 0x66 || b = 0xF2 || b = 0xF3 || b = 0xF0 || b.extractLsb' 4 4 = 0x4#4 || b = 0x26 || b = 0x2E || b = 0x36 ||
  b = 0x3E || b = 0x64 || b = 0x65 || b = 0x67

/-- The verdict on a first byte that is not C4h (R83, R98, R105). -/
def foreignFirst (b : Byte) : Foreign :=
  if b = 0xC5 then .twoByteVex else if isLegacyPrefix b then .legacyPrefix b else .firstByte b

/-- A matched row with its operand bytes: ModRM:r/m, then the immediate if the row has one (R85, R105 step 6). -/
def decodeRow (row : Row) (v : Vex) (modrm : Byte) (k : BitVec 32) (tail : List Byte) : Decoded :=
  let reg : RegNum := v.r ++ modrm.extractLsb' 3 3
  let finish (rm : RM) (imm : Byte) (rest : List Byte) : Decoded :=
    match row.make ⟨reg, v.vvvv, rm, imm⟩ with
    | some i => .instr i rest
    | none => .foreign (.unlisted k)
  match decodeRM v (modrm.extractLsb' 6 2) (modrm.extractLsb' 0 3) tail with
  | none => .truncated
  | some (rm, rest) =>
    if row.ib then
      match rest with
      | [] => .truncated
      | imm :: rest' => finish rm imm rest'
    else finish rm 0 rest

/-- The decoder after the first five bytes: #UD rows, then the opcode table, then the refusal (R105 steps 4 to 6). -/
def decodeVex (p1 p2 op modrm : Byte) (tail : List Byte) : Decoded :=
  let v := Vex.ofBytes p1 p2
  let md := modrm.extractLsb' 6 2
  let k : BitVec 32 := 0xC4#8 ++ p1 ++ p2 ++ op
  match udRows.find? (UdRow.hit v op md) with
  | some row => .ud row
  | none =>
    match opcodeTable.find? fun row => row.matches v op md with
    | none => .foreign (.unlisted k)
    | some row => decodeRow row v modrm k tail

/-- The decoding procedure of R105, total on any bytes. `truncated`: the bytes end inside an instruction (R263). -/
def decode : List Byte → Decoded
  | [] => .truncated
  | p0 :: rest =>
    if p0 ≠ 0xC4 then .foreign (foreignFirst p0)
    else
      match rest with
      | p1 :: p2 :: op :: modrm :: tail => decodeVex p1 p2 op modrm tail
      | _ => .truncated

/-! ### The encoder -/

/-- A 32-bit value as four bytes, lowest first (R51, R90). -/
def disp32Bytes (d : BitVec 32) : List Byte :=
  [d.extractLsb' 0 8, d.extractLsb' 8 8, d.extractLsb' 16 8, d.extractLsb' 24 8]

/-- The `mod` field that announces this displacement (R90). -/
def Disp.md : Disp → BitVec 2
  | .d0 => 0b00#2
  | .d8 _ => 0b01#2
  | .d32 _ => 0b10#2

/-- The displacement's bytes (R90). -/
def Disp.bytes : Disp → List Byte
  | .d0 => []
  | .d8 d => [d]
  | .d32 d => disp32Bytes d

/-- What a ModRM:r/m operand contributes to an encoding: VEX.X, VEX.B, `mod`, `rm` and the bytes after ModRM (R85).
VEX.X and VEX.B are encoded as 0 where the operand ignores them (R88, R89, R93; log entry 19). -/
structure RMBits where
  x : BitVec 1
  b : BitVec 1
  md : BitVec 2
  rm : BitVec 3
  tail : List Byte
  deriving DecidableEq, Repr

/-- The high bit of a register number (R82). -/
def RegNum.high (r : RegNum) : BitVec 1 := r.extractLsb' 3 1

/-- The number a SIB byte's index field holds: 4 for "no index" (R89). -/
def indexNumber : Option RegNum → RegNum
  | none => 4#4
  | some n => n

/-- The SIB byte (R89). -/
def sibByte (scale : BitVec 2) (index : RegNum) (base : BitVec 3) : Byte := scale ++ index.low ++ base

/-- The bits and bytes of a ModRM:r/m operand (R88 to R90). -/
def RM.encode : RM → RMBits
  | .reg r => ⟨0, r.high, 0b11#2, r.low, []⟩
  | .mem (.base b d) => ⟨0, b.high, d.md, b.low, d.bytes⟩
  | .mem (.ripRel d) => ⟨0, 0, 0b00#2, 0b101#3, disp32Bytes d⟩
  | .mem (.sib b index scale d) =>
      ⟨(indexNumber index).high, b.high, d.md, 0b100#3, sibByte scale (indexNumber index) b.low :: d.bytes⟩
  | .mem (.sibNoBase index scale d) =>
      ⟨(indexNumber index).high, 0, 0b00#2, 0b100#3, sibByte scale (indexNumber index) 0b101#3 :: disp32Bytes d⟩

/-- What an instruction's encoding is made of; `v` is 0 (stored 1111b) where VEX.vvvv carries no operand (R82, R99). -/
structure Encoding where
  key : OpKey
  reg : RegNum
  v : RegNum
  rm : RM
  imm : Option Byte
  deriving DecidableEq, Repr

/-- The opcode string and operand placement of each form (R86, R87, R100). -/
def Instr.encoding : Instr → Encoding
  | .vinsertf128 d v rm imm => ⟨⟨.m0F3A, 0, 1, 0x18⟩, d, v, rm, some imm⟩
  | .vinserti128 d v rm imm => ⟨⟨.m0F3A, 0, 1, 0x38⟩, d, v, rm, some imm⟩
  | .vmaskmovpsLoad128 d v m => ⟨⟨.m0F38, 0, 0, 0x2C⟩, d, v, .mem m, none⟩
  | .vmaskmovpsLoad256 d v m => ⟨⟨.m0F38, 0, 1, 0x2C⟩, d, v, .mem m, none⟩
  | .vmaskmovpdLoad128 d v m => ⟨⟨.m0F38, 0, 0, 0x2D⟩, d, v, .mem m, none⟩
  | .vmaskmovpdLoad256 d v m => ⟨⟨.m0F38, 0, 1, 0x2D⟩, d, v, .mem m, none⟩
  | .vmaskmovpsStore128 m v src => ⟨⟨.m0F38, 0, 0, 0x2E⟩, src, v, .mem m, none⟩
  | .vmaskmovpsStore256 m v src => ⟨⟨.m0F38, 0, 1, 0x2E⟩, src, v, .mem m, none⟩
  | .vmaskmovpdStore128 m v src => ⟨⟨.m0F38, 0, 0, 0x2F⟩, src, v, .mem m, none⟩
  | .vmaskmovpdStore256 m v src => ⟨⟨.m0F38, 0, 1, 0x2F⟩, src, v, .mem m, none⟩
  | .vpblendd128 d v rm imm => ⟨⟨.m0F3A, 0, 0, 0x02⟩, d, v, rm, some imm⟩
  | .vpblendd256 d v rm imm => ⟨⟨.m0F3A, 0, 1, 0x02⟩, d, v, rm, some imm⟩
  | .vpbroadcastb128 d rm => ⟨⟨.m0F38, 0, 0, 0x78⟩, d, 0, rm, none⟩
  | .vpbroadcastb256 d rm => ⟨⟨.m0F38, 0, 1, 0x78⟩, d, 0, rm, none⟩
  | .vpbroadcastw128 d rm => ⟨⟨.m0F38, 0, 0, 0x79⟩, d, 0, rm, none⟩
  | .vpbroadcastw256 d rm => ⟨⟨.m0F38, 0, 1, 0x79⟩, d, 0, rm, none⟩
  | .vpbroadcastd128 d rm => ⟨⟨.m0F38, 0, 0, 0x58⟩, d, 0, rm, none⟩
  | .vpbroadcastd256 d rm => ⟨⟨.m0F38, 0, 1, 0x58⟩, d, 0, rm, none⟩
  | .vpbroadcastq128 d rm => ⟨⟨.m0F38, 0, 0, 0x59⟩, d, 0, rm, none⟩
  | .vpbroadcastq256 d rm => ⟨⟨.m0F38, 0, 1, 0x59⟩, d, 0, rm, none⟩
  | .vbroadcasti128 d m => ⟨⟨.m0F38, 0, 1, 0x5A⟩, d, 0, .mem m, none⟩
  | .vpermd d v rm => ⟨⟨.m0F38, 0, 1, 0x36⟩, d, v, rm, none⟩
  | .vpermpd d rm imm => ⟨⟨.m0F3A, 1, 1, 0x01⟩, d, 0, rm, some imm⟩
  | .vpermps d v rm => ⟨⟨.m0F38, 0, 1, 0x16⟩, d, v, rm, none⟩
  | .vpermq d rm imm => ⟨⟨.m0F3A, 1, 1, 0x00⟩, d, 0, rm, some imm⟩
  | .vperm2i128 d v rm imm => ⟨⟨.m0F3A, 0, 1, 0x46⟩, d, v, rm, some imm⟩
  | .vpermilpdVar128 d v rm => ⟨⟨.m0F38, 0, 0, 0x0D⟩, d, v, rm, none⟩
  | .vpermilpdVar256 d v rm => ⟨⟨.m0F38, 0, 1, 0x0D⟩, d, v, rm, none⟩
  | .vpermilpdImm128 d rm imm => ⟨⟨.m0F3A, 0, 0, 0x05⟩, d, 0, rm, some imm⟩
  | .vpermilpdImm256 d rm imm => ⟨⟨.m0F3A, 0, 1, 0x05⟩, d, 0, rm, some imm⟩
  | .vpermilpsVar128 d v rm => ⟨⟨.m0F38, 0, 0, 0x0C⟩, d, v, rm, none⟩
  | .vpermilpsImm128 d rm imm => ⟨⟨.m0F3A, 0, 0, 0x04⟩, d, 0, rm, some imm⟩
  | .vpermilpsVar256 d v rm => ⟨⟨.m0F38, 0, 1, 0x0C⟩, d, v, rm, none⟩
  | .vpermilpsImm256 d rm imm => ⟨⟨.m0F3A, 0, 1, 0x04⟩, d, 0, rm, some imm⟩
  | .vperm2f128 d v rm imm => ⟨⟨.m0F3A, 0, 1, 0x06⟩, d, v, rm, some imm⟩
  | .vpmaskmovdLoad128 d v m => ⟨⟨.m0F38, 0, 0, 0x8C⟩, d, v, .mem m, none⟩
  | .vpmaskmovdLoad256 d v m => ⟨⟨.m0F38, 0, 1, 0x8C⟩, d, v, .mem m, none⟩
  | .vpmaskmovqLoad128 d v m => ⟨⟨.m0F38, 1, 0, 0x8C⟩, d, v, .mem m, none⟩
  | .vpmaskmovqLoad256 d v m => ⟨⟨.m0F38, 1, 1, 0x8C⟩, d, v, .mem m, none⟩
  | .vpmaskmovdStore128 m v src => ⟨⟨.m0F38, 0, 0, 0x8E⟩, src, v, .mem m, none⟩
  | .vpmaskmovdStore256 m v src => ⟨⟨.m0F38, 0, 1, 0x8E⟩, src, v, .mem m, none⟩
  | .vpmaskmovqStore128 m v src => ⟨⟨.m0F38, 1, 0, 0x8E⟩, src, v, .mem m, none⟩
  | .vpmaskmovqStore256 m v src => ⟨⟨.m0F38, 1, 1, 0x8E⟩, src, v, .mem m, none⟩
  | .vpsllvd128 d v rm => ⟨⟨.m0F38, 0, 0, 0x47⟩, d, v, rm, none⟩
  | .vpsllvq128 d v rm => ⟨⟨.m0F38, 1, 0, 0x47⟩, d, v, rm, none⟩
  | .vpsllvd256 d v rm => ⟨⟨.m0F38, 0, 1, 0x47⟩, d, v, rm, none⟩
  | .vpsllvq256 d v rm => ⟨⟨.m0F38, 1, 1, 0x47⟩, d, v, rm, none⟩

/-- The VEX prefix of an encoding (R81, R82). -/
def Encoding.vex (e : Encoding) : Vex where
  r := e.reg.high
  x := e.rm.encode.x
  b := e.rm.encode.b
  mmmmm := e.key.map.bits
  w := e.key.w
  vvvv := e.v
  l := e.key.l
  pp := 0b01#2

/-- The ModRM byte of an encoding (R88). -/
def Encoding.modrm (e : Encoding) : Byte := e.rm.encode.md ++ e.reg.low ++ e.rm.encode.rm

/-- The bytes of an encoding in address order (R85). -/
def Encoding.bytes (e : Encoding) : List Byte :=
  [0xC4, e.vex.p1, e.vex.p2, e.key.op, e.modrm] ++ e.rm.encode.tail ++ e.imm.toList

/-- The encoder: the bytes of a well-formed instruction, lowest address first (R85). -/
def encode (i : Instr) : List Byte := i.encoding.bytes

/-! ### Instruction length -/

/-- Displacement bytes (R90). -/
def Disp.size : Disp → Nat
  | .d0 => 0
  | .d8 _ => 1
  | .d32 _ => 4

/-- SIB and displacement bytes of a ModRM:r/m operand (R85, R97). -/
def RM.size : RM → Nat
  | .reg _ => 0
  | .mem (.base _ d) => d.size
  | .mem (.ripRel _) => 4
  | .mem (.sib _ _ _ d) => 1 + d.size
  | .mem (.sibNoBase _ _ _) => 1 + 4

/-- The length of a form with this ModRM:r/m operand, and an immediate byte if `ib` (R97). -/
def formLength (rm : RM) (ib : Bool) : Nat := 3 + 1 + 1 + rm.size + (if ib then 1 else 0)

/-- The length of an instruction in bytes (R97). -/
def Instr.length (i : Instr) : Nat := formLength i.encoding.rm i.encoding.imm.isSome

/-! ### Words of the opcode table -/

/-- Byte `n` of the bits above the decode key of a table word (log entry 17). -/
def tableByte (w n : Nat) : Byte := BitVec.ofNat 8 (w >>> (32 + 8 * n))

/-- The instruction bytes of a word numbered as the opcode table numbers them: bits 31..0 are the decode key K of R96,
whose most significant byte lies at the lowest address, and later bytes count on from bit 32. Bits at `nbits` and
above are 0, up to the longest instruction (log entry 17). -/
def tableWordBytes (nbits w : Nat) : List Byte :=
  let u := w % 2 ^ nbits
  [BitVec.ofNat 8 (u >>> 24), BitVec.ofNat 8 (u >>> 16), BitVec.ofNat 8 (u >>> 8), BitVec.ofNat 8 u,
   tableByte u 0, tableByte u 1, tableByte u 2, tableByte u 3, tableByte u 4, tableByte u 5, tableByte u 6]

/-- The instruction the decoder reads from a word of the opcode table. -/
def decodeTableWord (nbits w : Nat) : Option Instr :=
  match decode (tableWordBytes nbits w) with
  | .instr i _ => some i
  | _ => none

end Sys2Proof
end

