-- ==== Sys2Proof/Machine/State.lean ====
section
/-! DEFINITION. The machine's state as plain data, the launch parameters of a run, the state after reset, and the
reasons a step can stop (R20 to R40, R58, R230, R261). -/

namespace Sys2Proof.Machine

/-- Memory: addresses strictly rising, each below 2^64, no entry equal to what an unlisted address reads as
(R31, R50; log entry 4). -/
abbrev Memory := List Host.Cell

/-- What the platform declares a region to be (R64). -/
inductive MemType where
  /-- Ordinary cacheable memory. -/
  | plain
  /-- Un-cached memory: a masked move must not be aimed at it (R64). -/
  | uncached
  /-- Memory-mapped I/O, whose behaviour the spec does not give (R64, R248). -/
  | io
  deriving DecidableEq, Repr

/-- The kinds of access `Accessible` distinguishes (R58). -/
inductive AccessKind where
  | read
  | write
  | fetch
  deriving DecidableEq, Repr

/-- A range of addresses with the accesses it admits: `Accessible` and the platform's declarations are a list of these
(R58, R64, R65; log entry 5). -/
structure Region where
  base : Nat
  size : Nat
  read : Bool
  write : Bool
  fetch : Bool
  kind : MemType
  deriving DecidableEq, Repr

/-- The parameters of a run, constant during it (R6, R33, R58, R261, R267). -/
structure Launch where
  /-- `has_AVX` (R33). -/
  hasAVX : Bool
  /-- `has_AVX2`, which presupposes `has_AVX` (R33). -/
  hasAVX2 : Bool
  /-- CR0.AM = 1 and privilege level 3: with flags bit AC this enables alignment checking (R54, R234; log entry 7). -/
  alignArmed : Bool
  /-- `Accessible` and the declared I/O and un-cached regions (R58, R64; log entry 5). -/
  regions : List Region
  /-- `rip0`, the address of the program's first byte (R261). -/
  textBase : Word
  /-- `L`, the length of the program text, up to 2^64 bytes (R261, R263). -/
  textLen : Nat
  deriving DecidableEq, Repr

/-- The state of the machine. -/
structure State where
  /-- `ymm[0..15]`; `xmm[i]` is the low half (R20). -/
  ymm : Vector Ymm 16
  /-- `gpr[0..15]`, read by memory operands only (R24). -/
  gpr : Vector Word 16
  /-- The address of the current instruction (R25). -/
  rip : Word
  /-- The model's own bit: the last advance of `rip` carried out of its 64 bits, so that a text that ends at 2^64 has an end of
  its own (log entry 18). -/
  ripCarry : Bool
  /-- The flags register; no form changes it, AC is bit 18 (R27). The spec names that bit and no width: 64 bits are the model's
  choice (PRESUMED, the family's; log entry 22). -/
  rflags : BitVec 64
  /-- MXCSR; no form reads or writes it (R28). The spec names no width: 32 bits are the model's choice (PRESUMED, the family's;
  log entry 22). -/
  mxcsr : BitVec 32
  /-- The memory's contents (R31). -/
  mem : Memory
  /-- The parameters of the run (R261). -/
  launch : Launch
  /-- The model's own counter, to which the free values are applied (log entry 13). -/
  draws : Nat
  deriving DecidableEq, Repr

/-- Why the machine stops with an exception; an exception is terminal, and each reason carries the faulted state
(R230, R240; log entry 14). -/
inductive Fault where
  /-- #UD: an encoding of R101, raised by the fetch, or a form whose feature parameter is false (R231, R233), raised by
  every meaning. The spec's own outcome; the state is the one before the instruction (safe). -/
  | ud (after : State)
  /-- A read, write or fetch that `Accessible` does not admit (R232), raised by the fetch and by every form with a memory
  operand. `after` differs from the state before in memory only, and only for masked stores (R60). Safe: which elements
  were stored and which element is reported are free values. -/
  | memFault (addr : Word) (n : Nat) (kind : AccessKind) (after : State)
  /-- #AC, with alignment checking enabled and a misaligned operand (R54, R234), raised by every form with a memory operand.
  Whether it is raised is a free value (safe). `after` is the whole state before, memory too: for a masked store the spec leaves
  that open and it is the model's choice (DESIGN CHOICE, unsafe; log entry 23). -/
  | ac (after : State)
  deriving DecidableEq, Repr

/-- Why the machine refuses to step; a refusal claims nothing (R102, 93_implementation_defined.md). -/
inductive Refusal where
  /-- An instruction without a meaning, refused in the dispatch; no arm does (safe). -/
  | notModelled (mnemonic : String)
  /-- The bytes at `rip` are not an instruction of this spec (R102), raised by the fetch (safe). -/
  | notOfSpec (why : Foreign)
  /-- The text ends inside an instruction (R263), raised by the fetch (safe). -/
  | textEndsInside
  /-- The text would cross the top of the address space, `rip0 + L` > 2^64 (R26, R261), raised by the fetch (safe; log entry
  18). -/
  | textWraps
  /-- The run is complete: `rip = rip0 + L` (R263), raised by the fetch: there is nothing to execute (safe). -/
  | runComplete
  /-- `rip` is outside the text, which no launch gives (R263), raised by the fetch (safe). -/
  | outsideText
  /-- A masked move whose EA range has a byte in a region declared I/O or un-cached, whatever the mask (R64, R264), raised by the
  sixteen masked moves (safe; log entry 9). -/
  | maskedDeviceAccess
  /-- A masked store whose enabled element overlaps the program text (R70), raised by the eight masked stores (safe). -/
  | storeToText
  /-- A read of a region declared I/O by another form (R64, R248; log entry 10), raised by the forms with a memory source
  (safe). It comes after #AC and the memory fault of that read (DESIGN CHOICE, log entry 10). -/
  | ioRead
  deriving DecidableEq, Repr

/-- A computation of the machine: a value, a fault or a refusal. -/
abbrev Result (α : Type) := Host.Outcome α Fault Refusal

/-- The region of the reset state: the whole address space, ordinary memory, every access admitted (DESIGN CHOICE, log
entry 6). -/
def Region.everything : Region := ⟨0, 2 ^ 64, true, true, true, .plain⟩

/-- The address at which the family starts after power-up (PRESUMED, R260; log entry 2). -/
def resetVector : Word := 0xFFFFFFF0#64

/-- The state after reset: the spec states no reset value (R40); the values are the family's or the model's (log entries
1, 2, 3, 4, 6, 7, 13, 17, 18). No program is loaded. -/
def State.reset : State where
  ymm := Vector.replicate 16 0
  gpr := Vector.replicate 16 0
  rip := resetVector
  ripCarry := false
  rflags := 2
  mxcsr := 0x1F80
  mem := []
  launch :=
    { hasAVX := true, hasAVX2 := true, alignArmed := false, regions := [Region.everything],
      textBase := resetVector, textLen := 0 }
  draws := 0

end Sys2Proof.Machine
end

