-- ==== Sys2Proof/Machine/Elements.lean ====
section
/-! DEFINITION. Elements of a vector value and the functions on whole vectors that the forms compute: no form
interprets an element as a number but the variable shifts (R7, R12, R23). Widths are in bits; `W` is the width of a
vector, `w` of an element. -/

namespace Sys2Proof.Machine

/-- Element `i` of width `w`: bits `w*i+w-1 : w*i` (R7). -/
def elem {W : Nat} (w : Nat) (v : BitVec W) (i : Nat) : BitVec w := v.extractLsb' (w * i) w

/-- The value of width `W` whose elements 0 to n-1 are those of `f`, zero above. -/
def build (W w : Nat) : Nat → (Nat → BitVec w) → BitVec W
  | 0, _ => 0
  | n + 1, f => build W w n f ||| ((f n).setWidth W <<< (w * n))

/-- Insert 128 bits: the Operation block of R121 and R122; only imm8[0] is used. -/
def insert128 (src1 : Ymm) (src2 : Xmm) (imm : Byte) : Ymm :=
  build 256 128 2 fun i =>
    if i = (if imm.getLsbD 0 then 1 else 0) then src2 else elem 128 src1 i

/-- Blend dwords: bit `i` of imm8 set takes dword `i` of the second source, clear of the first (R145). -/
def blendDwords {W : Nat} (n : Nat) (src1 src2 : BitVec W) (imm : Byte) : BitVec W :=
  build W 32 n fun i => if imm.getLsbD i then elem 32 src2 i else elem 32 src1 i

/-- `Broadcast(w, n, x)` of R150. -/
def broadcast (W w n : Nat) (x : BitVec w) : BitVec W := build W w n fun _ => x

/-- Dword permute: dword `i` of the result is the dword of `src` that bits 2:0 of index dword `i` name (R165, R167, R170). -/
def permuteDwords (idx src : Ymm) : Ymm :=
  build 256 32 8 fun i => elem 32 src ((elem 32 idx i).extractLsb' 0 3).toNat

/-- Qword permute: qword `i` of the result is the qword of `src` that imm8[2i+1:2i] names (R166, R168). -/
def permuteQwords (src : Ymm) (imm : Byte) : Ymm :=
  build 256 64 4 fun i => elem 64 src (elem 2 imm i).toNat

/-- `Select128` of R176. -/
def select128 (src1 src2 : Ymm) (c : BitVec 2) : Xmm :=
  if c.getLsbD 1 then elem 128 src2 (c.extractLsb' 0 1).toNat else elem 128 src1 (c.extractLsb' 0 1).toNat

/-- One half of the result of R176: bit 3 of its immediate nibble zeroes it, bits 1:0 select, bit 2 is ignored. -/
def permuteHalf (src1 src2 : Ymm) (nibble : BitVec 4) : Xmm :=
  if nibble.getLsbD 3 then 0 else select128 src1 src2 (nibble.extractLsb' 0 2)

/-- Permute 128-bit halves: imm8[3:0] governs the low half, imm8[7:4] the high half (R175, R176, R195). -/
def permuteHalves (src1 src2 : Ymm) (imm : Byte) : Ymm :=
  build 256 128 2 fun i => permuteHalf src1 src2 (elem 4 imm i)

/-- `PermIlPD` of R180: qword `i` comes from its own lane of two qwords, the upper one if `sel i`. -/
def permIlPD {W : Nat} (n : Nat) (src : BitVec W) (sel : Nat → Bool) : BitVec W :=
  build W 64 n fun i => elem 64 src (2 * (i / 2) + if sel i then 1 else 0)

/-- The selector of the variable forms of VPERMILPD: bit 1 of each control qword (R180). -/
def pdControl {W : Nat} (ctl : BitVec W) (i : Nat) : Bool := (elem 64 ctl i).getLsbD 1

/-- `PermIlPS` of R185: dword `i` comes from its own lane of four dwords. -/
def permIlPS {W : Nat} (n : Nat) (src : BitVec W) (sel : Nat → BitVec 2) : BitVec W :=
  build W 32 n fun i => elem 32 src (4 * (i / 4) + (sel i).toNat)

/-- The selector of the variable forms of VPERMILPS: bits 1:0 of each control dword (R185). -/
def psControl {W : Nat} (ctl : BitVec W) (i : Nat) : BitVec 2 := (elem 32 ctl i).extractLsb' 0 2

/-- The selector of the immediate forms of VPERMILPS: the same four fields serve every lane (R185). -/
def psImmediate (imm : Byte) (i : Nat) : BitVec 2 := elem 2 imm (i % 4)

/-- One element of `ShiftLeftVar`: the whole count element is an unsigned number; above `w - 1` the result is 0 (R215). -/
def shiftElem {w : Nat} (x count : BitVec w) : BitVec w := if count.toNat > w - 1 then 0 else x <<< count.toNat

/-- `ShiftLeftVar(w, n, SRC, CNT)` of R215. -/
def shiftLeftVar {W : Nat} (w n : Nat) (src cnt : BitVec W) : BitVec W :=
  build W w n fun i => shiftElem (elem w src i) (elem w cnt i)

/-- The mask bit of element `i`: the most significant bit of that element of the mask (R130, R200). -/
def maskBit {W : Nat} (w : Nat) (mask : BitVec W) (i : Nat) : Bool := mask.getLsbD (w * i + (w - 1))

/-- The elements whose mask bit is 1, in rising order (R57, R130). -/
def enabledElems {W : Nat} (w n : Nat) (mask : BitVec W) : List Nat := (List.range n).filter fun i => maskBit w mask i

end Sys2Proof.Machine
end

