-- ==== Sys2Proof/Machine/Flags.lean ====
section
/-! DEFINITION. Flags and feature parameters. No instruction in scope reads or writes an arithmetic flag (R27) and
none touches MXCSR (R28), so there is no flag computation; the one flag that matters is AC (R27, R54). -/

namespace Sys2Proof.Machine

/-- The CPUID feature flag of a form (R2). -/
inductive Feature where
  | avx
  | avx2
  deriving DecidableEq, Repr

/-- The feature parameter of the run (R33). -/
def State.hasFeature (s : State) : Feature → Bool
  | .avx => s.launch.hasAVX
  | .avx2 => s.launch.hasAVX2

/-- The alignment-check flag: bit 18 of the flags register (R27). -/
def State.acFlag (s : State) : Bool := s.rflags.getLsbD 18

/-- Alignment checking is enabled: CR0.AM = 1, privilege level 3 and flags.AC = 1, the negation of the launch premise
`no_alignment_checking` (R54, R234, R267). -/
def State.alignmentChecking (s : State) : Bool := s.launch.alignArmed && s.acFlag

end Sys2Proof.Machine
end

