-- ==== Sys2Proof/Machine/Ops.lean ====
section
/-! DEFINITION. The named operations over registers, memory and exceptions: R8's primitives, `Accessible` (R58), the
masked accesses of R131 and R132, taking an exception (R240), and completing an instruction (R25). -/

namespace Sys2Proof.Machine

/-! ### Sequencing and exceptions -/

/-- Run the second computation on the first one's value; a fault or a refusal ends it. -/
def andThen {α β : Type} (x : Result α) (f : α → Result β) : Result β :=
  match x with
  | .next a => f a
  | .fault r => .fault r
  | .refused r => .refused r

/-- Taking an exception: a terminal outcome that carries the faulted state. Registers and `rip` are those of the state
given, which is the state before the instruction but for the memory of a faulting masked store (R60, R231, R240). There
is no return from one (R243). -/
def raise {α : Type} (exception : State → Fault) (at_ : State) : Result α := .fault (exception at_)

/-- A form runs only if its feature parameter is true; otherwise #UD (R233). -/
def withFeature {α : Type} (f : Feature) (s : State) (body : Result α) : Result α :=
  if s.hasFeature f then body else raise .ud s

/-! ### Registers -/

/-- `ymm[r]` (R8). -/
def State.readYmm (s : State) (r : RegNum) : Ymm := s.ymm[r.toNat]'r.isLt

/-- `ymm[r] <- v` (R8). -/
def State.writeYmm (s : State) (r : RegNum) (v : Ymm) : State := { s with ymm := s.ymm.set r.toNat v r.isLt }

/-- The low `W` bits of a vector register: `ymm[r]`, `xmm[r]` or its lowest element (R20, R150). -/
def State.readVec (W : Nat) (s : State) (r : RegNum) : BitVec W := (s.readYmm r).setWidth W

/-- Write a result of `W` bits: `ymm[r] <- zext_256(v)`, so a VEX.128 form zeroes bits 255:128 (R21). -/
def State.writeVec {W : Nat} (s : State) (r : RegNum) (v : BitVec W) : State := s.writeYmm r (v.setWidth 256)

/-- `gpr[r]` (R8, R24). -/
def State.readGpr (s : State) (r : RegNum) : Word := s.gpr[r.toNat]'r.isLt

/-- An instruction of `len` bytes completes: `rip <- rip + len` modulo 2^64 (R25, R26), its carry kept beside it (log entry 18),
and the draw counter moves on so that every instruction has draws of its own (log entry 13). -/
def State.advance (s : State) (len : Nat) : State :=
  { s with
    rip := s.rip + BitVec.ofNat 64 len
    ripCarry := decide (2 ^ 64 ≤ s.rip.toNat + len)
    draws := s.draws + 1 }

/-- Write the destination register and complete. -/
def State.writeBack {W : Nat} (s : State) (d : RegNum) (v : BitVec W) (len : Nat) : State :=
  (s.writeVec d v).advance len

/-! ### Memory contents -/

/-- What an address that the memory does not list reads as (DESIGN CHOICE, log entry 4). -/
def Memory.unlisted : Byte := 0

/-- The byte at an address (R50). -/
def Memory.read : Memory → Nat → Byte
  | [], _ => Memory.unlisted
  | (k, b) :: m, a => if k = a then b else Memory.read m a

/-- Store one byte and keep the canonical form. -/
def Memory.write : Memory → Nat → Byte → Memory
  | [], a, b => if b = Memory.unlisted then [] else [(a, b)]
  | (k, c) :: m, a, b =>
    if a < k then
      if b = Memory.unlisted then (k, c) :: m else (a, b) :: (k, c) :: m
    else if a = k then
      if b = Memory.unlisted then m else (a, b) :: m
    else (k, c) :: Memory.write m a b

/-- Canonical from address `lo` on: rising addresses below 2^64, no entry that reads as an unlisted address does. -/
def Memory.wfFrom : Nat → Memory → Bool
  | _, [] => true
  | lo, (k, b) :: m => lo ≤ k && k < 2 ^ 64 && b ≠ Memory.unlisted && Memory.wfFrom (k + 1) m

/-- The memory is in canonical form. -/
def Memory.wf (m : Memory) : Bool := Memory.wfFrom 0 m

/-- The address `k` bytes above `a`, modulo 2^64 (R72). -/
def byteAddr (a : Word) (k : Nat) : Word := a + BitVec.ofNat 64 k

/-- The `W`-bit little-endian value at `a`: bits 8k+7:8k are the byte at `a + k` (R50). -/
def Memory.readValue (W : Nat) (m : Memory) (a : Word) : BitVec W :=
  build W 8 (W / 8) fun k => m.read (byteAddr a k).toNat

/-- Store the low `n` bytes of `v` little-endian at `a` (R50). -/
def Memory.writeValue {W : Nat} (m : Memory) (a : Word) (v : BitVec W) : Nat → Memory
  | 0 => m
  | n + 1 => (Memory.writeValue m a v n).write (byteAddr a n).toNat (elem 8 v n)

/-- The `n` bytes from `a` upwards, in address order (R51). -/
def Memory.readBytes (m : Memory) (a : Word) : Nat → List Byte
  | 0 => []
  | n + 1 => m.read a.toNat :: Memory.readBytes m (a + 1) n

/-- Place bytes from `a` upwards: how a program text comes into memory (R261). -/
def Memory.placeBytes (m : Memory) (a : Word) : List Byte → Memory
  | [] => m
  | b :: bs => Memory.placeBytes (m.write a.toNat b) (a + 1) bs

/-! ### The launch's regions and text -/

/-- The address lies in the region. -/
def Region.contains (g : Region) (a : Word) : Bool := g.base ≤ a.toNat && a.toNat < g.base + g.size

/-- The region admits this kind of access (R58). -/
def Region.admits (g : Region) : AccessKind → Bool
  | .read => g.read
  | .write => g.write
  | .fetch => g.fetch

/-- `rip0 + L`, the address after the last byte of the text, up to 2^64 (R261, R263). -/
def Launch.textEnd (l : Launch) : Nat := l.textBase.toNat + l.textLen

/-- The text does not cross the top of the address space: `rip0 + L <= 2^64` (R26, R261). -/
def Launch.textFits (l : Launch) : Bool := l.textEnd ≤ 2 ^ 64

/-- The place of `rip` on the line of addresses 0 to 2^64: 2^64 is where a text that reaches the top ends (log entry 18). -/
def State.ripNat (s : State) : Nat := s.rip.toNat + if s.ripCarry then 2 ^ 64 else 0

/-- How far into the text an address lies (R261, R263). -/
def Launch.textOffset (l : Launch) (a : Word) : Nat := (a - l.textBase).toNat

/-- The address holds a byte of the program text (R70, R261). -/
def Launch.inText (l : Launch) (a : Word) : Bool := l.textOffset a < l.textLen

/-- `Accessible(a, 1, kind)`: some region admits it; the text admits no write (R58, R261 (d); log entry 5). -/
def Launch.accessibleByte (l : Launch) (kind : AccessKind) (a : Word) : Bool :=
  l.regions.any (fun g => g.contains a && g.admits kind) && !(kind = .write && l.inText a)

/-- `Accessible(a, n, kind)`: every byte of the range is accessible, which makes the predicate monotone (R58, R72). -/
def Launch.accessible (l : Launch) (a : Word) (n : Nat) (kind : AccessKind) : Bool :=
  (List.range n).all fun k => l.accessibleByte kind (byteAddr a k)

/-- `Accessible` admits fetch on the whole text (R261 (d), R267 `text_immutable`). -/
def Launch.textFetchable (l : Launch) : Bool := l.accessible l.textBase l.textLen .fetch

/-- The platform declares this address I/O (R64). -/
def Launch.isIo (l : Launch) (a : Word) : Bool := l.regions.any fun g => g.contains a && g.kind = .io

/-- The platform declares this address I/O or un-cached (R64). -/
def Launch.isDevice (l : Launch) (a : Word) : Bool := l.regions.any fun g => g.contains a && g.kind ≠ .plain

/-- Some byte of the range has the property. -/
def touches (p : Word → Bool) (a : Word) (n : Nat) : Bool := (List.range n).any fun k => p (byteAddr a k)

/-! ### Data accesses -/

/-- Alignment-check reporting: with checking enabled and an address that is no multiple of the element size (`eb` bytes),
#AC is raised or not, as the draw says (R54, R234; log entry 7). -/
def checkAlignment (eb : Nat) (ea : Word) (s : State) : Result Unit :=
  if s.alignmentChecking && ea.toNat % eb ≠ 0 && Config.alignmentDraw s.draws ea eb then raise .ac s else .next ()

/-- `MemRead(ea, W/8)` of a non-masked form with elements of `eb` bytes: one read of the whole operand (R55, R58). A region
declared I/O has no behaviour in the spec, so an admitted read of it is refused; that #AC and the memory fault come before this
refusal is the model's choice (DESIGN CHOICE, log entry 10). -/
def readMem (W eb : Nat) (ea : Word) (s : State) : Result (BitVec W) :=
  andThen (checkAlignment eb ea s) fun _ =>
    if s.launch.accessible ea (W / 8) .read then
      if touches s.launch.isIo ea (W / 8) then .refused .ioRead else .next (s.mem.readValue W ea)
    else raise (.memFault ea (W / 8) .read) s

/-- The address of element `i`, `w` bits wide, of a memory operand (R50, R57, R72). -/
def elemAddr (ea : Word) (w i : Nat) : Word := byteAddr ea (i * (w / 8))

/-- The enabled elements that `Accessible` does not admit (R59). -/
def blockedElems {W : Nat} (w n : Nat) (mask : BitVec W) (ea : Word) (kind : AccessKind) (l : Launch) : List Nat :=
  (enabledElems w n mask).filter fun i => !l.accessible (elemAddr ea w i) (w / 8) kind

/-- Some enabled element has a byte with the property. -/
def enabledTouches {W : Nat} (w n : Nat) (mask : BitVec W) (ea : Word) (p : Word → Bool) : Bool :=
  (enabledElems w n mask).any fun i => touches p (elemAddr ea w i) (w / 8)

/-- The element whose fault is reported: any one of those blocked, as the draw says (R60; log entry 12). -/
def reportedElem (draws : Nat) (first : Nat) : List Nat → Nat
  | [] => first
  | more => (first :: more).getD (Config.reportDraw draws % (more.length + 1)) first

/-- The value `MaskedLoad` returns: enabled elements from memory, the others 0 (R131). -/
def maskedLoadValue {W : Nat} (w n : Nat) (mask : BitVec W) (ea : Word) (m : Memory) : BitVec W :=
  build W w n fun i => if maskBit w mask i then m.readValue w (elemAddr ea w i) else 0

/-- `MaskedLoad(w, n, MASK, EA)` of R131; only enabled elements are consulted for faults (R59). An EA range that touches I/O or
un-cached memory is refused whatever the mask (R64, R264; log entry 9). -/
def maskedLoad {W : Nat} (w n : Nat) (mask : BitVec W) (ea : Word) (s : State) : Result (BitVec W) :=
  if touches s.launch.isDevice ea (W / 8) then .refused .maskedDeviceAccess
  else
    andThen (checkAlignment (w / 8) ea s) fun _ =>
      match blockedElems w n mask ea .read s.launch with
      | [] => .next (maskedLoadValue w n mask ea s.mem)
      | i :: more => raise (.memFault (elemAddr ea w (reportedElem s.draws i more)) (w / 8) .read) s

/-- Store the chosen elements among the first `n` of `src`, and no other byte (R132). -/
def storeElems {W : Nat} (w : Nat) (chosen : Nat → Bool) (src : BitVec W) (ea : Word) (m : Memory) : Nat → Memory
  | 0 => m
  | n + 1 =>
    let m' := storeElems w chosen src ea m n
    if chosen n then m'.writeValue (elemAddr ea w n) (elem w src n) (w / 8) else m'

/-- The elements a faulting masked store has written: enabled, accessible, and drawn (R60; log entry 11). -/
def partiallyStored {W : Nat} (w : Nat) (mask : BitVec W) (ea : Word) (s : State) (i : Nat) : Bool :=
  maskBit w mask i && s.launch.accessible (elemAddr ea w i) (w / 8) .write && Config.partialStoreDraw s.draws i

/-- `MaskedStore(w, n, MASK, SRC, EA)` of R132; only enabled elements are consulted for faults (R59). An EA range that touches I/O
or un-cached memory is refused whatever the mask (R64, R264; log entry 9), an enabled element that overlaps the text too (R70).
DESIGN CHOICE: #AC leaves memory unchanged, which R60 and R241 leave open (log entry 23). -/
def maskedStore {W : Nat} (w n : Nat) (mask src : BitVec W) (ea : Word) (s : State) : Result State :=
  if touches s.launch.isDevice ea (W / 8) then .refused .maskedDeviceAccess
  else if enabledTouches w n mask ea s.launch.inText then .refused .storeToText
  else
    andThen (checkAlignment (w / 8) ea s) fun _ =>
      match blockedElems w n mask ea .write s.launch with
      | [] => .next { s with mem := storeElems w (maskBit w mask) src ea s.mem n }
      | i :: more =>
        raise (.memFault (elemAddr ea w (reportedElem s.draws i more)) (w / 8) .write)
          { s with mem := storeElems w (partiallyStored w mask ea s) src ea s.mem n }

end Sys2Proof.Machine
end

