-- ==== Sys2Proof/Machine/Operands.lean ====
section
/-! DEFINITION. Effective addresses and ModRM:r/m operands (R91, R93), and the three shapes that the 47 forms have:
a result computed from a register-or-memory source, a masked load, a masked store. -/

namespace Sys2Proof.Machine

/-- The displacement, sign-extended to 64 bits; 0 if there is none (R90, R93). -/
def dispValue : Disp → Word
  | .d0 => 0
  | .d8 d => d.signExtend 64
  | .d32 d => d.signExtend 64

/-- The index times the scale; 0 for "no index" (R89, R93). -/
def indexValue (s : State) (index : Option RegNum) (scale : BitVec 2) : Word :=
  match index with
  | none => 0
  | some r => s.readGpr r <<< scale.toNat

/-- The effective address, which is also the linear address, of a memory operand of an instruction of `len` bytes (R93). -/
def effAddr (m : Mem) (len : Nat) (s : State) : Word :=
  match m with
  | .base b d => s.readGpr b + dispValue d
  | .ripRel d => s.rip + BitVec.ofNat 64 len + d.signExtend 64
  | .sib b index scale d => s.readGpr b + indexValue s index scale + dispValue d
  | .sibNoBase index scale d => indexValue s index scale + d.signExtend 64

/-- The ModRM:r/m source of a non-masked form: the low `W` bits of a vector register, or `W/8` bytes of memory (R52, R91). -/
def readRM (W eb : Nat) (rm : RM) (len : Nat) (s : State) : Result (BitVec W) :=
  match rm with
  | .reg r => .next (s.readVec W r)
  | .mem m => readMem W eb (effAddr m len s) s

/-- The shape of every non-masked form: check the feature, read the `W`-bit ModRM:r/m source whose elements have `eb` bytes,
write the result to `d`, complete. Every source is read before `d` is written (R22). -/
def sourceForm {R : Nat} (f : Feature) (W eb : Nat) (rm : RM) (ib : Bool) (d : RegNum) (result : BitVec W → BitVec R)
    (s : State) : Result State :=
  withFeature f s <|
    andThen (readRM W eb rm (formLength rm ib) s) fun src => .next (s.writeBack d (result src) (formLength rm ib))

/-- The shape of the masked loads: `W`-bit form with elements of `w` bits, mask in `v` (R130, R142). -/
def maskedLoadForm (f : Feature) (W w : Nat) (d v : RegNum) (m : Mem) (s : State) : Result State :=
  let len := formLength (.mem m) false
  withFeature f s <|
    andThen (maskedLoad w (W / w) (s.readVec W v) (effAddr m len s) s) fun r => .next (s.writeBack d r len)

/-- The shape of the masked stores: mask in `v`, data in `src` (R130, R142). -/
def maskedStoreForm (f : Feature) (W w : Nat) (m : Mem) (v src : RegNum) (s : State) : Result State :=
  let len := formLength (.mem m) false
  withFeature f s <|
    andThen (maskedStore w (W / w) (s.readVec W v) (s.readVec W src) (effAddr m len s) s) fun t => .next (t.advance len)

end Sys2Proof.Machine
end

