-- ==== Sys2Proof/Machine/Blend.lean ====
section
/-! DEFINITION. VPBLENDD (42_vpblendd.md). -/

namespace Sys2Proof.Machine

/-- VPBLENDD xmm1, xmm2, xmm3/m128, imm8; bits 255:128 of the destination are zeroed (R145, R146). -/
def execVpblendd128 (d v : RegNum) (rm : RM) (imm : Byte) (s : State) : Result State :=
  sourceForm .avx2 128 4 rm true d (fun src2 => blendDwords 4 (s.readVec 128 v) src2 imm) s

/-- VPBLENDD ymm1, ymm2, ymm3/m256, imm8 (R145, R147). -/
def execVpblendd256 (d v : RegNum) (rm : RM) (imm : Byte) (s : State) : Result State :=
  sourceForm .avx2 256 4 rm true d (fun src2 => blendDwords 8 (s.readVec 256 v) src2 imm) s

end Sys2Proof.Machine
end

