-- ==== Sys2Proof/Machine/Broadcast.lean ====
section
/-! DEFINITION. VPBROADCASTB/W/D/Q and VBROADCASTI128 (43_vpbroadcast.md). -/

namespace Sys2Proof.Machine

/-- VPBROADCASTB xmm1, xmm2/m8: 16 copies of the lowest element (R150, R151); bits 255:128 of the destination are zeroed (R21). -/
def execVpbroadcastb128 (d : RegNum) (rm : RM) (s : State) : Result State :=
  sourceForm .avx2 8 1 rm false d (broadcast 128 8 16) s

/-- VPBROADCASTB ymm1, xmm2/m8: 32 copies of the lowest element (R150, R152). -/
def execVpbroadcastb256 (d : RegNum) (rm : RM) (s : State) : Result State :=
  sourceForm .avx2 8 1 rm false d (broadcast 256 8 32) s

/-- VPBROADCASTW xmm1, xmm2/m16: 8 copies of the lowest element (R150, R153); bits 255:128 of the destination are zeroed (R21). -/
def execVpbroadcastw128 (d : RegNum) (rm : RM) (s : State) : Result State :=
  sourceForm .avx2 16 2 rm false d (broadcast 128 16 8) s

/-- VPBROADCASTW ymm1, xmm2/m16: 16 copies of the lowest element (R150, R154). -/
def execVpbroadcastw256 (d : RegNum) (rm : RM) (s : State) : Result State :=
  sourceForm .avx2 16 2 rm false d (broadcast 256 16 16) s

/-- VPBROADCASTD xmm1, xmm2/m32: 4 copies of the lowest element (R150, R155); bits 255:128 of the destination are zeroed (R21). -/
def execVpbroadcastd128 (d : RegNum) (rm : RM) (s : State) : Result State :=
  sourceForm .avx2 32 4 rm false d (broadcast 128 32 4) s

/-- VPBROADCASTD ymm1, xmm2/m32: 8 copies of the lowest element (R150, R156). -/
def execVpbroadcastd256 (d : RegNum) (rm : RM) (s : State) : Result State :=
  sourceForm .avx2 32 4 rm false d (broadcast 256 32 8) s

/-- VPBROADCASTQ xmm1, xmm2/m64: 2 copies of the lowest element (R150, R157); bits 255:128 of the destination are zeroed (R21). -/
def execVpbroadcastq128 (d : RegNum) (rm : RM) (s : State) : Result State :=
  sourceForm .avx2 64 8 rm false d (broadcast 128 64 2) s

/-- VPBROADCASTQ ymm1, xmm2/m64: 4 copies of the lowest element (R150, R158). -/
def execVpbroadcastq256 (d : RegNum) (rm : RM) (s : State) : Result State :=
  sourceForm .avx2 64 8 rm false d (broadcast 256 64 4) s

/-- VBROADCASTI128 ymm1, m128: the 16 bytes into both halves (R159). -/
def execVbroadcasti128 (d : RegNum) (m : Mem) (s : State) : Result State :=
  sourceForm .avx2 128 16 (.mem m) false d (broadcast 256 128 2) s

end Sys2Proof.Machine
end

