-- ==== Sys2Proof/Machine/Insert.lean ====
section
/-! DEFINITION. VINSERTF128 and VINSERTI128 (40_vinsert128.md). -/

namespace Sys2Proof.Machine

/-- VINSERTF128 ymm1, ymm2, xmm3/m128, imm8 (R120, R121). -/
def execVinsertf128 (d v : RegNum) (rm : RM) (imm : Byte) (s : State) : Result State :=
  sourceForm .avx 128 16 rm true d (fun src2 => insert128 (s.readVec 256 v) src2 imm) s

/-- VINSERTI128 ymm1, ymm2, xmm3/m128, imm8 (R120, R122). -/
def execVinserti128 (d v : RegNum) (rm : RM) (imm : Byte) (s : State) : Result State :=
  sourceForm .avx2 128 16 rm true d (fun src2 => insert128 (s.readVec 256 v) src2 imm) s

end Sys2Proof.Machine
end

