-- ==== Sys2Proof/Machine/IntMaskMov.lean ====
section
/-! DEFINITION. VPMASKMOVD and VPMASKMOVQ (48_vpmaskmov.md). -/

namespace Sys2Proof.Machine

/-- VPMASKMOVD xmm1, xmm2, m128: 4 elements of 32 bits (R201); bits 255:128 of the destination are zeroed (R21). -/
def execVpmaskmovdLoad128 (d v : RegNum) (m : Mem) (s : State) : Result State :=
  maskedLoadForm .avx2 128 32 d v m s

/-- VPMASKMOVD ymm1, ymm2, m256: 8 elements of 32 bits (R202). -/
def execVpmaskmovdLoad256 (d v : RegNum) (m : Mem) (s : State) : Result State :=
  maskedLoadForm .avx2 256 32 d v m s

/-- VPMASKMOVQ xmm1, xmm2, m128: 2 elements of 64 bits (R203); bits 255:128 of the destination are zeroed (R21). -/
def execVpmaskmovqLoad128 (d v : RegNum) (m : Mem) (s : State) : Result State :=
  maskedLoadForm .avx2 128 64 d v m s

/-- VPMASKMOVQ ymm1, ymm2, m256: 4 elements of 64 bits (R204). -/
def execVpmaskmovqLoad256 (d v : RegNum) (m : Mem) (s : State) : Result State :=
  maskedLoadForm .avx2 256 64 d v m s

/-- VPMASKMOVD m128, xmm1, xmm2: 4 elements of 32 bits (R205). -/
def execVpmaskmovdStore128 (m : Mem) (v src : RegNum) (s : State) : Result State :=
  maskedStoreForm .avx2 128 32 m v src s

/-- VPMASKMOVD m256, ymm1, ymm2: 8 elements of 32 bits (R206). -/
def execVpmaskmovdStore256 (m : Mem) (v src : RegNum) (s : State) : Result State :=
  maskedStoreForm .avx2 256 32 m v src s

/-- VPMASKMOVQ m128, xmm1, xmm2: 2 elements of 64 bits (R207). -/
def execVpmaskmovqStore128 (m : Mem) (v src : RegNum) (s : State) : Result State :=
  maskedStoreForm .avx2 128 64 m v src s

/-- VPMASKMOVQ m256, ymm1, ymm2: 4 elements of 64 bits (R208). -/
def execVpmaskmovqStore256 (m : Mem) (v src : RegNum) (s : State) : Result State :=
  maskedStoreForm .avx2 256 64 m v src s

end Sys2Proof.Machine
end

