-- ==== Sys2Proof/Machine/LanePermute.lean ====
section
/-! DEFINITION. VPERMILPD and VPERMILPS (46_vpermilpd_vpermilps.md). -/

namespace Sys2Proof.Machine

/-- VPERMILPD xmm1, xmm2, xmm3/m128: data in xmm2, control in the r/m operand (R180, R181); bits 255:128 of the destination are zeroed (R21). -/
def execVpermilpdVar128 (d v : RegNum) (rm : RM) (s : State) : Result State :=
  sourceForm .avx 128 8 rm false d (fun ctl => permIlPD 2 (s.readVec 128 v) (pdControl ctl)) s

/-- VPERMILPD xmm1, xmm2/m128, imm8: bit i of imm8 controls qword i (R180, R183); bits 255:128 of the destination are zeroed (R21). -/
def execVpermilpdImm128 (d : RegNum) (rm : RM) (imm : Byte) (s : State) : Result State :=
  sourceForm .avx 128 8 rm true d (fun src => permIlPD 2 src imm.getLsbD) s

/-- VPERMILPD ymm1, ymm2, ymm3/m256: data in ymm2, control in the r/m operand (R180, R182). -/
def execVpermilpdVar256 (d v : RegNum) (rm : RM) (s : State) : Result State :=
  sourceForm .avx 256 8 rm false d (fun ctl => permIlPD 4 (s.readVec 256 v) (pdControl ctl)) s

/-- VPERMILPD ymm1, ymm2/m256, imm8: bit i of imm8 controls qword i (R180, R184). -/
def execVpermilpdImm256 (d : RegNum) (rm : RM) (imm : Byte) (s : State) : Result State :=
  sourceForm .avx 256 8 rm true d (fun src => permIlPD 4 src imm.getLsbD) s

/-- VPERMILPS xmm1, xmm2, xmm3/m128: data in xmm2, control in the r/m operand (R185, R186); bits 255:128 of the destination are zeroed (R21). -/
def execVpermilpsVar128 (d v : RegNum) (rm : RM) (s : State) : Result State :=
  sourceForm .avx 128 4 rm false d (fun ctl => permIlPS 4 (s.readVec 128 v) (psControl ctl)) s

/-- VPERMILPS xmm1, xmm2/m128, imm8: the same four fields for every lane (R185, R187); bits 255:128 of the destination are zeroed (R21). -/
def execVpermilpsImm128 (d : RegNum) (rm : RM) (imm : Byte) (s : State) : Result State :=
  sourceForm .avx 128 4 rm true d (fun src => permIlPS 4 src (psImmediate imm)) s

/-- VPERMILPS ymm1, ymm2, ymm3/m256: data in ymm2, control in the r/m operand (R185, R188). -/
def execVpermilpsVar256 (d v : RegNum) (rm : RM) (s : State) : Result State :=
  sourceForm .avx 256 4 rm false d (fun ctl => permIlPS 8 (s.readVec 256 v) (psControl ctl)) s

/-- VPERMILPS ymm1, ymm2/m256, imm8: the same four fields for every lane (R185, R189). -/
def execVpermilpsImm256 (d : RegNum) (rm : RM) (imm : Byte) (s : State) : Result State :=
  sourceForm .avx 256 4 rm true d (fun src => permIlPS 8 src (psImmediate imm)) s

end Sys2Proof.Machine
end

