-- ==== Sys2Proof/Machine/MaskMov.lean ====
section
/-! DEFINITION. VMASKMOVPS and VMASKMOVPD (41_vmaskmov.md). -/

namespace Sys2Proof.Machine

/-- VMASKMOVPS xmm1, xmm2, m128: 4 elements of 32 bits (R133); bits 255:128 of the destination are zeroed (R21). -/
def execVmaskmovpsLoad128 (d v : RegNum) (m : Mem) (s : State) : Result State :=
  maskedLoadForm .avx 128 32 d v m s

/-- VMASKMOVPS ymm1, ymm2, m256: 8 elements of 32 bits (R134). -/
def execVmaskmovpsLoad256 (d v : RegNum) (m : Mem) (s : State) : Result State :=
  maskedLoadForm .avx 256 32 d v m s

/-- VMASKMOVPD xmm1, xmm2, m128: 2 elements of 64 bits (R135); bits 255:128 of the destination are zeroed (R21). -/
def execVmaskmovpdLoad128 (d v : RegNum) (m : Mem) (s : State) : Result State :=
  maskedLoadForm .avx 128 64 d v m s

/-- VMASKMOVPD ymm1, ymm2, m256: 4 elements of 64 bits (R136). -/
def execVmaskmovpdLoad256 (d v : RegNum) (m : Mem) (s : State) : Result State :=
  maskedLoadForm .avx 256 64 d v m s

/-- VMASKMOVPS m128, xmm1, xmm2: 4 elements of 32 bits (R137). -/
def execVmaskmovpsStore128 (m : Mem) (v src : RegNum) (s : State) : Result State :=
  maskedStoreForm .avx 128 32 m v src s

/-- VMASKMOVPS m256, ymm1, ymm2: 8 elements of 32 bits (R138). -/
def execVmaskmovpsStore256 (m : Mem) (v src : RegNum) (s : State) : Result State :=
  maskedStoreForm .avx 256 32 m v src s

/-- VMASKMOVPD m128, xmm1, xmm2: 2 elements of 64 bits (R139). -/
def execVmaskmovpdStore128 (m : Mem) (v src : RegNum) (s : State) : Result State :=
  maskedStoreForm .avx 128 64 m v src s

/-- VMASKMOVPD m256, ymm1, ymm2: 4 elements of 64 bits (R140). -/
def execVmaskmovpdStore256 (m : Mem) (v src : RegNum) (s : State) : Result State :=
  maskedStoreForm .avx 256 64 m v src s

end Sys2Proof.Machine
end

