-- ==== Sys2Proof/Machine/Permute.lean ====
section
/-! DEFINITION. VPERMD, VPERMPD, VPERMPS, VPERMQ, VPERM2I128 and VPERM2F128 (44_vperm_cross_lane.md, 45_vperm2i128.md,
47_vperm2f128.md). -/

namespace Sys2Proof.Machine

/-- VPERMD ymm1, ymm2, ymm3/m256: indexes in ymm2, data in the r/m operand (R165, R170). -/
def execVpermd (d v : RegNum) (rm : RM) (s : State) : Result State :=
  sourceForm .avx2 256 4 rm false d (fun src => permuteDwords (s.readVec 256 v) src) s

/-- VPERMPD ymm1, ymm2/m256, imm8 (R166). -/
def execVpermpd (d : RegNum) (rm : RM) (imm : Byte) (s : State) : Result State :=
  sourceForm .avx2 256 8 rm true d (fun src => permuteQwords src imm) s

/-- VPERMPS ymm1, ymm2, ymm3/m256: indexes in ymm2, data in the r/m operand (R167, R170). -/
def execVpermps (d v : RegNum) (rm : RM) (s : State) : Result State :=
  sourceForm .avx2 256 4 rm false d (fun src => permuteDwords (s.readVec 256 v) src) s

/-- VPERMQ ymm1, ymm2/m256, imm8 (R168). -/
def execVpermq (d : RegNum) (rm : RM) (imm : Byte) (s : State) : Result State :=
  sourceForm .avx2 256 8 rm true d (fun src => permuteQwords src imm) s

/-- VPERM2I128 ymm1, ymm2, ymm3/m256, imm8 (R175, R176). -/
def execVperm2i128 (d v : RegNum) (rm : RM) (imm : Byte) (s : State) : Result State :=
  sourceForm .avx2 256 16 rm true d (fun src2 => permuteHalves (s.readVec 256 v) src2 imm) s

/-- VPERM2F128 ymm1, ymm2, ymm3/m256, imm8 (R176, R195). -/
def execVperm2f128 (d v : RegNum) (rm : RM) (imm : Byte) (s : State) : Result State :=
  sourceForm .avx 256 16 rm true d (fun src2 => permuteHalves (s.readVec 256 v) src2 imm) s

end Sys2Proof.Machine
end

