-- ==== Sys2Proof/Machine/Shift.lean ====
section
/-! DEFINITION. VPSLLVD and VPSLLVQ (49_vpsllv.md). -/

namespace Sys2Proof.Machine

/-- VPSLLVD xmm1, xmm2, xmm3/m128: data in xmm2, counts in the r/m operand (R215, R216); bits 255:128 of the destination are zeroed. -/
def execVpsllvd128 (d v : RegNum) (rm : RM) (s : State) : Result State :=
  sourceForm .avx2 128 4 rm false d (fun cnt => shiftLeftVar 32 4 (s.readVec 128 v) cnt) s

/-- VPSLLVQ xmm1, xmm2, xmm3/m128: data in xmm2, counts in the r/m operand (R215, R217); bits 255:128 of the destination are zeroed. -/
def execVpsllvq128 (d v : RegNum) (rm : RM) (s : State) : Result State :=
  sourceForm .avx2 128 8 rm false d (fun cnt => shiftLeftVar 64 2 (s.readVec 128 v) cnt) s

/-- VPSLLVD ymm1, ymm2, ymm3/m256: data in ymm2, counts in the r/m operand (R215, R218). -/
def execVpsllvd256 (d v : RegNum) (rm : RM) (s : State) : Result State :=
  sourceForm .avx2 256 4 rm false d (fun cnt => shiftLeftVar 32 8 (s.readVec 256 v) cnt) s

/-- VPSLLVQ ymm1, ymm2, ymm3/m256: data in ymm2, counts in the r/m operand (R215, R219). -/
def execVpsllvq256 (d v : RegNum) (rm : RM) (s : State) : Result State :=
  sourceForm .avx2 256 8 rm false d (fun cnt => shiftLeftVar 64 4 (s.readVec 256 v) cnt) s

end Sys2Proof.Machine
end

