-- ==== Sys2Proof/Machine/Dispatch.lean ====
section
/-! DEFINITION. The dispatch: one arm per form of R100, each one direct call of the form's meaning. -/

namespace Sys2Proof.Machine

/-- What an instruction does to a state (R105 steps 7 and 8). -/
def exec (i : Instr) (s : State) : Host.Outcome State Fault Refusal :=
  match i with
  | .vinsertf128 d v rm imm => Sys2Proof.Machine.execVinsertf128 d v rm imm s
  | .vinserti128 d v rm imm => Sys2Proof.Machine.execVinserti128 d v rm imm s
  | .vmaskmovpsLoad128 d v m => Sys2Proof.Machine.execVmaskmovpsLoad128 d v m s
  | .vmaskmovpsLoad256 d v m => Sys2Proof.Machine.execVmaskmovpsLoad256 d v m s
  | .vmaskmovpdLoad128 d v m => Sys2Proof.Machine.execVmaskmovpdLoad128 d v m s
  | .vmaskmovpdLoad256 d v m => Sys2Proof.Machine.execVmaskmovpdLoad256 d v m s
  | .vmaskmovpsStore128 m v src => Sys2Proof.Machine.execVmaskmovpsStore128 m v src s
  | .vmaskmovpsStore256 m v src => Sys2Proof.Machine.execVmaskmovpsStore256 m v src s
  | .vmaskmovpdStore128 m v src => Sys2Proof.Machine.execVmaskmovpdStore128 m v src s
  | .vmaskmovpdStore256 m v src => Sys2Proof.Machine.execVmaskmovpdStore256 m v src s
  | .vpblendd128 d v rm imm => Sys2Proof.Machine.execVpblendd128 d v rm imm s
  | .vpblendd256 d v rm imm => Sys2Proof.Machine.execVpblendd256 d v rm imm s
  | .vpbroadcastb128 d rm => Sys2Proof.Machine.execVpbroadcastb128 d rm s
  | .vpbroadcastb256 d rm => Sys2Proof.Machine.execVpbroadcastb256 d rm s
  | .vpbroadcastw128 d rm => Sys2Proof.Machine.execVpbroadcastw128 d rm s
  | .vpbroadcastw256 d rm => Sys2Proof.Machine.execVpbroadcastw256 d rm s
  | .vpbroadcastd128 d rm => Sys2Proof.Machine.execVpbroadcastd128 d rm s
  | .vpbroadcastd256 d rm => Sys2Proof.Machine.execVpbroadcastd256 d rm s
  | .vpbroadcastq128 d rm => Sys2Proof.Machine.execVpbroadcastq128 d rm s
  | .vpbroadcastq256 d rm => Sys2Proof.Machine.execVpbroadcastq256 d rm s
  | .vbroadcasti128 d m => Sys2Proof.Machine.execVbroadcasti128 d m s
  | .vpermd d v rm => Sys2Proof.Machine.execVpermd d v rm s
  | .vpermpd d rm imm => Sys2Proof.Machine.execVpermpd d rm imm s
  | .vpermps d v rm => Sys2Proof.Machine.execVpermps d v rm s
  | .vpermq d rm imm => Sys2Proof.Machine.execVpermq d rm imm s
  | .vperm2i128 d v rm imm => Sys2Proof.Machine.execVperm2i128 d v rm imm s
  | .vpermilpdVar128 d v rm => Sys2Proof.Machine.execVpermilpdVar128 d v rm s
  | .vpermilpdVar256 d v rm => Sys2Proof.Machine.execVpermilpdVar256 d v rm s
  | .vpermilpdImm128 d rm imm => Sys2Proof.Machine.execVpermilpdImm128 d rm imm s
  | .vpermilpdImm256 d rm imm => Sys2Proof.Machine.execVpermilpdImm256 d rm imm s
  | .vpermilpsVar128 d v rm => Sys2Proof.Machine.execVpermilpsVar128 d v rm s
  | .vpermilpsImm128 d rm imm => Sys2Proof.Machine.execVpermilpsImm128 d rm imm s
  | .vpermilpsVar256 d v rm => Sys2Proof.Machine.execVpermilpsVar256 d v rm s
  | .vpermilpsImm256 d rm imm => Sys2Proof.Machine.execVpermilpsImm256 d rm imm s
  | .vperm2f128 d v rm imm => Sys2Proof.Machine.execVperm2f128 d v rm imm s
  | .vpmaskmovdLoad128 d v m => Sys2Proof.Machine.execVpmaskmovdLoad128 d v m s
  | .vpmaskmovdLoad256 d v m => Sys2Proof.Machine.execVpmaskmovdLoad256 d v m s
  | .vpmaskmovqLoad128 d v m => Sys2Proof.Machine.execVpmaskmovqLoad128 d v m s
  | .vpmaskmovqLoad256 d v m => Sys2Proof.Machine.execVpmaskmovqLoad256 d v m s
  | .vpmaskmovdStore128 m v src => Sys2Proof.Machine.execVpmaskmovdStore128 m v src s
  | .vpmaskmovdStore256 m v src => Sys2Proof.Machine.execVpmaskmovdStore256 m v src s
  | .vpmaskmovqStore128 m v src => Sys2Proof.Machine.execVpmaskmovqStore128 m v src s
  | .vpmaskmovqStore256 m v src => Sys2Proof.Machine.execVpmaskmovqStore256 m v src s
  | .vpsllvd128 d v rm => Sys2Proof.Machine.execVpsllvd128 d v rm s
  | .vpsllvq128 d v rm => Sys2Proof.Machine.execVpsllvq128 d v rm s
  | .vpsllvd256 d v rm => Sys2Proof.Machine.execVpsllvd256 d v rm s
  | .vpsllvq256 d v rm => Sys2Proof.Machine.execVpsllvq256 d v rm s

end Sys2Proof.Machine
end

