-- ==== Sys2Proof/Machine/Fetch.lean ====
section
/-! DEFINITION. Fetching and decoding the instruction at `rip`: where the text ends, the fetch access, and the priority of
their outcomes (R26, R58, R105, R238, R263; log entries 15, 16, 18), and how a program text is placed (R261). -/

namespace Sys2Proof.Machine

/-- The text bytes the decoder may read: from `rip` to the end of the text, no more than the longest instruction (R97, R263). -/
def fetchWindow (s : State) : List Byte :=
  s.mem.readBytes s.rip (min Config.maxInstrBytes (s.launch.textEnd - s.ripNat))

/-- The fetch access of `n` bytes at `rip` comes before the outcome of what they hold (R238). -/
def fetched {α : Type} (n : Nat) (s : State) (outcome : Result α) : Result α :=
  if s.launch.accessible s.rip n .fetch then outcome else raise (.memFault s.rip n .fetch) s

/-- What the decoder's verdict means for the machine (R105, R238). An encoding of R101 has been read up to its ModRM byte. -/
def decodedOutcome (s : State) : Decoded → Result Instr
  | .instr i _ => fetched i.length s (.next i)
  | .ud _ => fetched 5 s (raise .ud s)
  | .foreign why => fetched why.bytesRead s (.refused (.notOfSpec why))
  | .truncated => .refused .textEndsInside

/-- The instruction at `rip`, or why there is none. -/
def fetch (s : State) : Result Instr :=
  if !s.launch.textFits then .refused .textWraps
  else if s.ripNat = s.launch.textEnd then .refused .runComplete
  else if s.ripNat < s.launch.textBase.toNat || s.launch.textEnd < s.ripNat then .refused .outsideText
  else decodedOutcome s (decode (fetchWindow s))

/-- The region of a text of `n` bytes at `base`: ordinary memory that admits fetch (R261 (d)). -/
def Region.ofText (base : Word) (n : Nat) : Region := ⟨base.toNat, n, false, false, true, .plain⟩

/-- Load a program text at `rip`: its bytes into memory, its place into the launch, and the fetch access to it that R261 (d)
demands (log entry 17). -/
def loadText (s : State) (text : List Byte) : State :=
  { s with
    mem := s.mem.placeBytes s.rip text
    ripCarry := false
    launch :=
      { s.launch with
        textBase := s.rip
        textLen := text.length
        regions := Region.ofText s.rip text.length :: s.launch.regions } }

end Sys2Proof.Machine
end

