-- ==== Sys2Proof/Machine/Step.lean ====
section
/-! DEFINITION. One step of the machine: fetch and decode at `rip`, then execute (R105). -/

namespace Sys2Proof.Machine

/-- One step: next state, fault or refusal. -/
def step (s : State) : Host.Outcome State Fault Refusal :=
  andThen (fetch s) fun i => exec i s

/-- The state with one instruction of the opcode table as the program text at `rip`, padded with zeros to the longest
instruction (log entry 17). -/
def State.withFetchWord (s : State) (nbits w : Nat) : State := loadText s (tableWordBytes nbits w)

end Sys2Proof.Machine
end

