-- ==== Sys2Proof/Safety.lean ====
section
/-! DEFINITION. The terms in which claims are made: a launch that holds together, an operand that can be read, what a
completed instruction leaves unchanged, the invariant of a run, and a completed run (R22, R25, R58, R59, R240, R261, R263). -/

namespace Sys2Proof.Machine

/-! ### Operands that can be accessed -/

/-- Alignment checking cannot be reported for this address: it is disabled, or the address is a multiple of the element size
(R54, R234). -/
abbrev AlignmentQuiet (eb : Nat) (ea : Word) (s : State) : Prop := s.alignmentChecking = false ∨ ea.toNat % eb = 0

/-- A `W`-bit ModRM:r/m source whose elements have `eb` bytes can be read: it is a register, or memory that `Accessible`
admits, that is not declared I/O, and for which no alignment check is reported (R55, R58). -/
abbrev SourceReady (W eb : Nat) (rm : RM) (len : Nat) (s : State) : Prop :=
  match rm with
  | .reg _ => True
  | .mem m =>
    AlignmentQuiet eb (effAddr m len s) s ∧ s.launch.accessible (effAddr m len s) (W / 8) .read = true ∧
      touches s.launch.isIo (effAddr m len s) (W / 8) = false

/-- The value of a `W`-bit ModRM:r/m source: the low bits of the register, or the little-endian bytes at the effective
address (R50, R91). -/
def sourceValue (W : Nat) (rm : RM) (len : Nat) (s : State) : BitVec W :=
  match rm with
  | .reg r => (s.readYmm r).setWidth W
  | .mem m => s.mem.readValue W (effAddr m len s)

/-- The byte `k` of element `i` of a memory operand at `ea` (R50, R57). -/
def elemByteAddr (ea : Word) (w i k : Nat) : Nat := (byteAddr (elemAddr ea w i) k).toNat

/-- Every enabled element of a masked move can be accessed, no byte of the EA range is I/O or un-cached, no enabled element of a
store overlaps the text, and no alignment check is reported (R57 to R59, R64, R70). -/
abbrev MaskedReady {W : Nat} (w : Nat) (mask : BitVec W) (ea : Word) (kind : AccessKind) (s : State) : Prop :=
  AlignmentQuiet (w / 8) ea s ∧ touches s.launch.isDevice ea (W / 8) = false ∧
    ∀ i < W / w, maskBit w mask i = true →
      s.launch.accessible (elemAddr ea w i) (w / 8) kind = true ∧
        (kind = .write → touches s.launch.inText (elemAddr ea w i) (w / 8) = false)

/-! ### Effective addresses as R93 writes them, over the integers -/

/-- The unsigned value of `gpr[r]` (R24). -/
def gprInt (s : State) (r : RegNum) : Int := (s.gpr[r.toNat]'r.isLt).toNat

/-- The signed displacement; 0 if there is none (R90, R93). -/
def dispInt : Disp → Int
  | .d0 => 0
  | .d8 d => d.toInt
  | .d32 d => d.toInt

/-- The index register's value times 1, 2, 4 or 8; 0 for "no index" (R89, R93). -/
def indexInt (s : State) (index : Option RegNum) (scale : BitVec 2) : Int :=
  match index with
  | none => 0
  | some r => gprInt s r * 2 ^ scale.toNat

/-! ### What an instruction leaves unchanged -/

/-- What every completed instruction leaves unchanged, and the advance of `rip` with its carry: general registers, flags, MXCSR
and the launch parameters stay (R24, R25, R27, R28, R33; the spec's decision D14). The draw counter, which moves on by one, and the
carry are the model's own (log entries 13, 18). -/
def Advanced (len : Nat) (s t : State) : Prop :=
  t.rip = s.rip + BitVec.ofNat 64 len ∧ t.ripCarry = decide (2 ^ 64 ≤ s.rip.toNat + len) ∧ t.gpr = s.gpr ∧ t.rflags = s.rflags ∧ t.mxcsr = s.mxcsr ∧
    t.launch = s.launch ∧ t.draws = s.draws + 1

/-- The frame of a form whose destination is the vector register `d`: every other vector register and every byte of memory
is unchanged (R22, R52). -/
def OnlyDest (d : RegNum) (len : Nat) (s t : State) : Prop :=
  Advanced len s t ∧ (∀ r, r ≠ d → t.readYmm r = s.readYmm r) ∧ ∀ a : Nat, t.mem.read a = s.mem.read a

/-- The instruction completes with a destination value that is `good`, and changes nothing else. -/
def CompletesWith (i : Instr) (d : RegNum) (s : State) (good : Ymm → Prop) : Prop :=
  ∃ t, exec i s = .next t ∧ good (t.readYmm d) ∧ OnlyDest d i.length s t

/-- Elements 0 to n-1 of width `w` are those of `f`, and every bit above them is 0 (R7, R21). -/
def HasElems (w n : Nat) (f : Nat → BitVec w) (r : Ymm) : Prop :=
  (∀ i < n, elem w r i = f i) ∧ ∀ j < 256, w * n ≤ j → r.getLsbD j = false

/-- A masked load, `W` bits with elements of `w` bits: byte `k` of enabled element `i` is the memory byte at
`EA + i*w/8 + k`, a masked-off element is 0, the bits above `W` are 0, nothing else changes (R131). -/
def MaskedLoadCompletes (f : Feature) (W w : Nat) (form : RegNum → RegNum → Mem → Instr) : Prop :=
  ∀ d v m s, s.hasFeature f = true →
    MaskedReady w ((s.readYmm v).setWidth W) (effAddr m (formLength (.mem m) false) s) .read s →
    CompletesWith (form d v m) d s fun r =>
      (∀ i < W / w, ∀ k < w / 8,
        elem 8 (elem w r i) k =
          if maskBit w (s.readYmm v) i then s.mem.read (elemByteAddr (effAddr m (formLength (.mem m) false) s) w i k)
          else 0) ∧
      ∀ j < 256, W ≤ j → r.getLsbD j = false

/-- A masked store, `W` bits with elements of `w` bits: byte `k` of enabled element `i` goes to `EA + i*w/8 + k`, every other
byte of memory and every register is unchanged (R132). -/
def MaskedStoreCompletes (f : Feature) (W w : Nat) (form : Mem → RegNum → RegNum → Instr) : Prop :=
  ∀ m v src s, s.mem.wf = true → s.hasFeature f = true →
    MaskedReady w ((s.readYmm v).setWidth W) (effAddr m (formLength (.mem m) false) s) .write s →
    ∃ t, exec (form m v src) s = .next t ∧ Advanced (form m v src).length s t ∧ t.ymm = s.ymm ∧
      (∀ i < W / w, maskBit w (s.readYmm v) i = true → ∀ k < w / 8,
        t.mem.read (elemByteAddr (effAddr m (formLength (.mem m) false) s) w i k) = elem 8 (elem w (s.readYmm src) i) k) ∧
      ∀ a : Nat,
        (∀ i < W / w, maskBit w (s.readYmm v) i = true → ∀ k < w / 8,
          a ≠ elemByteAddr (effAddr m (formLength (.mem m) false) s) w i k) →
        t.mem.read a = s.mem.read a

/-! ### Results by family -/

/-- A form whose ModRM:r/m source has `W` bits and elements of `eb` bytes completes, for every operand that can be read, with
a destination value that is `good` for the state before, the source's value and the destination's new value. -/
def FormCompletes (f : Feature) (W eb : Nat) (i : Instr) (d : RegNum) (good : State → BitVec W → Ymm → Prop) : Prop :=
  ∀ s : State, s.hasFeature f = true → SourceReady W eb i.rm i.length s →
    CompletesWith i d s (good s (sourceValue W i.rm i.length s))

/-- The encoding of a form has this opcode byte and VEX.W, and carries its operands in ModRM:reg, VEX.vvvv and ModRM:r/m (R86). -/
def OperandPlacement (i : Instr) (op : Byte) (w : BitVec 1) (reg v : RegNum) (rm : RM) : Prop :=
  i.encoding.key.op = op ∧ i.encoding.key.w = w ∧ i.encoding.reg = reg ∧ i.encoding.v = v ∧ i.encoding.rm = rm

/-- VINSERTF128, VINSERTI128: imm8[0] names the half that the source replaces, the other half is the first source's (R120). -/
def InsertCompletes (f : Feature) (op : Byte) (form : RegNum → RegNum → RM → Byte → Instr) : Prop :=
  ∀ d v rm imm, OperandPlacement (form d v rm imm) op 0 d v rm ∧ FormCompletes f 128 16 (form d v rm imm) d fun s src r =>
    HasElems 128 2 (fun i => if i = (imm.getLsbD 0).toNat then src else elem 128 (s.readYmm v) i) r

/-- VPBLENDD with `n` dwords: imm8[i] set takes dword i of the second source, clear of the first (R145). -/
def BlendCompletes (W n : Nat) (form : RegNum → RegNum → RM → Byte → Instr) : Prop :=
  ∀ d v rm imm, FormCompletes .avx2 W 4 (form d v rm imm) d fun s src r =>
    HasElems 32 n (fun i => if imm.getLsbD i then elem 32 src i else elem 32 (s.readYmm v) i) r

/-- A broadcast of a `w`-bit element to `n` places (R150). -/
def BroadcastCompletes (w n : Nat) (form : RegNum → RM → Instr) : Prop :=
  ∀ d rm, FormCompletes .avx2 w (w / 8) (form d rm) d fun _ src r => HasElems w n (fun _ => src) r

/-- VPERMD, VPERMPS: dword i is the dword of the r/m source that bits 2:0 of index dword i name (R165, R170). -/
def IndexedDwordsComplete (form : RegNum → RegNum → RM → Instr) : Prop :=
  ∀ d v rm, FormCompletes .avx2 256 4 (form d v rm) d fun s src r =>
    HasElems 32 8 (fun i => elem 32 src ((s.readYmm v).extractLsb' (32 * i) 3).toNat) r

/-- VPERMQ, VPERMPD: qword i is the qword of the source that imm8[2i+1:2i] names (R166, R168). -/
def IndexedQwordsComplete (form : RegNum → RM → Byte → Instr) : Prop :=
  ∀ d rm imm, FormCompletes .avx2 256 8 (form d rm imm) d fun _ src r =>
    HasElems 64 4 (fun i => elem 64 src (imm.extractLsb' (2 * i) 2).toNat) r

/-- VPERM2I128, VPERM2F128: half i is 0 if imm8[4i+3], else the half that imm8[4i+1:4i] names among the four (R176). -/
def HalvesComplete (f : Feature) (form : RegNum → RegNum → RM → Byte → Instr) : Prop :=
  ∀ d v rm imm, FormCompletes f 256 16 (form d v rm imm) d fun s src r =>
    HasElems 128 2
      (fun i =>
        if imm.getLsbD (4 * i + 3) then 0
        else elem 128 (if imm.getLsbD (4 * i + 1) then src else s.readYmm v) (imm.getLsbD (4 * i)).toNat) r

/-- VPERMILPD, variable: bit 1 of control qword i picks within the lane of two qwords (R180). -/
def InLaneQwordsByVector (W n : Nat) (form : RegNum → RegNum → RM → Instr) : Prop :=
  ∀ d v rm, FormCompletes .avx W 8 (form d v rm) d fun s ctl r =>
    HasElems 64 n (fun i => elem 64 (s.readYmm v) (2 * (i / 2) + (ctl.getLsbD (64 * i + 1)).toNat)) r

/-- VPERMILPD, immediate: imm8[i] picks within the lane of two qwords (R180). -/
def InLaneQwordsByImmediate (W n : Nat) (form : RegNum → RM → Byte → Instr) : Prop :=
  ∀ d rm imm, FormCompletes .avx W 8 (form d rm imm) d fun _ src r =>
    HasElems 64 n (fun i => elem 64 src (2 * (i / 2) + (imm.getLsbD i).toNat)) r

/-- VPERMILPS, variable: bits 1:0 of control dword i pick within the lane of four dwords (R185). -/
def InLaneDwordsByVector (W n : Nat) (form : RegNum → RegNum → RM → Instr) : Prop :=
  ∀ d v rm, FormCompletes .avx W 4 (form d v rm) d fun s ctl r =>
    HasElems 32 n (fun i => elem 32 (s.readYmm v) (4 * (i / 4) + (ctl.extractLsb' (32 * i) 2).toNat)) r

/-- VPERMILPS, immediate: field i mod 4 of imm8 picks within the lane of four dwords (R185). -/
def InLaneDwordsByImmediate (W n : Nat) (form : RegNum → RM → Byte → Instr) : Prop :=
  ∀ d rm imm, FormCompletes .avx W 4 (form d rm imm) d fun _ src r =>
    HasElems 32 n (fun i => elem 32 src (4 * (i / 4) + (imm.extractLsb' (2 * (i % 4)) 2).toNat)) r

/-- VPSLLVD, VPSLLVQ: element i of the first source times 2 to the count i, cut to the element's width, or 0 if the count is the
width or more (R215). -/
def VariableShiftCompletes (vexW : BitVec 1) (W w n : Nat) (form : RegNum → RegNum → RM → Instr) : Prop :=
  ∀ d v rm, OperandPlacement (form d v rm) 0x47 vexW d v rm ∧ FormCompletes .avx2 W (w / 8) (form d v rm) d fun s cnt r =>
    HasElems w n
      (fun i =>
        if (elem w cnt i).toNat < w then BitVec.ofNat w ((elem w (s.readYmm v) i).toNat * 2 ^ (elem w cnt i).toNat) else 0) r

/-- What a masked store has stored, a masked load of the same address under the same mask reads back; masked-off elements of
the result are 0 (R67, R131, R132). -/
def StoreThenLoadReturns (W w : Nat) (store : Mem → RegNum → RegNum → Instr) (load : RegNum → RegNum → Mem → Instr) : Prop :=
  ∀ m m' v src d s t u, s.mem.wf = true → exec (store m v src) s = .next t → exec (load d v m') t = .next u →
    effAddr m' (load d v m').length t = effAddr m (store m v src).length s →
    HasElems w (W / w) (fun i => if maskBit w (s.readYmm v) i then elem w (s.readYmm src) i else 0) (u.readYmm d)

/-! ### Instructions by kind -/

/-- The CPUID feature flag of a form (R2, R100). -/
def featureOf : Instr → Feature
  | .vinsertf128 .. | .vperm2f128 .. => .avx
  | .vmaskmovpsLoad128 .. | .vmaskmovpsLoad256 .. | .vmaskmovpdLoad128 .. | .vmaskmovpdLoad256 .. => .avx
  | .vmaskmovpsStore128 .. | .vmaskmovpsStore256 .. | .vmaskmovpdStore128 .. | .vmaskmovpdStore256 .. => .avx
  | .vpermilpdVar128 .. | .vpermilpdVar256 .. | .vpermilpdImm128 .. | .vpermilpdImm256 .. => .avx
  | .vpermilpsVar128 .. | .vpermilpsImm128 .. | .vpermilpsVar256 .. | .vpermilpsImm256 .. => .avx
  | .vinserti128 .. | .vpblendd128 .. | .vpblendd256 .. | .vbroadcasti128 .. => .avx2
  | .vpbroadcastb128 .. | .vpbroadcastb256 .. | .vpbroadcastw128 .. | .vpbroadcastw256 .. => .avx2
  | .vpbroadcastd128 .. | .vpbroadcastd256 .. | .vpbroadcastq128 .. | .vpbroadcastq256 .. => .avx2
  | .vpermd .. | .vpermpd .. | .vpermps .. | .vpermq .. | .vperm2i128 .. => .avx2
  | .vpmaskmovdLoad128 .. | .vpmaskmovdLoad256 .. | .vpmaskmovqLoad128 .. | .vpmaskmovqLoad256 .. => .avx2
  | .vpmaskmovdStore128 .. | .vpmaskmovdStore256 .. | .vpmaskmovqStore128 .. | .vpmaskmovqStore256 .. => .avx2
  | .vpsllvd128 .. | .vpsllvq128 .. | .vpsllvd256 .. | .vpsllvq256 .. => .avx2

/-- A masked move: its vector length, element width, mask register, memory operand and kind of access (R52, R57). -/
structure MaskedMove where
  W : Nat
  w : Nat
  v : RegNum
  m : Mem
  kind : AccessKind

/-- The sixteen masked moves (R52, R57). -/
def maskedMoveOf : Instr → Option MaskedMove
  | .vmaskmovpsLoad128 _ v m | .vpmaskmovdLoad128 _ v m => some ⟨128, 32, v, m, .read⟩
  | .vmaskmovpsLoad256 _ v m | .vpmaskmovdLoad256 _ v m => some ⟨256, 32, v, m, .read⟩
  | .vmaskmovpdLoad128 _ v m | .vpmaskmovqLoad128 _ v m => some ⟨128, 64, v, m, .read⟩
  | .vmaskmovpdLoad256 _ v m | .vpmaskmovqLoad256 _ v m => some ⟨256, 64, v, m, .read⟩
  | .vmaskmovpsStore128 m v _ | .vpmaskmovdStore128 m v _ => some ⟨128, 32, v, m, .write⟩
  | .vmaskmovpsStore256 m v _ | .vpmaskmovdStore256 m v _ => some ⟨256, 32, v, m, .write⟩
  | .vmaskmovpdStore128 m v _ | .vpmaskmovqStore128 m v _ => some ⟨128, 64, v, m, .write⟩
  | .vmaskmovpdStore256 m v _ | .vpmaskmovqStore256 m v _ => some ⟨256, 64, v, m, .write⟩
  | _ => none

/-- The eight forms that write memory: the masked stores (R52). -/
def isStore (i : Instr) : Bool :=
  match maskedMoveOf i with
  | some k => k.kind = .write
  | none => false

/-- The bytes of memory that a form with a memory operand spans; a masked move touches at most these (R52). -/
def operandBytes : Instr → Nat
  | .vinsertf128 .. | .vinserti128 .. | .vbroadcasti128 .. | .vpblendd128 .. => 16
  | .vpbroadcastb128 .. | .vpbroadcastb256 .. => 1
  | .vpbroadcastw128 .. | .vpbroadcastw256 .. => 2
  | .vpbroadcastd128 .. | .vpbroadcastd256 .. => 4
  | .vpbroadcastq128 .. | .vpbroadcastq256 .. => 8
  | .vpblendd256 .. | .vpermd .. | .vpermps .. | .vpermpd .. | .vpermq .. | .vperm2i128 .. | .vperm2f128 .. => 32
  | .vpermilpdVar128 .. | .vpermilpdImm128 .. | .vpermilpsVar128 .. | .vpermilpsImm128 .. => 16
  | .vpermilpdVar256 .. | .vpermilpdImm256 .. | .vpermilpsVar256 .. | .vpermilpsImm256 .. => 32
  | .vpsllvd128 .. | .vpsllvq128 .. => 16
  | .vpsllvd256 .. | .vpsllvq256 .. => 32
  | .vmaskmovpsLoad128 .. | .vmaskmovpdLoad128 .. | .vmaskmovpsStore128 .. | .vmaskmovpdStore128 .. => 16
  | .vpmaskmovdLoad128 .. | .vpmaskmovqLoad128 .. | .vpmaskmovdStore128 .. | .vpmaskmovqStore128 .. => 16
  | .vmaskmovpsLoad256 .. | .vmaskmovpdLoad256 .. | .vmaskmovpsStore256 .. | .vmaskmovpdStore256 .. => 32
  | .vpmaskmovdLoad256 .. | .vpmaskmovqLoad256 .. | .vpmaskmovdStore256 .. | .vpmaskmovqStore256 .. => 32

/-- The effective address of a masked move (R93). -/
def MaskedMove.ea (k : MaskedMove) (s : State) : Word := effAddr k.m (formLength (.mem k.m) false) s

/-- Element `i` is enabled: its mask bit is 1 (R130). -/
abbrev MaskedMove.enabled (k : MaskedMove) (s : State) (i : Nat) : Prop := i < k.W / k.w ∧ maskBit k.w (s.readYmm k.v) i = true

/-- Element `i`'s access is admitted by `Accessible` (R59). -/
abbrev MaskedMove.admitted (k : MaskedMove) (s : State) (i : Nat) : Prop :=
  s.launch.accessible (elemAddr (k.ea s) k.w i) (k.w / 8) k.kind = true

/-- The EA range has a byte in a region declared I/O or un-cached (R64, R264). -/
abbrev MaskedMove.atDevice (k : MaskedMove) (s : State) : Prop := touches s.launch.isDevice (k.ea s) (k.W / 8) = true

/-- Element `i` has a byte in the program text (R70). -/
abbrev MaskedMove.elemInText (k : MaskedMove) (s : State) (i : Nat) : Prop :=
  touches s.launch.inText (elemAddr (k.ea s) k.w i) (k.w / 8) = true

/-- The launch premises `plain_memory` and `text_immutable` for this access: no address the move can touch is I/O or un-cached,
and no enabled element of a store overlaps the text (R267). -/
abbrev MaskedMove.plain (k : MaskedMove) (s : State) : Prop :=
  ¬k.atDevice s ∧ ∀ i < k.W / k.w, k.enabled s i → k.kind = .write → ¬k.elemInText s i

/-- Everything but memory is as it was (R60, R240). -/
def SameButMemory (s t : State) : Prop :=
  t.ymm = s.ymm ∧ t.gpr = s.gpr ∧ t.rip = s.rip ∧ t.ripCarry = s.ripCarry ∧ t.rflags = s.rflags ∧ t.mxcsr = s.mxcsr ∧ t.launch = s.launch ∧
    t.draws = s.draws

/-! ### The decode keys as the spec numbers them -/

/-- One row of opcode_table.json as the spec prints it: `match`, `mask`, and whether `mod` must name memory (R96). -/
structure TableKey where
  pattern : BitVec 32
  mask : BitVec 32
  memOnly : Bool
  deriving DecidableEq, Repr

/-- The decode key K: the first four bytes, the one at the lowest address most significant (R96). -/
def decodeKey (p1 p2 op : Byte) : BitVec 32 := 0xC4#8 ++ p1 ++ p2 ++ op

/-- The row matches K and `mod` (R96). -/
def TableKey.hits (t : TableKey) (k : BitVec 32) (md : BitVec 2) : Bool :=
  k &&& t.mask = t.pattern && (!t.memOnly || md ≠ 0b11#2)

/-- Rows 1 to 12. -/
def tableKeys1to12 : List TableKey := [
    ⟨0xC4030518#32, 0xFF1F87FF#32, false⟩,
    ⟨0xC4030538#32, 0xFF1F87FF#32, false⟩,
    ⟨0xC402012C#32, 0xFF1F87FF#32, true⟩,
    ⟨0xC402052C#32, 0xFF1F87FF#32, true⟩,
    ⟨0xC402012D#32, 0xFF1F87FF#32, true⟩,
    ⟨0xC402052D#32, 0xFF1F87FF#32, true⟩,
    ⟨0xC402012E#32, 0xFF1F87FF#32, true⟩,
    ⟨0xC402052E#32, 0xFF1F87FF#32, true⟩,
    ⟨0xC402012F#32, 0xFF1F87FF#32, true⟩,
    ⟨0xC402052F#32, 0xFF1F87FF#32, true⟩,
    ⟨0xC4030102#32, 0xFF1F87FF#32, false⟩,
    ⟨0xC4030502#32, 0xFF1F87FF#32, false⟩]

/-- Rows 13 to 26. -/
def tableKeys13to26 : List TableKey := [
    ⟨0xC4027978#32, 0xFF1FFFFF#32, false⟩,
    ⟨0xC4027D78#32, 0xFF1FFFFF#32, false⟩,
    ⟨0xC4027979#32, 0xFF1FFFFF#32, false⟩,
    ⟨0xC4027D79#32, 0xFF1FFFFF#32, false⟩,
    ⟨0xC4027958#32, 0xFF1FFFFF#32, false⟩,
    ⟨0xC4027D58#32, 0xFF1FFFFF#32, false⟩,
    ⟨0xC4027959#32, 0xFF1FFFFF#32, false⟩,
    ⟨0xC4027D59#32, 0xFF1FFFFF#32, false⟩,
    ⟨0xC4027D5A#32, 0xFF1FFFFF#32, true⟩,
    ⟨0xC4020536#32, 0xFF1F87FF#32, false⟩,
    ⟨0xC403FD01#32, 0xFF1FFFFF#32, false⟩,
    ⟨0xC4020516#32, 0xFF1F87FF#32, false⟩,
    ⟨0xC403FD00#32, 0xFF1FFFFF#32, false⟩,
    ⟨0xC4030546#32, 0xFF1F87FF#32, false⟩]

/-- Rows 27 to 35. -/
def tableKeys27to35 : List TableKey := [
    ⟨0xC402010D#32, 0xFF1F87FF#32, false⟩,
    ⟨0xC402050D#32, 0xFF1F87FF#32, false⟩,
    ⟨0xC4037905#32, 0xFF1FFFFF#32, false⟩,
    ⟨0xC4037D05#32, 0xFF1FFFFF#32, false⟩,
    ⟨0xC402010C#32, 0xFF1F87FF#32, false⟩,
    ⟨0xC4037904#32, 0xFF1FFFFF#32, false⟩,
    ⟨0xC402050C#32, 0xFF1F87FF#32, false⟩,
    ⟨0xC4037D04#32, 0xFF1FFFFF#32, false⟩,
    ⟨0xC4030506#32, 0xFF1F87FF#32, false⟩]

/-- Rows 36 to 47. -/
def tableKeys36to47 : List TableKey := [
    ⟨0xC402018C#32, 0xFF1F87FF#32, true⟩,
    ⟨0xC402058C#32, 0xFF1F87FF#32, true⟩,
    ⟨0xC402818C#32, 0xFF1F87FF#32, true⟩,
    ⟨0xC402858C#32, 0xFF1F87FF#32, true⟩,
    ⟨0xC402018E#32, 0xFF1F87FF#32, true⟩,
    ⟨0xC402058E#32, 0xFF1F87FF#32, true⟩,
    ⟨0xC402818E#32, 0xFF1F87FF#32, true⟩,
    ⟨0xC402858E#32, 0xFF1F87FF#32, true⟩,
    ⟨0xC4020147#32, 0xFF1F87FF#32, false⟩,
    ⟨0xC4028147#32, 0xFF1F87FF#32, false⟩,
    ⟨0xC4020547#32, 0xFF1F87FF#32, false⟩,
    ⟨0xC4028547#32, 0xFF1F87FF#32, false⟩]

/-- The 47 rows of opcode_table.json, in its order (R100). -/
def tableKeys : List TableKey := tableKeys1to12 ++ tableKeys13to26 ++ tableKeys27to35 ++ tableKeys36to47

/-- The opcode byte of K is one of 78h, 79h, 58h, 59h (R101 U-d, U-e). -/
def keyIsVpbroadcast (k : BitVec 32) : Bool :=
  k.extractLsb' 0 8 = 0x78#8 || k.extractLsb' 0 8 = 0x79#8 || k.extractLsb' 0 8 = 0x58#8 || k.extractLsb' 0 8 = 0x59#8

/-- K has map 0F38 and `pp` = 01b (R101 U-d, U-e). -/
def keyIsMap38 (k : BitVec 32) : Bool :=
  k.extractLsb' 24 8 = 0xC4#8 && k.extractLsb' 16 5 = 0b00010#5 && k.extractLsb' 8 2 = 0b01#2

/-- The rows of R101 as the spec prints them: on K and `mod`. -/
def udKeyHits (k : BitVec 32) (md : BitVec 2) : UdRow → Bool
  | .vinserti128L0 => k &&& 0xFF1F87FF#32 = 0xC4030138#32
  | .vbroadcasti128Reg => k &&& 0xFF1F87FF#32 = 0xC402055A#32 && md = 0b11#2
  | .vbroadcasti128L0 => k &&& 0xFF1F87FF#32 = 0xC402015A#32
  | .broadcastVvvv =>
      keyIsMap38 k && (keyIsVpbroadcast k || k.extractLsb' 0 8 = 0x5A#8) && k.extractLsb' 11 4 ≠ 0b1111#4
  | .vpbroadcastW1 => keyIsMap38 k && keyIsVpbroadcast k && k.extractLsb' 15 1 = 1#1
  | .vpermdL0 => k &&& 0xFF1F87FF#32 = 0xC4020136#32
  | .vpermpdL0 => k &&& 0xFF1F87FF#32 = 0xC4038101#32
  | .vpermpsL0 => k &&& 0xFF1F87FF#32 = 0xC4020116#32
  | .vpermqL0 => k &&& 0xFF1F87FF#32 = 0xC4038100#32

/-! ### Runs -/

/-- The state a fault hands over (R240). -/
def Fault.after : Fault → State
  | .ud t => t
  | .memFault _ _ _ t => t
  | .ac t => t

/-- The same fault, with only the state it hands over changed. -/
def Fault.mapState (g : State → State) : Fault → Fault
  | .ud t => .ud (g t)
  | .memFault a n kind t => .memFault a n kind (g t)
  | .ac t => .ac (g t)

/-- The text is inside the address space and `rip` is the address of one of its bytes: there is something to fetch (R261, R263). -/
abbrev State.AtText (s : State) : Prop :=
  s.launch.textFits = true ∧ s.launch.textBase.toNat ≤ s.ripNat ∧ s.ripNat < s.launch.textEnd

/-- The invariant of a run: memory in canonical form, `has_AVX2` only with `has_AVX`, the text inside the address space and
fetchable, and `rip` in the text or at its end (R33, R261, R263, R267; log entry 4). -/
abbrev State.Inv (s : State) : Prop :=
  s.mem.wf = true ∧ (s.launch.hasAVX2 = true → s.launch.hasAVX = true) ∧
    s.launch.textFits = true ∧ s.launch.textFetchable = true ∧
    s.launch.textBase.toNat ≤ s.ripNat ∧ s.ripNat ≤ s.launch.textEnd

/-- The run is complete: `rip = rip0 + L` (R263). -/
def State.completed (s : State) : Prop := s.ripNat = s.launch.textEnd

end Sys2Proof.Machine
end

