-- ==== Sys2Proof/Certificates/Slice0/Obligations.lean ====
section
/-! DEFINITION. The statements for the provers, in the order of OBLIGATIONS.json: reset, encoding, the step and runs,
results and frames, faults and refusals, relations between forms, and operands and launches. -/

section

open Sys2Proof Sys2Proof.Machine

/-! ### Reset -/

/-- The reset state meets the invariant of a run, and its run is complete: no program is loaded (the model's choice, log
entries 2 and 17). -/
def Obligations.ResetMeetsInvariant : Prop :=
  State.reset.Inv ∧ State.reset.completed ∧ step State.reset = .refused .runComplete

/-- The values after reset are the family's or the model's: the spec states none (log entries 2, 3, 4). -/
def Obligations.ResetValues : Prop :=
  (∀ r, State.reset.readYmm r = 0 ∧ State.reset.readGpr r = 0) ∧
    State.reset.rip = 0xFFFFFFF0#64 ∧ State.reset.rflags = 2#64 ∧ State.reset.mxcsr = 0x1F80#32 ∧
    ∀ a : Nat, State.reset.mem.read a = 0

/-! ### Encoding -/

/-- Every well-formed instruction, with every operand at every value, is what the decoder reads from its encoding, whatever
bytes follow (R82 to R105). The encoder writes an ignored VEX bit as 0 (log entry 19). -/
def Obligations.DecodeOfEncode : Prop :=
  ∀ (i : Instr) (rest : List Byte), i.wf = true → decode (encode i ++ rest) = .instr i rest

/-- The encoding of an instruction has the length that R97 gives, 5 to 11 bytes. -/
def Obligations.EncodingLength : Prop :=
  ∀ i : Instr, (encode i).length = i.length ∧ 5 ≤ i.length ∧ i.length ≤ 11

/-- What the decoder reads is well formed, takes exactly its length of the bytes, and does not depend on the bytes after it
(R97, R105). -/
def Obligations.DecodeConsumesLength : Prop :=
  ∀ (bytes : List Byte) (i : Instr) (rest : List Byte), decode bytes = .instr i rest →
    i.wf = true ∧ ∃ taken, bytes = taken ++ rest ∧ taken.length = i.length ∧
      ∀ other, decode (taken ++ other) = .instr i other

/-- A text that ends inside an instruction gives no verdict on it: every proper initial part of an encoding is truncated
(R263). -/
def Obligations.ProperInitialPartIsTruncated : Prop :=
  ∀ (i : Instr) (n : Nat), i.wf = true → n < i.length → decode ((encode i).take n) = .truncated

/-- The table has 47 rows, no two of them match one encoding, and no encoding of R101 matches a row (R96, R100, R101). -/
def Obligations.RowsAreDisjoint : Prop :=
  opcodeTable.length = 47 ∧
    (∀ v op md, opcodeTable.Pairwise fun a b => ¬(a.matches v op md = true ∧ b.matches v op md = true)) ∧
    ∀ v op md, ∀ u, UdRow.hit v op md u = true → ∀ row ∈ opcodeTable, row.matches v op md = false

/-- The decoder's rows are the spec's: row by row the same decode keys K and `mod` as `match`, `mask` and the `mod` constraint
of opcode_table.json (R96, R100). -/
def Obligations.RowsMatchDecodeKeys : Prop :=
  opcodeTable.length = tableKeys.length ∧
    ∀ p ∈ opcodeTable.zip tableKeys, ∀ p1 p2 op md,
      p.1.matches (Vex.ofBytes p1 p2) op md = p.2.hits (decodeKey p1 p2 op) md

/-- The encodings that the decoder gives #UD are exactly those of the nine rows of R101, by K and `mod`; none of them matches a row
of the opcode table; and the machine that meets one raises #UD (R101, R105). That no other encoding is given #UD rests on R102, the
spec's decision D6, and is the model's choice where R102 leaves one (log entry 16); that five bytes are fetched is log entry 15. -/
def Obligations.UdEncodings : Prop :=
  ∀ (p1 p2 op modrm : Byte) (tail : List Byte),
    ((∃ row, decode (0xC4 :: p1 :: p2 :: op :: modrm :: tail) = .ud row) ↔
      ∃ row, udKeyHits (decodeKey p1 p2 op) (modrm.extractLsb' 6 2) row = true) ∧
    (∀ row, decode (0xC4 :: p1 :: p2 :: op :: modrm :: tail) = .ud row →
      udKeyHits (decodeKey p1 p2 op) (modrm.extractLsb' 6 2) row = true) ∧
    ∀ row, udKeyHits (decodeKey p1 p2 op) (modrm.extractLsb' 6 2) row = true →
      (∀ t ∈ tableKeys, t.hits (decodeKey p1 p2 op) (modrm.extractLsb' 6 2) = false) ∧
        ∀ s : State, s.AtText → fetchWindow s = 0xC4 :: p1 :: p2 :: op :: modrm :: tail → s.launch.accessible s.rip 5 .fetch = true →
          step s = .fault (.ud s)

/-- Words written out from the spec's examples decode to the instructions they stand for. -/
def Obligations.WrittenOutWordsDecode : Prop :=
  decode [0xC4, 0xE3, 0x6D, 0x18, 0xCB, 0x01] = .instr (.vinsertf128 1 2 (.reg 3) 1) [] ∧
    decode [0xC4, 0xE2, 0x71, 0x2C, 0x07] = .instr (.vmaskmovpsLoad128 0 1 (.base 7 .d0)) [] ∧
    decode [0xC4, 0xE3, 0x69, 0x02, 0xCB, 0x05] = .instr (.vpblendd128 1 2 (.reg 3) 5) [] ∧
    decode [0xC4, 0xE2, 0x7D, 0x5A, 0x10] = .instr (.vbroadcasti128 2 (.base 0 .d0)) [] ∧
    decode [0xC4, 0xE3, 0xFD, 0x01, 0xC1, 0x1B] = .instr (.vpermpd 0 (.reg 1) 0x1B) [] ∧
    decode [0xC4, 0x62, 0x35, 0x47, 0x44, 0x88, 0x10] = .instr (.vpsllvd256 8 9 (.mem (.sib 0 (some 1) 2 (.d8 0x10)))) [] ∧
    decode [0xC4, 0xE2, 0x75, 0x47, 0x05, 0x20, 0, 0, 0] = .instr (.vpsllvd256 0 1 (.mem (.ripRel 0x20))) []

/-- `mod` = 11b selects the register alternative and any other `mod` the memory alternative; the memory-only forms are listed
with memory only, and VBROADCASTI128 with a register source is #UD (R91). -/
def Obligations.ModSelectsRegisterOrMemory : Prop :=
  (∀ (p1 p2 op modrm : Byte) (tail rest : List Byte) (i : Instr),
    decode (0xC4 :: p1 :: p2 :: op :: modrm :: tail) = .instr i rest →
      ((∃ r, i.rm = .reg r) ↔ modrm.extractLsb' 6 2 = 0b11#2) ∧
      ((maskedMoveOf i).isSome = true ∨ (∃ d m, i = .vbroadcasti128 d m) → modrm.extractLsb' 6 2 ≠ 0b11#2)) ∧
    ∀ (p1 p2 modrm : Byte) (tail : List Byte), (Vex.ofBytes p1 p2).hasKey 0x5A ⟨.m0F38, 0, 1, 0x5A⟩ = true →
      modrm.extractLsb' 6 2 = 0b11#2 → ∃ row, decode (0xC4 :: p1 :: p2 :: 0x5A :: modrm :: tail) = .ud row

/-- Bytes that are not of this spec are refused, never run: another first byte than C4h, and every encoding that is neither in
the table nor in R101 (R83, R98, R102; the spec's decision D6, log entry 16). -/
def Obligations.ForeignEncodingsRefused : Prop :=
  (∀ (b : Byte) (tail : List Byte), b ≠ 0xC4 → decode (b :: tail) = .foreign (foreignFirst b)) ∧
    (∀ (p1 p2 op modrm : Byte) (tail : List Byte),
      (∀ row, udKeyHits (decodeKey p1 p2 op) (modrm.extractLsb' 6 2) row = false) →
      (∀ t ∈ tableKeys, t.hits (decodeKey p1 p2 op) (modrm.extractLsb' 6 2) = false) →
      decode (0xC4 :: p1 :: p2 :: op :: modrm :: tail) = .foreign (.unlisted (decodeKey p1 p2 op))) ∧
    ∀ (s : State) (why : Foreign), s.AtText → decode (fetchWindow s) = .foreign why →
      s.launch.accessible s.rip why.bytesRead .fetch = true → step s = .refused (.notOfSpec why)

/-- A word of the opcode table, placed where the next instruction is fetched, is run by the next step (log entry 17). -/
def Obligations.TableWordRuns : Prop :=
  ∀ (s : State) (nbits w : Nat) (i : Instr), s.mem.wf = true → s.rip.toNat + 11 ≤ 2 ^ 64 →
    decodeTableWord nbits w = some i → step (s.withFetchWord nbits w) = exec i (s.withFetchWord nbits w)

/-! ### The step and runs -/

/-- A step runs the decoded instruction: where the text bytes at `rip` decode to an instruction whose bytes may be fetched, the
step is that instruction's meaning, and the instruction is well formed (R105). -/
def Obligations.StepRunsDecodedInstruction : Prop :=
  ∀ (s : State) (i : Instr) (rest : List Byte), s.AtText → decode (fetchWindow s) = .instr i rest →
    s.launch.accessible s.rip i.length .fetch = true → i.wf = true ∧ step s = exec i s

/-- A step runs the instruction whose encoding lies in the text at `rip` (R51, R105, R263). -/
def Obligations.StepRunsEncodedText : Prop :=
  ∀ (s : State) (i : Instr), i.wf = true → s.AtText → s.ripNat + i.length ≤ s.launch.textEnd →
    s.mem.readBytes s.rip i.length = encode i → s.launch.accessible s.rip i.length .fetch = true → step s = exec i s

/-- A completed step ran the one instruction its text bytes decode to; `rip` has moved past exactly its bytes and has not left
the text (R25, R263). Its place is on the line 0 to 2^64, whose last point is the end of a text that reaches the top (the model's
choice, log entry 18). -/
def Obligations.RipAdvancesByLength : Prop :=
  ∀ s t : State, step s = .next t →
    ∃ i rest, decode (fetchWindow s) = .instr i rest ∧ exec i s = .next t ∧ t.rip = s.rip + BitVec.ofNat 64 i.length ∧
      t.ripNat = s.ripNat + i.length ∧ t.ripNat ≤ t.launch.textEnd

/-- Every step from a state that meets the invariant gives a state that meets it: memory in canonical form, `has_AVX2` only with
`has_AVX`, the text inside the address space and fetchable, `rip` in the text or at its end (R33, R261, R263, R267). -/
def Obligations.StepKeepsInvariant : Prop :=
  ∀ s t : State, s.Inv → step s = .next t → t.Inv

/-- No step changes a general register, the flags register, MXCSR or a launch parameter; the draw counter moves on by one
(R24, R27, R28, R33; log entry 13). -/
def Obligations.StepKeepsControlState : Prop :=
  ∀ s t : State, step s = .next t →
    t.gpr = s.gpr ∧ t.rflags = s.rflags ∧ t.mxcsr = s.mxcsr ∧ t.launch = s.launch ∧ t.draws = s.draws + 1

/-- Only the eight MVR rows write memory, and they write no register; every other form writes at most the vector register in
ModRM:reg (R22, R52). -/
def Obligations.StoresWriteMemoryOthersOneRegister : Prop :=
  ∀ (i : Instr) (s t : State), exec i s = .next t →
    (isStore i = true → t.ymm = s.ymm) ∧
      (isStore i = false → t.mem = s.mem ∧ ∀ r, r ≠ i.encoding.reg → t.readYmm r = s.readYmm r)

/-- No run changes a byte of its own text: the text is immutable (R70, R261; the spec's decision D23). -/
def Obligations.RunsNeverWriteText : Prop :=
  ∀ (k : Nat) (s t : State), s.Inv → Host.Core.run Sys2Proof.core k s = .next t →
    t.launch = s.launch ∧ ∀ a : Word, s.launch.inText a = true → t.mem.read a.toNat = s.mem.read a.toNat

/-- Every run of k steps moves `rip` on by at least 5k bytes of the text and never past its end, so no run hangs (R97, R263;
the spec's decision D15). -/
def Obligations.RunsEndWithinText : Prop :=
  ∀ (k : Nat) (s t : State), s.Inv → Host.Core.run Sys2Proof.core k s = .next t →
    s.ripNat + 5 * k ≤ t.ripNat ∧ t.ripNat ≤ s.launch.textEnd

/-- MXCSR influences nothing: a step from a state with another MXCSR has the same outcome, a fault with all that it reports
included, and MXCSR as it was in the state it gives or hands over (R28, R236). Both runs draw the same free values (the model's choice, log
entry 13). -/
def Obligations.MxcsrInfluencesNothing : Prop :=
  ∀ (s : State) (c : BitVec 32),
    (∀ t, step s = .next t → step { s with mxcsr := c } = .next { t with mxcsr := c }) ∧
      (∀ r, step s = .refused r → step { s with mxcsr := c } = .refused r) ∧
      ∀ r, step s = .fault r → step { s with mxcsr := c } = .fault (r.mapState fun t => { t with mxcsr := c })

/-- Of the flags register only AC, bit 18, can influence a step, a fault with all that it reports included (R27). Both runs draw the
same free values (the model's choice, log entry 13). -/
def Obligations.OnlyAcFlagInfluences : Prop :=
  ∀ (s : State) (f : BitVec 64), f.getLsbD 18 = s.rflags.getLsbD 18 →
    (∀ t, step s = .next t → step { s with rflags := f } = .next { t with rflags := f }) ∧
      (∀ r, step s = .refused r → step { s with rflags := f } = .refused r) ∧
      ∀ r, step s = .fault r → step { s with rflags := f } = .fault (r.mapState fun t => { t with rflags := f })

/-- The bounds of a text: one that would cross the top of the address space is refused (R26, R261); else at `rip0 + L` there is
nothing to execute, before `rip0` and beyond `rip0 + L` is outside the text, and where the rest of the text is a proper initial part
of an instruction the launch is refused (R263; the spec's decisions D14, D15, log entry 18). -/
def Obligations.EndOfTextRefused : Prop :=
  ∀ s : State,
    (2 ^ 64 < s.launch.textBase.toNat + s.launch.textLen → step s = .refused .textWraps) ∧
      (s.launch.textBase.toNat + s.launch.textLen ≤ 2 ^ 64 →
        (s.completed → step s = .refused .runComplete) ∧
          (s.ripNat < s.launch.textBase.toNat ∨ s.launch.textEnd < s.ripNat → step s = .refused .outsideText) ∧
          ∀ (i : Instr) (n : Nat), i.wf = true → 0 < n → n < i.length → s.launch.textBase.toNat ≤ s.ripNat →
            s.ripNat + n = s.launch.textEnd → s.mem.readBytes s.rip n = (encode i).take n →
            step s = .refused .textEndsInside)

/-! ### Results and frames -/

/-- VINSERTF128 and VINSERTI128 complete with the half that imm8[0] names replaced by the 128-bit source and the other half from
the first source; they differ in opcode byte and feature flag only (R120 to R122, R22). A memory source's value is the model's read of
it, which OperandValuesByteByByte states byte by byte (its byte order is the spec's decision D4, log entry 20). The frame and the
advance of `rip` are R25 and R27 (the spec's decision D14); the draw counter and the carry of `rip` are the model's own (log entries
13, 18). -/
def Obligations.InsertsComplete : Prop :=
  InsertCompletes .avx 0x18 .vinsertf128 ∧ InsertCompletes .avx2 0x38 .vinserti128

/-- VPBLENDD completes with dword i from the second source where imm8[i] is 1 and from the first source where it is 0, upper half
of a VEX.128 destination zero (R145 to R147; which source a clear bit selects is the spec's decision D19). -/
def Obligations.BlendsComplete : Prop :=
  BlendCompletes 128 4 .vpblendd128 ∧ BlendCompletes 256 8 .vpblendd256

/-- The VEX.128 forms of VPBROADCASTB/W/D/Q complete with copies of the lowest element in bits 127:0 and zero above (R150; the zeroing
is the spec's decision D5). -/
def Obligations.Broadcasts128Complete : Prop :=
  BroadcastCompletes 8 16 .vpbroadcastb128 ∧ BroadcastCompletes 16 8 .vpbroadcastw128 ∧
    BroadcastCompletes 32 4 .vpbroadcastd128 ∧ BroadcastCompletes 64 2 .vpbroadcastq128

/-- The 256-bit broadcasts complete with every element of the destination equal to the source element (R150, R152, R154, R156, R158,
R159). -/
def Obligations.Broadcasts256Complete : Prop :=
  BroadcastCompletes 8 32 .vpbroadcastb256 ∧ BroadcastCompletes 16 16 .vpbroadcastw256 ∧
    BroadcastCompletes 32 8 .vpbroadcastd256 ∧ BroadcastCompletes 64 4 .vpbroadcastq256 ∧
    ∀ d m, FormCompletes .avx2 128 16 (.vbroadcasti128 d m) d fun _ src r => HasElems 128 2 (fun _ => src) r

/-- VPERMD and VPERMPS complete with dword i taken from the r/m source at the index in bits 2:0 of index dword i (R165, R167; the index
width is the spec's decision D18). -/
def Obligations.DwordPermutesComplete : Prop :=
  IndexedDwordsComplete .vpermd ∧ IndexedDwordsComplete .vpermps

/-- VPERMQ and VPERMPD complete with qword i taken from the source at index imm8[2i+1:2i] (R166, R168; the field order is the spec's
decision D18). -/
def Obligations.QwordPermutesComplete : Prop :=
  IndexedQwordsComplete .vpermq ∧ IndexedQwordsComplete .vpermpd

/-- VPERM2I128 and VPERM2F128 complete with each half zero or one of the four source halves, as its nibble of imm8 says (R176, the spec's
decision D18). -/
def Obligations.HalfPermutesComplete : Prop :=
  HalvesComplete .avx2 .vperm2i128 ∧ HalvesComplete .avx .vperm2f128

/-- The four forms of VPERMILPD complete with each qword chosen within its own 128-bit lane, upper half of a VEX.128 destination zero
(R180 to R184, the spec's decisions D5, D18, D20). -/
def Obligations.InLaneQwordPermutesComplete : Prop :=
  InLaneQwordsByVector 128 2 .vpermilpdVar128 ∧ InLaneQwordsByVector 256 4 .vpermilpdVar256 ∧
    InLaneQwordsByImmediate 128 2 .vpermilpdImm128 ∧ InLaneQwordsByImmediate 256 4 .vpermilpdImm256

/-- The four forms of VPERMILPS complete with each dword chosen within its own 128-bit lane, upper half of a VEX.128 destination zero
(R185 to R189, the spec's decisions D5, D18). -/
def Obligations.InLaneDwordPermutesComplete : Prop :=
  InLaneDwordsByVector 128 4 .vpermilpsVar128 ∧ InLaneDwordsByVector 256 8 .vpermilpsVar256 ∧
    InLaneDwordsByImmediate 128 4 .vpermilpsImm128 ∧ InLaneDwordsByImmediate 256 8 .vpermilpsImm256

/-- VPSLLVD and VPSLLVQ complete with each element of the first source shifted left by its own unsigned count, 0 for a count of the
element's width or more, upper half of a VEX.128 destination zero; VEX.W tells dwords from qwords (R215 to R219). The destination may
be a source (R22, the spec's decision D21). A memory source's value is the model's read of it, which OperandValuesByteByByte states byte
by byte (its byte order is the spec's decision D4, log entry 20). The frame and the advance of `rip` are R25 and R27 (the spec's
decision D14); the draw counter and the carry of `rip` are the model's own (log entries 13, 18). -/
def Obligations.VariableShiftsComplete : Prop :=
  VariableShiftCompletes 0 128 32 4 .vpsllvd128 ∧ VariableShiftCompletes 1 128 64 2 .vpsllvq128 ∧
    VariableShiftCompletes 0 256 32 8 .vpsllvd256 ∧ VariableShiftCompletes 1 256 64 4 .vpsllvq256

/-- The four load forms of VMASKMOVPS and VMASKMOVPD complete with enabled elements loaded, masked-off elements 0, nothing else changed
(R130, R131, R133 to R136; byte order and upper zeroing are the spec's decisions D4, D5). -/
def Obligations.MaskedFloatLoadsComplete : Prop :=
  MaskedLoadCompletes .avx 128 32 .vmaskmovpsLoad128 ∧ MaskedLoadCompletes .avx 256 32 .vmaskmovpsLoad256 ∧
    MaskedLoadCompletes .avx 128 64 .vmaskmovpdLoad128 ∧ MaskedLoadCompletes .avx 256 64 .vmaskmovpdLoad256

/-- The same for the four load forms of VPMASKMOVD and VPMASKMOVQ (R200 to R204). -/
def Obligations.MaskedIntegerLoadsComplete : Prop :=
  MaskedLoadCompletes .avx2 128 32 .vpmaskmovdLoad128 ∧ MaskedLoadCompletes .avx2 256 32 .vpmaskmovdLoad256 ∧
    MaskedLoadCompletes .avx2 128 64 .vpmaskmovqLoad128 ∧ MaskedLoadCompletes .avx2 256 64 .vpmaskmovqLoad256

/-- The four store forms of VMASKMOVPS and VMASKMOVPD complete with enabled elements stored at `EA + i*w/8` and every other byte of memory
and every register unchanged (R130, R132, R137 to R140; byte order is the spec's decision D4). -/
def Obligations.MaskedFloatStoresComplete : Prop :=
  MaskedStoreCompletes .avx 128 32 .vmaskmovpsStore128 ∧ MaskedStoreCompletes .avx 256 32 .vmaskmovpsStore256 ∧
    MaskedStoreCompletes .avx 128 64 .vmaskmovpdStore128 ∧ MaskedStoreCompletes .avx 256 64 .vmaskmovpdStore256

/-- The same for the four store forms of VPMASKMOVD and VPMASKMOVQ (R200, R205 to R208). -/
def Obligations.MaskedIntegerStoresComplete : Prop :=
  MaskedStoreCompletes .avx2 128 32 .vpmaskmovdStore128 ∧ MaskedStoreCompletes .avx2 256 32 .vpmaskmovdStore256 ∧
    MaskedStoreCompletes .avx2 128 64 .vpmaskmovqStore128 ∧ MaskedStoreCompletes .avx2 256 64 .vpmaskmovqStore256

/-! ### Faults and refusals -/

/-- A form whose feature parameter is false raises #UD before any operand is accessed, in whatever state (R233, the spec's decision
D13). -/
def Obligations.MissingFeatureRaisesUd : Prop :=
  ∀ (i : Instr) (s : State), s.hasFeature (featureOf i) = false → exec i s = .fault (.ud s)

/-- An encoding of R101 whose bytes may be fetched raises #UD and leaves the whole state as it was, and so its operand is never
accessed (R231). That five bytes are fetched is the model's reading (log entry 15). -/
def Obligations.UdEncodingRaisesUd : Prop :=
  ∀ (s : State) (row : UdRow), s.AtText → decode (fetchWindow s) = .ud row →
    s.launch.accessible s.rip 5 .fetch = true → step s = .fault (.ud s)

/-- #UD arises only from an encoding of R101 or from a missing feature, and leaves the whole state as it was (R231, R233). That unlisted
encodings are refused and not given #UD is the spec's decision D6 (R102, log entry 16). -/
def Obligations.UdOnlyFromEncodingOrFeature : Prop :=
  ∀ s t : State, step s = .fault (.ud t) →
    t = s ∧
      ((∃ row, decode (fetchWindow s) = .ud row) ∨
        ∃ i rest, decode (fetchWindow s) = .instr i rest ∧ s.hasFeature (featureOf i) = false)

/-- Bytes at `rip` that the decoder reads as an instruction, as an encoding of R101 or as an unlisted encoding, and that may not be
fetched, raise the memory fault of the fetch: before every other exception, the #UD of the encoding and the decoder's refusal
(R58, R238). How many bytes are fetched of an encoding that is no instruction, and that a cut text is refused first, is the model's
choice (log entry 15). -/
def Obligations.FetchFaultComesFirst : Prop :=
  ∀ s : State, s.AtText →
    (∀ i rest, decode (fetchWindow s) = .instr i rest → s.launch.accessible s.rip i.length .fetch = false →
      step s = .fault (.memFault s.rip i.length .fetch s)) ∧
    (∀ row, decode (fetchWindow s) = .ud row → s.launch.accessible s.rip 5 .fetch = false →
      step s = .fault (.memFault s.rip 5 .fetch s)) ∧
    ∀ why, decode (fetchWindow s) = .foreign why → s.launch.accessible s.rip why.bytesRead .fetch = false →
      step s = .fault (.memFault s.rip why.bytesRead .fetch s)

/-- Every fault of a step is precise: all registers, `rip` included, are those before the instruction, and memory is unchanged but
for the memory fault of a store (R60, R240, R241). That #AC of a masked store leaves memory unchanged is the model's choice (log entry
23). -/
def Obligations.FaultsArePrecise : Prop :=
  ∀ (s : State) (r : Fault), step s = .fault r →
    SameButMemory s r.after ∧ ((∀ a n, r ≠ .memFault a n .write r.after) → r.after = s)

/-- A masked move faults iff an enabled element is inaccessible; with an all-zero mask it completes for every EA: a load writes zero, a
store changes nothing (R59). Premises: the feature, no alignment checking, and the launch premises of R267 for the access (no I/O or
un-cached memory in the EA range, no enabled element of a store in the text). -/
def Obligations.MaskedMovesFaultOnlyForEnabledElements : Prop :=
  ∀ (i : Instr) (k : MaskedMove) (s : State), maskedMoveOf i = some k → s.hasFeature (featureOf i) = true →
    s.alignmentChecking = false → k.plain s →
    ((∃ a n kind t, exec i s = .fault (.memFault a n kind t)) ↔ ∃ j < k.W / k.w, k.enabled s j ∧ ¬k.admitted s j) ∧
    ((∀ j < k.W / k.w, ¬k.enabled s j) →
      ∃ t, exec i s = .next t ∧ t.mem = s.mem ∧
        if isStore i then t.ymm = s.ymm
        else t.readYmm i.encoding.reg = 0 ∧ ∀ r, r ≠ i.encoding.reg → t.readYmm r = s.readYmm r)

/-- A faulting masked move reports an enabled inaccessible element: its address, its w/8 bytes, read for a load and write for a store.
A load leaves the whole state as it was. After a store each enabled accessible element's memory holds its old value or the new one,
and every other byte is unchanged (R60, R131, R132, the spec's decision D11). -/
def Obligations.FaultingStoreLeavesOldOrNewElements : Prop :=
  ∀ (i : Instr) (k : MaskedMove) (s t : State) (a : Word) (n : Nat) (kind : AccessKind),
    maskedMoveOf i = some k → exec i s = .fault (.memFault a n kind t) →
    SameButMemory s t ∧
      (∃ j, k.enabled s j ∧ ¬k.admitted s j ∧ a = elemAddr (k.ea s) k.w j ∧ n = k.w / 8 ∧
        kind = if isStore i then .write else .read) ∧
      (isStore i = false → t = s) ∧
      (isStore i = true → s.mem.wf = true →
        (∀ j, k.enabled s j → k.admitted s j →
          (∀ b < k.w / 8, t.mem.read (elemByteAddr (k.ea s) k.w j b) = s.mem.read (elemByteAddr (k.ea s) k.w j b)) ∨
            ∀ b < k.w / 8,
              t.mem.read (elemByteAddr (k.ea s) k.w j b) = elem 8 (elem k.w (s.readYmm i.encoding.reg) j) b) ∧
        ∀ c : Nat,
          (∀ j, k.enabled s j → k.admitted s j → ∀ b < k.w / 8, c ≠ elemByteAddr (k.ea s) k.w j b) →
          t.mem.read c = s.mem.read c)

/-- A masked move whose EA range has a byte in a region declared I/O or un-cached is refused, whatever its mask (R64, R264; that it is
refused at the step, and that one byte of the range is enough, is log entry 9). -/
def Obligations.MaskedDeviceAccessRefused : Prop :=
  ∀ (i : Instr) (k : MaskedMove) (s : State), maskedMoveOf i = some k → s.hasFeature (featureOf i) = true → k.atDevice s →
    exec i s = .refused .maskedDeviceAccess

/-- A masked store with an enabled element that overlaps the program text is refused (R70, the spec's decision D23; log entry 9).
Premise: no I/O or un-cached memory in the EA range, which is refused by its own name. -/
def Obligations.StoreToTextRefused : Prop :=
  ∀ (i : Instr) (k : MaskedMove) (s : State) (j : Nat), maskedMoveOf i = some k → isStore i = true →
    s.hasFeature (featureOf i) = true → ¬k.atDevice s → k.enabled s j → k.elemInText s j →
    exec i s = .refused .storeToText

/-- A non-masked form with a memory source reads the whole operand: it faults iff `Accessible` does not admit all of its bytes, reports
the whole operand, and leaves the state as it was (R52, R55, R232). A read that is admitted completes, but for one that touches a
region declared I/O, which the model refuses; that its memory fault comes before that refusal is the model's choice (log entry 10).
Premises: the feature, no alignment checking. -/
def Obligations.WholeOperandReadOrFault : Prop :=
  ∀ (i : Instr) (m : Mem) (s : State), maskedMoveOf i = none → i.rm = .mem m → s.hasFeature (featureOf i) = true →
    s.alignmentChecking = false →
    (s.launch.accessible (effAddr m i.length s) (operandBytes i) .read = false →
      exec i s = .fault (.memFault (effAddr m i.length s) (operandBytes i) .read s)) ∧
    (s.launch.accessible (effAddr m i.length s) (operandBytes i) .read = true →
      (touches s.launch.isIo (effAddr m i.length s) (operandBytes i) = true → exec i s = .refused .ioRead) ∧
        (touches s.launch.isIo (effAddr m i.length s) (operandBytes i) = false → ∃ t, exec i s = .next t))

/-- An operand of a form with a register source is never a fault: such a form completes whenever its feature parameter is true, with
alignment checking or without (R91, R230). -/
def Obligations.RegisterFormsAlwaysComplete : Prop :=
  ∀ (i : Instr) (r : RegNum) (s : State), i.rm = .reg r → s.hasFeature (featureOf i) = true →
    ∃ t, exec i s = .next t ∧ t.mem = s.mem

/-- Alignment-check reporting of a masked move does not depend on the mask: with alignment checking enabled and a misaligned EA, #AC
is reported with one content of the vector registers exactly if it is with any other, also with an all-zero mask; without
alignment checking it is reported with none (R54, R234). That it hands over an unchanged memory is the model's choice (log entry 23).
Premises: the feature, the launch premises of R267 for the access. -/
def Obligations.AlignmentReportIgnoresMask : Prop :=
  ∀ (i : Instr) (k : MaskedMove) (s : State) (y : Vector Ymm 16), maskedMoveOf i = some k → s.hasFeature (featureOf i) = true →
    k.plain s → k.plain { s with ymm := y } →
    (exec i s = .fault (.ac s) ↔ exec i { s with ymm := y } = .fault (.ac { s with ymm := y })) ∧
      (s.alignmentChecking = false → ∀ t, exec i s ≠ .fault (.ac t))

/-- Without alignment checking no step raises #AC, and with it no step does whose memory operand, if it has one, lies at a multiple of
16 (R53, R54, R234; which element size counts is log entry 7). -/
def Obligations.AlignmentFaultNeedsCheckingAndMisalignment : Prop :=
  ∀ s : State,
    (s.alignmentChecking = false ∨
      ∀ i rest m, decode (fetchWindow s) = .instr i rest → i.rm = .mem m → (effAddr m i.length s).toNat % 16 = 0) →
    ∀ t, step s ≠ .fault (.ac t)

/-! ### Relations between forms -/

/-- What a masked store stores, a masked load of the same address under the same mask reads back (R67, R131, R132). -/
def Obligations.MaskedLoadReadsMaskedStore : Prop :=
  (StoreThenLoadReturns 128 32 .vmaskmovpsStore128 .vmaskmovpsLoad128 ∧
    StoreThenLoadReturns 256 32 .vmaskmovpsStore256 .vmaskmovpsLoad256 ∧
    StoreThenLoadReturns 128 64 .vmaskmovpdStore128 .vmaskmovpdLoad128 ∧
    StoreThenLoadReturns 256 64 .vmaskmovpdStore256 .vmaskmovpdLoad256) ∧
  StoreThenLoadReturns 128 32 .vpmaskmovdStore128 .vpmaskmovdLoad128 ∧
    StoreThenLoadReturns 256 32 .vpmaskmovdStore256 .vpmaskmovdLoad256 ∧
    StoreThenLoadReturns 128 64 .vpmaskmovqStore128 .vpmaskmovqLoad128 ∧
    StoreThenLoadReturns 256 64 .vpmaskmovqStore256 .vpmaskmovqLoad256

/-- `Accessible` is monotone: it holds of every sub-range of a range, and of the union of two adjacent ranges (R58). -/
def Obligations.AccessibleIsMonotone : Prop :=
  ∀ (l : Launch) (a : Word) (n : Nat) (kind : AccessKind),
    (l.accessible a n kind = true → ∀ j m, j + m ≤ n → l.accessible (byteAddr a j) m kind = true) ∧
      ∀ m, l.accessible a n kind = true → l.accessible (byteAddr a n) m kind = true → l.accessible a (n + m) kind = true

/-- Pairs of forms that differ in name and opcode only compute the same function, where both features are present (R120, R166, R167,
R195, R200). Both runs draw the same free values (the model's choice, log entry 13). -/
def Obligations.TwinFormsAgree : Prop :=
  ∀ s : State, s.launch.hasAVX = true → s.launch.hasAVX2 = true →
    (∀ d v rm imm, exec (.vinsertf128 d v rm imm) s = exec (.vinserti128 d v rm imm) s ∧
      exec (.vperm2f128 d v rm imm) s = exec (.vperm2i128 d v rm imm) s) ∧
    (∀ d v rm, exec (.vpermps d v rm) s = exec (.vpermd d v rm) s) ∧
    (∀ d rm imm, exec (.vpermpd d rm imm) s = exec (.vpermq d rm imm) s) ∧
    (∀ d v m, exec (.vmaskmovpsLoad128 d v m) s = exec (.vpmaskmovdLoad128 d v m) s ∧
      exec (.vmaskmovpsLoad256 d v m) s = exec (.vpmaskmovdLoad256 d v m) s ∧
      exec (.vmaskmovpdLoad128 d v m) s = exec (.vpmaskmovqLoad128 d v m) s ∧
      exec (.vmaskmovpdLoad256 d v m) s = exec (.vpmaskmovqLoad256 d v m) s) ∧
    ∀ m v src, exec (.vmaskmovpsStore128 m v src) s = exec (.vpmaskmovdStore128 m v src) s ∧
      exec (.vmaskmovpsStore256 m v src) s = exec (.vpmaskmovdStore256 m v src) s ∧
      exec (.vmaskmovpdStore128 m v src) s = exec (.vpmaskmovqStore128 m v src) s ∧
      exec (.vmaskmovpdStore256 m v src) s = exec (.vpmaskmovqStore256 m v src) s

/-- Ignored immediate bits change nothing (R94; the ignored bits of VPBLENDD, VPERM2x128 and VPERMILPD are the spec's decision D18 and
general knowledge). -/
def Obligations.IgnoredImmediateBits : Prop :=
  ∀ (d v : RegNum) (rm : RM) (a b : Byte) (s : State),
    (a.getLsbD 0 = b.getLsbD 0 → exec (.vinsertf128 d v rm a) s = exec (.vinsertf128 d v rm b) s ∧
      exec (.vinserti128 d v rm a) s = exec (.vinserti128 d v rm b) s) ∧
    ((∀ j < 4, a.getLsbD j = b.getLsbD j) → exec (.vpblendd128 d v rm a) s = exec (.vpblendd128 d v rm b) s) ∧
    ((∀ j < 8, j ≠ 2 → j ≠ 6 → a.getLsbD j = b.getLsbD j) →
      exec (.vperm2i128 d v rm a) s = exec (.vperm2i128 d v rm b) s ∧
        exec (.vperm2f128 d v rm a) s = exec (.vperm2f128 d v rm b) s) ∧
    ((∀ j < 2, a.getLsbD j = b.getLsbD j) → exec (.vpermilpdImm128 d rm a) s = exec (.vpermilpdImm128 d rm b) s) ∧
    ((∀ j < 4, a.getLsbD j = b.getLsbD j) → exec (.vpermilpdImm256 d rm a) s = exec (.vpermilpdImm256 d rm b) s)

/-! ### Operands and launches -/

/-- The effective address of each addressing shape, over the integers and modulo 2^64: base + displacement; the address of the next
instruction + displacement; base + index * scale + displacement; index * scale + displacement. Displacements are signed, "no index"
counts 0 (R89, R90, R93; the shapes are the spec's decision D7). -/
def Obligations.EffectiveAddresses : Prop :=
  ∀ (s : State) (len : Nat) (b : RegNum) (index : Option RegNum) (scale : BitVec 2) (d : Disp) (d32 : BitVec 32),
    ((effAddr (.base b d) len s).toNat : Int) = (gprInt s b + dispInt d) % 2 ^ 64 ∧
      ((effAddr (.ripRel d32) len s).toNat : Int) = (s.rip.toNat + len + d32.toInt) % 2 ^ 64 ∧
      ((effAddr (.sib b index scale d) len s).toNat : Int) = (gprInt s b + indexInt s index scale + dispInt d) % 2 ^ 64 ∧
      ((effAddr (.sibNoBase index scale d32) len s).toNat : Int) = (indexInt s index scale + d32.toInt) % 2 ^ 64

/-- The value of a source operand, byte by byte: byte k of a memory operand is the byte of memory at EA + k, addresses modulo 2^64, and
bit j of a register operand is bit j of the register; element i of a value is its bits w*i to w*i + w-1 and its mask bit the highest of
them; byte k of element i of a masked move's operand lies at EA + i*w/8 + k (R7, R50, R57, R72, R91, R130; the byte order is the spec's
decision D4). -/
def Obligations.OperandValuesByteByByte : Prop :=
  (∀ (W len k : Nat) (m : Mem) (s : State), k < W / 8 →
    elem 8 (sourceValue W (.mem m) len s) k = s.mem.read (((effAddr m len s).toNat + k) % 2 ^ 64)) ∧
  (∀ (W len j : Nat) (r : RegNum) (s : State), j < W → W ≤ 256 →
    (sourceValue W (.reg r) len s).getLsbD j = (s.ymm[r.toNat]'r.isLt).getLsbD j) ∧
  (∀ (W w i j : Nat) (x : BitVec W), j < w → (elem w x i).getLsbD j = x.getLsbD (w * i + j)) ∧
  (∀ (W w i : Nat) (x : BitVec W), 0 < w → maskBit w x i = x.getLsbD (w * i + w - 1)) ∧
  ∀ (ea : Word) (w i k : Nat), elemByteAddr ea w i k = (ea.toNat + i * (w / 8) + k) % 2 ^ 64

/-- A text loaded at `rip` is in memory byte for byte, every other byte is as before, and the state meets the invariant of a run: text
inside the address space and fetchable, `rip` at its beginning (R261; the loading itself is the model's, log entry 17). -/
def Obligations.LoadedTextMeetsInvariant : Prop :=
  ∀ (s : State) (text : List Byte), s.mem.wf = true → (s.launch.hasAVX2 = true → s.launch.hasAVX = true) →
    s.rip.toNat + text.length ≤ 2 ^ 64 →
    (loadText s text).Inv ∧ (loadText s text).ripNat = s.rip.toNat ∧
      (∀ k < text.length, (loadText s text).mem.read (s.rip.toNat + k) = text.getD k 0) ∧
      ∀ a : Nat, (a < s.rip.toNat ∨ s.rip.toNat + text.length ≤ a) → (loadText s text).mem.read a = s.mem.read a

/-- `text_immutable`: no launch admits a write to a range that holds a byte of the text, and a step from a state that meets the invariant
of a run, whose text is fetchable, raises no memory fault of the fetch (R261, R267). -/
def Obligations.TextFetchableNeverWritable : Prop :=
  (∀ (l : Launch) (a : Word) (n : Nat), touches l.inText a n = true → l.accessible a n .write = false) ∧
    ∀ (s t : State) (a : Word) (n : Nat), s.Inv → step s ≠ .fault (.memFault a n .fetch t)

end
end

