-- ==== Sys2Proof/Laws/Decode.lean ====
section
/-! SUPPORT. The pieces of an encoding, taken apart and put together once: VEX fields, ModRM and SIB fields, displacements,
the ModRM:r/m operand, and the rows a prefix and opcode byte select. -/

namespace Sys2Proof

/-! ### Bytes and their fields -/

theorem p1_fields : ∀ (r x b : BitVec 1) (m : BitVec 5),
    ~~~(((~~~r) ++ (~~~x) ++ (~~~b) ++ m : Byte).extractLsb' 7 1) = r ∧
      ~~~(((~~~r) ++ (~~~x) ++ (~~~b) ++ m : Byte).extractLsb' 6 1) = x ∧
      ~~~(((~~~r) ++ (~~~x) ++ (~~~b) ++ m : Byte).extractLsb' 5 1) = b ∧
      ((~~~r) ++ (~~~x) ++ (~~~b) ++ m : Byte).extractLsb' 0 5 = m := by decide

theorem p2_fields : ∀ (w : BitVec 1) (v : BitVec 4) (l : BitVec 1) (p : BitVec 2),
    (w ++ (~~~v) ++ l ++ p : Byte).extractLsb' 7 1 = w ∧ ~~~((w ++ (~~~v) ++ l ++ p : Byte).extractLsb' 3 4) = v ∧
      (w ++ (~~~v) ++ l ++ p : Byte).extractLsb' 2 1 = l ∧ (w ++ (~~~v) ++ l ++ p : Byte).extractLsb' 0 2 = p := by decide

/-- The three fields of a ModRM or SIB byte (R88, R89). -/
theorem byte_233 : ∀ (a : BitVec 2) (b c : BitVec 3),
    (a ++ b ++ c : Byte).extractLsb' 6 2 = a ∧ (a ++ b ++ c : Byte).extractLsb' 3 3 = b ∧
      (a ++ b ++ c : Byte).extractLsb' 0 3 = c := by decide

/-- Writing and reading a VEX prefix (R82). -/
theorem Vex.ofBytes_p1_p2 (v : Vex) : Vex.ofBytes v.p1 v.p2 = v := by
  obtain ⟨h1, h2, h3, h4⟩ := p1_fields v.r v.x v.b v.mmmmm
  obtain ⟨h5, h6, h7, h8⟩ := p2_fields v.w v.vvvv v.l v.pp
  cases v
  simp_all [Vex.ofBytes, Vex.p1, Vex.p2]

theorem RegNum.high_append_low : ∀ r : RegNum, r.high ++ r.low = r := by decide

/-- The index number of a SIB byte reads back as the index (R89). -/
theorem sibIndex_indexNumber {index : Option RegNum} (h : Mem.indexOk index = true) : sibIndex (indexNumber index) = index := by
  cases index with
  | none => rfl
  | some n =>
    have : n ≠ 4#4 := fun e => by simp [Mem.indexOk, e] at h
    simp [sibIndex, indexNumber, this]

/-! ### Displacements -/

theorem takeDisp32_bytes (d : BitVec 32) (rest : List Byte) : takeDisp32 (disp32Bytes d ++ rest) = some (d, rest) := by
  have h : d.extractLsb' 24 8 ++ d.extractLsb' 16 8 ++ d.extractLsb' 8 8 ++ d.extractLsb' 0 8 = d := by
    apply BitVec.eq_of_getLsbD_eq
    intro i hi
    simp only [BitVec.getLsbD_append, BitVec.getLsbD_extractLsb']
    by_cases h1 : i < 8
    · simp [h1]
    · by_cases h2 : i < 16
      · simp [h1, show i - 8 < 8 by omega, show 8 + (i - 8) = i by omega]
      · by_cases h3 : i < 24
        · simp [h1, show ¬i - 8 < 8 by omega, show i - 8 - 8 < 8 by omega, show 16 + (i - 8 - 8) = i by omega]
        · simp [h1, show ¬i - 8 < 8 by omega, show ¬i - 8 - 8 < 8 by omega, show i - 8 - 8 - 8 < 8 by omega,
            show 24 + (i - 8 - 8 - 8) = i by omega]
  simp [disp32Bytes, takeDisp32, h]

theorem takeDisp_bytes (d : Disp) (rest : List Byte) : takeDisp d.md (d.bytes ++ rest) = some (d, rest) := by
  cases d with
  | d0 => rfl
  | d8 b => rfl
  | d32 b => simp [takeDisp, Disp.md, Disp.bytes, takeDisp32_bytes]

theorem Disp.md_ne_register (d : Disp) : d.md ≠ 0b11#2 := by cases d <;> simp [Disp.md]

theorem Disp.md_zero {d : Disp} (h : d.md = 0b00#2) : d = .d0 := by cases d <;> simp_all [Disp.md]

@[simp] theorem disp32Bytes_length (d : BitVec 32) : (disp32Bytes d).length = 4 := rfl

@[simp] theorem Disp.bytes_length (d : Disp) : d.bytes.length = d.size := by cases d <;> rfl

/-- The bytes after ModRM are as many as R97 counts. -/
theorem RM.encode_tail_length (rm : RM) : rm.encode.tail.length = rm.size := by
  cases rm with
  | reg r => rfl
  | mem m => cases m <;> simp [RM.encode, RM.size, Nat.add_comm]

/-- The displacement taken accounts for the bytes it took (R90, R97). -/
theorem takeDisp32_eq_some {bytes rest : List Byte} {d : BitVec 32} (h : takeDisp32 bytes = some (d, rest)) :
    bytes = bytes.take 4 ++ rest ∧ 4 ≤ bytes.length := by
  match bytes, h with
  | b0 :: b1 :: b2 :: b3 :: tail, h =>
    simp only [takeDisp32, Option.some.injEq, Prod.mk.injEq] at h
    simp [h.2]

/-! ### The ModRM:r/m operand -/

/-- Reading back an operand that a well-formed instruction wrote (R88 to R93). -/
theorem decodeRM_encode (v : Vex) (rm : RM) (rest : List Byte) (h : rm.wf = true) (hx : v.x = rm.encode.x)
    (hb : v.b = rm.encode.b) : decodeRM v rm.encode.md rm.encode.rm (rm.encode.tail ++ rest) = some (rm, rest) := by
  cases rm with
  | reg r =>
    rw [RM.encode] at hb
    simp [decodeRM, RM.encode, hb, RegNum.high_append_low]
  | mem m =>
    cases m with
    | base b d =>
      simp only [RM.encode] at hb
      simp only [RM.wf, Mem.wf, Mem.baseDispOk, Bool.and_eq_true, Bool.or_eq_true, decide_eq_true_eq] at h
      have h5 : ¬(b.low = 0b101#3 ∧ d.md = 0b00#2) := by
        rintro ⟨e1, e2⟩
        rcases h.2 with h | h
        · exact h (Disp.md_zero e2)
        · exact h e1
      have hc : ¬(decide (b.low = 0b101#3) && decide (d.md = 0b00#2)) = true := by simpa using h5
      change decodeRM v d.md b.low (d.bytes ++ rest) = _
      unfold decodeRM
      rw [if_neg d.md_ne_register, if_neg h.1, if_neg hc, takeDisp_bytes, hb, Option.map_some, RegNum.high_append_low]
    | ripRel d =>
      simp only [decodeRM, RM.encode, takeDisp32_bytes]
      rfl
    | sib b index scale d =>
      simp only [RM.encode] at hb hx
      simp only [RM.wf, Mem.wf, Mem.baseDispOk, Bool.and_eq_true, Bool.or_eq_true, decide_eq_true_eq] at h
      have h5 : ¬(b.low = 0b101#3 ∧ d.md = 0b00#2) := by
        rintro ⟨e1, e2⟩
        rcases h.2 with h | h
        · exact h (Disp.md_zero e2)
        · exact h e1
      obtain ⟨f1, f2, f3⟩ := byte_233 scale (indexNumber index).low b.low
      have hc : ¬(decide (b.low = 0b101#3) && decide (d.md = 0b00#2)) = true := by simpa using h5
      change decodeRM v d.md 0b100#3 (sibByte scale (indexNumber index) b.low :: (d.bytes ++ rest)) = _
      unfold decodeRM
      rw [if_neg d.md_ne_register, if_pos rfl]
      simp only [decodeSib, sibByte, f1, f2, f3]
      rw [if_neg hc, takeDisp_bytes, hb, hx, RegNum.high_append_low, RegNum.high_append_low, sibIndex_indexNumber h.1]
      rfl
    | sibNoBase index scale d =>
      simp only [RM.encode] at hx
      simp only [RM.wf, Mem.wf] at h
      obtain ⟨f1, f2, f3⟩ := byte_233 scale (indexNumber index).low 0b101#3
      simp only [decodeRM, RM.encode, List.cons_append, decodeSib, sibByte, f1, f2, f3, hx, RegNum.high_append_low,
        sibIndex_indexNumber h, takeDisp32_bytes]
      rfl

/-! ### Keys -/

/-- A prefix and opcode byte carry one key only (R96). -/
theorem Vex.hasKey_unique {v : Vex} {op : Byte} {k k' : OpKey} (h : v.hasKey op k = true) (h' : v.hasKey op k' = true) : k = k' := by
  simp only [Vex.hasKey, Bool.and_eq_true, decide_eq_true_eq] at h h'
  obtain ⟨⟨⟨⟨a1, _⟩, a2⟩, a3⟩, a4⟩ := h
  obtain ⟨⟨⟨⟨b1, _⟩, b2⟩, b3⟩, b4⟩ := h'
  cases k with
  | mk m w l o =>
    cases k' with
    | mk m' w' l' o' =>
      simp only at *
      have hm : m = m' := by
        rw [a1] at b1
        cases m <;> cases m' <;> first | rfl | (exact absurd b1 (by decide))
      subst hm
      simp_all

/-- The prefix of an encoding carries its key (R81, R82). -/
theorem Encoding.hasKey (e : Encoding) : e.vex.hasKey e.key.op e.key = true := by
  simp [Vex.hasKey, Encoding.vex]

/-- The ModRM fields of an encoding (R88). -/
theorem Encoding.modrm_fields (e : Encoding) :
    e.modrm.extractLsb' 6 2 = e.rm.encode.md ∧ e.modrm.extractLsb' 3 3 = e.reg.low ∧ e.modrm.extractLsb' 0 3 = e.rm.encode.rm :=
  byte_233 _ _ _

/-- The length of an encoding (R85, R97). -/
theorem Encoding.bytes_length (e : Encoding) : e.bytes.length = formLength e.rm e.imm.isSome := by
  rw [Encoding.bytes, List.length_append, List.length_append, RM.encode_tail_length, formLength]
  cases e.imm <;> simp

end Sys2Proof
end

