-- ==== Sys2Proof/Laws/State.lean ====
section
/-! SUPPORT. The small lemmas of the state: one per field per update, and reading a register after writing one. -/

namespace Sys2Proof.Machine

/-! ### `writeYmm` -/

@[simp] theorem State.writeYmm_gpr (s : State) (r : RegNum) (v : Ymm) : (s.writeYmm r v).gpr = s.gpr := rfl
@[simp] theorem State.writeYmm_rip (s : State) (r : RegNum) (v : Ymm) : (s.writeYmm r v).rip = s.rip := rfl
@[simp] theorem State.writeYmm_ripCarry (s : State) (r : RegNum) (v : Ymm) : (s.writeYmm r v).ripCarry = s.ripCarry := rfl
@[simp] theorem State.writeYmm_rflags (s : State) (r : RegNum) (v : Ymm) : (s.writeYmm r v).rflags = s.rflags := rfl
@[simp] theorem State.writeYmm_mxcsr (s : State) (r : RegNum) (v : Ymm) : (s.writeYmm r v).mxcsr = s.mxcsr := rfl
@[simp] theorem State.writeYmm_mem (s : State) (r : RegNum) (v : Ymm) : (s.writeYmm r v).mem = s.mem := rfl
@[simp] theorem State.writeYmm_launch (s : State) (r : RegNum) (v : Ymm) : (s.writeYmm r v).launch = s.launch := rfl
@[simp] theorem State.writeYmm_draws (s : State) (r : RegNum) (v : Ymm) : (s.writeYmm r v).draws = s.draws := rfl

@[simp] theorem State.readYmm_writeYmm_same (s : State) (r : RegNum) (v : Ymm) : (s.writeYmm r v).readYmm r = v := by
  simp [State.readYmm, State.writeYmm]

theorem State.readYmm_writeYmm_other (s : State) {r q : RegNum} (v : Ymm) (h : q ≠ r) :
    (s.writeYmm r v).readYmm q = s.readYmm q := by
  have : r.toNat ≠ q.toNat := fun e => h (BitVec.eq_of_toNat_eq e.symm)
  simp [State.readYmm, State.writeYmm, this]

/-! ### `advance` -/

@[simp] theorem State.advance_ymm (s : State) (n : Nat) : (s.advance n).ymm = s.ymm := rfl
@[simp] theorem State.advance_gpr (s : State) (n : Nat) : (s.advance n).gpr = s.gpr := rfl
@[simp] theorem State.advance_rip (s : State) (n : Nat) : (s.advance n).rip = s.rip + BitVec.ofNat 64 n := rfl
@[simp] theorem State.advance_ripCarry (s : State) (n : Nat) :
    (s.advance n).ripCarry = decide (2 ^ 64 ≤ s.rip.toNat + n) := rfl
@[simp] theorem State.advance_rflags (s : State) (n : Nat) : (s.advance n).rflags = s.rflags := rfl
@[simp] theorem State.advance_mxcsr (s : State) (n : Nat) : (s.advance n).mxcsr = s.mxcsr := rfl
@[simp] theorem State.advance_mem (s : State) (n : Nat) : (s.advance n).mem = s.mem := rfl
@[simp] theorem State.advance_launch (s : State) (n : Nat) : (s.advance n).launch = s.launch := rfl
@[simp] theorem State.advance_draws (s : State) (n : Nat) : (s.advance n).draws = s.draws + 1 := rfl
@[simp] theorem State.advance_readYmm (s : State) (n : Nat) (r : RegNum) : (s.advance n).readYmm r = s.readYmm r := rfl

/-! ### `writeBack` -/

variable {W : Nat}

@[simp] theorem State.writeBack_gpr (s : State) (d : RegNum) (v : BitVec W) (n : Nat) : (s.writeBack d v n).gpr = s.gpr := rfl
@[simp] theorem State.writeBack_rip (s : State) (d : RegNum) (v : BitVec W) (n : Nat) :
    (s.writeBack d v n).rip = s.rip + BitVec.ofNat 64 n := rfl
@[simp] theorem State.writeBack_ripCarry (s : State) (d : RegNum) (v : BitVec W) (n : Nat) :
    (s.writeBack d v n).ripCarry = decide (2 ^ 64 ≤ s.rip.toNat + n) := rfl
@[simp] theorem State.writeBack_rflags (s : State) (d : RegNum) (v : BitVec W) (n : Nat) :
    (s.writeBack d v n).rflags = s.rflags := rfl
@[simp] theorem State.writeBack_mxcsr (s : State) (d : RegNum) (v : BitVec W) (n : Nat) :
    (s.writeBack d v n).mxcsr = s.mxcsr := rfl
@[simp] theorem State.writeBack_mem (s : State) (d : RegNum) (v : BitVec W) (n : Nat) : (s.writeBack d v n).mem = s.mem := rfl
@[simp] theorem State.writeBack_launch (s : State) (d : RegNum) (v : BitVec W) (n : Nat) :
    (s.writeBack d v n).launch = s.launch := rfl
@[simp] theorem State.writeBack_draws (s : State) (d : RegNum) (v : BitVec W) (n : Nat) :
    (s.writeBack d v n).draws = s.draws + 1 := rfl

@[simp] theorem State.readYmm_writeBack_same (s : State) (d : RegNum) (v : BitVec W) (n : Nat) :
    (s.writeBack d v n).readYmm d = v.setWidth 256 := by
  simp [State.writeBack, State.writeVec]

theorem State.readYmm_writeBack_other (s : State) {d r : RegNum} (v : BitVec W) (n : Nat) (h : r ≠ d) :
    (s.writeBack d v n).readYmm r = s.readYmm r := by
  simp [State.writeBack, State.writeVec, State.readYmm_writeYmm_other _ _ h]

/-! ### Replacing the memory -/

@[simp] theorem State.withMem_readYmm (s : State) (m : Memory) (r : RegNum) :
    State.readYmm { s with mem := m } r = s.readYmm r := rfl
@[simp] theorem State.withMem_readGpr (s : State) (m : Memory) (r : RegNum) :
    State.readGpr { s with mem := m } r = s.readGpr r := rfl

/-! ### `loadText` -/

@[simp] theorem loadText_ymm (s : State) (t : List Byte) : (loadText s t).ymm = s.ymm := rfl
@[simp] theorem loadText_gpr (s : State) (t : List Byte) : (loadText s t).gpr = s.gpr := rfl
@[simp] theorem loadText_rip (s : State) (t : List Byte) : (loadText s t).rip = s.rip := rfl
@[simp] theorem loadText_ripCarry (s : State) (t : List Byte) : (loadText s t).ripCarry = false := rfl
@[simp] theorem loadText_rflags (s : State) (t : List Byte) : (loadText s t).rflags = s.rflags := rfl
@[simp] theorem loadText_mxcsr (s : State) (t : List Byte) : (loadText s t).mxcsr = s.mxcsr := rfl
@[simp] theorem loadText_draws (s : State) (t : List Byte) : (loadText s t).draws = s.draws := rfl
@[simp] theorem loadText_ripNat (s : State) (t : List Byte) : (loadText s t).ripNat = s.rip.toNat := by simp [State.ripNat]
@[simp] theorem loadText_mem (s : State) (t : List Byte) : (loadText s t).mem = s.mem.placeBytes s.rip t := rfl
@[simp] theorem loadText_textBase (s : State) (t : List Byte) : (loadText s t).launch.textBase = s.rip := rfl
@[simp] theorem loadText_textLen (s : State) (t : List Byte) : (loadText s t).launch.textLen = t.length := rfl
@[simp] theorem loadText_hasAVX (s : State) (t : List Byte) : (loadText s t).launch.hasAVX = s.launch.hasAVX := rfl
@[simp] theorem loadText_hasAVX2 (s : State) (t : List Byte) : (loadText s t).launch.hasAVX2 = s.launch.hasAVX2 := rfl
@[simp] theorem loadText_alignArmed (s : State) (t : List Byte) :
    (loadText s t).launch.alignArmed = s.launch.alignArmed := rfl
@[simp] theorem loadText_regions (s : State) (t : List Byte) :
    (loadText s t).launch.regions = Region.ofText s.rip t.length :: s.launch.regions := rfl

end Sys2Proof.Machine
end

