-- ==== Sys2Proof/Laws/Elements.lean ====
section
/-! SUPPORT. What the slices of a built value are: the one lemma each vector function is read through. -/

namespace Sys2Proof.Machine

/-- Bit `j` of a built value is bit `j % w` of element `j / w`, and 0 above the last element. -/
theorem getLsbD_build {W w n : Nat} (f : Nat → BitVec w) (hw : 0 < w) (j : Nat) (hj : j < W) :
    (build W w n f).getLsbD j = (decide (j < w * n) && (f (j / w)).getLsbD (j % w)) := by
  induction n with
  | zero => simp [build]
  | succ n ih =>
    rw [build, BitVec.getLsbD_or, ih]
    simp only [BitVec.getLsbD_shiftLeft, BitVec.getLsbD_setWidth, hj, decide_true, Bool.true_and]
    have hs : w * (n + 1) = w * n + w := Nat.mul_succ w n
    by_cases h1 : j < w * n
    · have : j < w * (n + 1) := by omega
      simp [h1, this]
    · by_cases h2 : j < w * (n + 1)
      · have hd : j / w = n := by
          apply Nat.div_eq_of_lt_le <;> rw [Nat.mul_comm] <;> omega
        have hm : j % w = j - w * n := by
          have := Nat.div_add_mod j w
          rw [hd] at this
          omega
        have h3 : j - w * n < W := by omega
        simp [h1, h2, hd, hm, h3]
      · have : w ≤ j - w * n := by omega
        simp [h1, h2, BitVec.getLsbD_of_ge _ _ this]

/-- Element `i` of a built value is the function's value at `i`. -/
theorem elem_build {W w n : Nat} (f : Nat → BitVec w) (hw : 0 < w) {i : Nat} (hi : i < n) (hW : w * n ≤ W) :
    elem w (build W w n f) i = f i := by
  apply BitVec.eq_of_getLsbD_eq
  intro j hj
  have hlt : w * i + j < w * n := by
    have : w * (i + 1) ≤ w * n := Nat.mul_le_mul_left w hi
    rw [Nat.mul_succ] at this
    omega
  have hd : (w * i + j) / w = i := by
    rw [Nat.mul_add_div hw, Nat.div_eq_of_lt hj, Nat.add_zero]
  have hm : (w * i + j) % w = j := by
    rw [Nat.mul_add_mod, Nat.mod_eq_of_lt hj]
  simp only [elem, BitVec.getLsbD_extractLsb', hj, decide_true, Bool.true_and]
  rw [getLsbD_build f hw _ (by omega), hd, hm]
  simp [hlt]

/-- A built value is 0 above its last element. -/
theorem getLsbD_build_high {W w n : Nat} (f : Nat → BitVec w) (hw : 0 < w) {j : Nat} (hj : w * n ≤ j) :
    (build W w n f).getLsbD j = false := by
  by_cases h : j < W
  · rw [getLsbD_build f hw j h]
    simp [Nat.not_lt.mpr hj]
  · exact BitVec.getLsbD_of_ge _ _ (by omega)

/-- A vector's element is unchanged by widening the vector. -/
theorem elem_setWidth_ge {W V : Nat} (w : Nat) (v : BitVec W) (h : W ≤ V) (i : Nat) :
    elem w (v.setWidth V) i = elem w v i := by
  apply BitVec.eq_of_getLsbD_eq
  intro j hj
  simp only [elem, BitVec.getLsbD_extractLsb', BitVec.getLsbD_setWidth, hj, decide_true, Bool.true_and]
  by_cases h2 : w * i + j < V
  · simp [h2]
  · simp [h2, BitVec.getLsbD_of_ge v (w * i + j) (by omega)]

/-- A vector's low elements are unchanged by cutting the vector. -/
theorem elem_setWidth_le {W V : Nat} (w : Nat) (v : BitVec W) {i n : Nat} (hi : i < n) (h : w * n ≤ V) :
    elem w (v.setWidth V) i = elem w v i := by
  apply BitVec.eq_of_getLsbD_eq
  intro j hj
  have hlt : w * i + j < w * n := by
    have : w * (i + 1) ≤ w * n := Nat.mul_le_mul_left w hi
    rw [Nat.mul_succ] at this
    omega
  simp only [elem, BitVec.getLsbD_extractLsb', BitVec.getLsbD_setWidth, hj, decide_true, Bool.true_and]
  simp [show w * i + j < V by omega]

/-- The mask bits of a cut mask are those of the register (R130). -/
theorem maskBit_setWidth {W V : Nat} (w : Nat) (mask : BitVec W) {i n : Nat} (hw : 0 < w) (hi : i < n) (h : w * n ≤ V) :
    maskBit w (mask.setWidth V) i = maskBit w mask i := by
  have hlt : w * i + (w - 1) < w * n := by
    have : w * (i + 1) ≤ w * n := Nat.mul_le_mul_left w hi
    rw [Nat.mul_succ] at this
    omega
  simp [maskBit, show w * i + (w - 1) < V by omega]

/-- An element of a vector is enabled exactly when it is in range and its mask bit is 1. -/
@[simp] theorem mem_enabledElems {W w n i : Nat} (mask : BitVec W) :
    i ∈ enabledElems w n mask ↔ i < n ∧ maskBit w mask i = true := by
  simp [enabledElems]

end Sys2Proof.Machine
end

