-- ==== Sys2Proof/Laws/Memory.lean ====
section
/-! SUPPORT. Memory: read after write, the canonical form and what it is for, and the multi-byte operations. -/

namespace Sys2Proof.Machine

/-! ### The canonical form -/

theorem Memory.wfFrom_mono {m : Memory} {lo lo' : Nat} (h : m.wfFrom lo = true) (hl : lo' ≤ lo) : m.wfFrom lo' = true := by
  cases m with
  | nil => rfl
  | cons p m =>
    obtain ⟨k, b⟩ := p
    simp only [Memory.wfFrom, Bool.and_eq_true, decide_eq_true_eq] at h ⊢
    exact ⟨⟨⟨by omega, h.1.1.2⟩, h.1.2⟩, h.2⟩

/-- Below its first address a canonical memory reads as unlisted. -/
theorem Memory.read_below {m : Memory} {lo a : Nat} (h : m.wfFrom lo = true) (ha : a < lo) : m.read a = Memory.unlisted := by
  induction m generalizing lo with
  | nil => rfl
  | cons p m ih =>
    obtain ⟨k, b⟩ := p
    simp only [Memory.wfFrom, Bool.and_eq_true, decide_eq_true_eq] at h
    rw [Memory.read, if_neg (by omega)]
    exact ih h.2 (by omega)

/-- At the top of the address space and above a canonical memory reads as unlisted. -/
theorem Memory.read_above {m : Memory} {lo a : Nat} (h : m.wfFrom lo = true) (ha : 2 ^ 64 ≤ a) : m.read a = Memory.unlisted := by
  induction m generalizing lo with
  | nil => rfl
  | cons p m ih =>
    obtain ⟨k, b⟩ := p
    simp only [Memory.wfFrom, Bool.and_eq_true, decide_eq_true_eq] at h
    rw [Memory.read, if_neg (by omega)]
    exact ih h.2

theorem Memory.wfFrom_write {m : Memory} {lo a : Nat} (b : Byte) (h : m.wfFrom lo = true) (hlo : lo ≤ a) (ha : a < 2 ^ 64) :
    (m.write a b).wfFrom lo = true := by
  induction m generalizing lo with
  | nil =>
    by_cases hb : b = Memory.unlisted <;> simp [Memory.write, Memory.wfFrom, hb]
    omega
  | cons p m ih =>
    obtain ⟨k, c⟩ := p
    simp only [Memory.wfFrom, Bool.and_eq_true, decide_eq_true_eq] at h
    rw [Memory.write]
    by_cases h1 : a < k
    · by_cases hb : b = Memory.unlisted <;> simp [h1, hb, Memory.wfFrom, h] <;> omega
    · by_cases h2 : a = k
      · subst h2
        by_cases hb : b = Memory.unlisted
        · simp only [h1, hb, if_true, if_false]
          exact Memory.wfFrom_mono h.2 (by omega)
        · simp [hb, Memory.wfFrom, h]
          omega
      · have := ih (lo := k + 1) h.2 (by omega)
        simp only [h1, h2, if_false, Memory.wfFrom, Bool.and_eq_true, decide_eq_true_eq]
        exact ⟨h.1, this⟩

/-- Writing a byte keeps the canonical form. -/
theorem Memory.wf_write {m : Memory} (a : Word) (b : Byte) (h : m.wf = true) : (m.write a.toNat b).wf = true :=
  Memory.wfFrom_write b h (Nat.zero_le _) a.isLt

/-- In a canonical memory, a read after a write sees the byte written at that address and the old byte elsewhere. -/
theorem Memory.read_write {m : Memory} {lo : Nat} (h : m.wfFrom lo = true) (a : Nat) (b : Byte) (c : Nat) :
    (m.write a b).read c = if c = a then b else m.read c := by
  induction m generalizing lo with
  | nil =>
    by_cases hb : b = Memory.unlisted <;> by_cases hc : c = a <;> (simp [Memory.write, Memory.read, hb, hc]; try omega)
  | cons p m ih =>
    obtain ⟨k, d⟩ := p
    simp only [Memory.wfFrom, Bool.and_eq_true, decide_eq_true_eq] at h
    rw [Memory.write]
    by_cases h1 : a < k
    · by_cases hb : b = Memory.unlisted
      · simp only [h1, hb, if_true]
        by_cases hc : c = a
        · subst hc
          rw [if_pos rfl, Memory.read, if_neg (by omega), Memory.read_below h.2 (by omega)]
        · simp [hc]
      · simp only [h1, hb, if_true, if_false]
        by_cases hc : c = a
        · subst hc; simp [Memory.read]
        · simp [Memory.read, hc, Ne.symm hc]
    · by_cases h2 : a = k
      · subst h2
        by_cases hb : b = Memory.unlisted
        · simp only [h1, hb, if_true, if_false]
          by_cases hc : c = a
          · subst hc
            rw [if_pos rfl, Memory.read_below h.2 (by omega)]
          · simp [hc, Memory.read, Ne.symm hc]
        · by_cases hc : c = a
          · subst hc; simp [hb, Memory.read]
          · simp [hb, Memory.read, hc, Ne.symm hc]
      · simp only [h1, h2, if_false, Memory.read]
        by_cases hk : k = c
        · simp [hk, show ¬c = a by omega]
        · rw [if_neg hk, if_neg hk, ih h.2]

/-- Two canonical memories that read alike everywhere are the same list. -/
theorem Memory.wfFrom_ext {m n : Memory} {lo lo' : Nat} (hm : m.wfFrom lo = true) (hn : n.wfFrom lo' = true)
    (h : ∀ a, m.read a = n.read a) : m = n := by
  induction m generalizing lo lo' n with
  | nil =>
    cases n with
    | nil => rfl
    | cons p n =>
      obtain ⟨k, b⟩ := p
      simp only [Memory.wfFrom, Bool.and_eq_true, decide_eq_true_eq] at hn
      have := h k
      simp only [Memory.read, if_true] at this
      exact absurd this.symm hn.1.2
  | cons p m ih =>
    obtain ⟨k, b⟩ := p
    simp only [Memory.wfFrom, Bool.and_eq_true, decide_eq_true_eq] at hm
    cases n with
    | nil =>
      have := h k
      simp only [Memory.read, if_true] at this
      exact absurd this hm.1.2
    | cons q n =>
      obtain ⟨l, c⟩ := q
      simp only [Memory.wfFrom, Bool.and_eq_true, decide_eq_true_eq] at hn
      have hkl : k = l := by
        rcases Nat.lt_trichotomy k l with hlt | heq | hgt
        · have := h k
          rw [Memory.read, if_pos rfl, Memory.read, if_neg (by omega), Memory.read_below hn.2 (by omega)] at this
          exact absurd this hm.1.2
        · exact heq
        · have := h l
          rw [Memory.read, if_neg (by omega), Memory.read, if_pos rfl, Memory.read_below hm.2 (by omega)] at this
          exact absurd this.symm hn.1.2
      subst hkl
      have hb : b = c := by
        have := h k
        simpa [Memory.read] using this
      subst hb
      rw [ih hm.2 hn.2]
      intro a
      by_cases ha : k = a
      · subst ha
        rw [Memory.read_below hm.2 (by omega), Memory.read_below hn.2 (by omega)]
      · have := h a
        simpa [Memory.read, ha] using this

/-! ### Addresses -/

theorem byteAddr_toNat_inj {a : Word} {j k : Nat} (hj : j < 2 ^ 64) (hk : k < 2 ^ 64)
    (h : (byteAddr a j).toNat = (byteAddr a k).toNat) : j = k := by
  have h1 : byteAddr a j = byteAddr a k := BitVec.eq_of_toNat_eq h
  have h2 : BitVec.ofNat 64 j = BitVec.ofNat 64 k := by simpa [byteAddr] using h1
  have := congrArg BitVec.toNat h2
  rwa [BitVec.toNat_ofNat, BitVec.toNat_ofNat, Nat.mod_eq_of_lt hj, Nat.mod_eq_of_lt hk] at this

/-- Byte `k` of element `i` lies `i*w/8 + k` above the operand's address. -/
theorem byteAddr_elemAddr (ea : Word) (w i k : Nat) : byteAddr (elemAddr ea w i) k = byteAddr ea (i * (w / 8) + k) := by
  simp [byteAddr, elemAddr, BitVec.add_assoc, BitVec.ofNat_add]

/-! ### Multi-byte values -/

/-- Byte `k` of a value read from memory is the byte at `a + k` (R50). -/
theorem Memory.elem_readValue (W : Nat) (m : Memory) (a : Word) {k : Nat} (hk : k < W / 8) :
    elem 8 (m.readValue W a) k = m.read (byteAddr a k).toNat :=
  elem_build _ (by decide) hk (by omega)

theorem Memory.wf_writeValue {W : Nat} {m : Memory} (a : Word) (v : BitVec W) (n : Nat) (h : m.wf = true) :
    (m.writeValue a v n).wf = true := by
  induction n with
  | zero => exact h
  | succ n ih => exact Memory.wf_write _ _ ih

/-- A multi-byte store changes no address outside its bytes. -/
theorem Memory.read_writeValue_other {W : Nat} {m : Memory} (a : Word) (v : BitVec W) (n : Nat) (h : m.wf = true) (c : Nat)
    (hc : ∀ k < n, c ≠ (byteAddr a k).toNat) : (m.writeValue a v n).read c = m.read c := by
  induction n with
  | zero => rfl
  | succ n ih =>
    rw [Memory.writeValue, Memory.read_write (Memory.wf_writeValue a v n h), if_neg (hc n (by omega))]
    exact ih fun k hk => hc k (by omega)

/-- A multi-byte store puts byte `k` of the value at `a + k` (R50). -/
theorem Memory.read_writeValue_same {W : Nat} {m : Memory} (a : Word) (v : BitVec W) {n k : Nat} (h : m.wf = true)
    (hn : n ≤ 2 ^ 64) (hk : k < n) : (m.writeValue a v n).read (byteAddr a k).toNat = elem 8 v k := by
  induction n with
  | zero => omega
  | succ n ih =>
    rw [Memory.writeValue, Memory.read_write (Memory.wf_writeValue a v n h)]
    by_cases hkn : k = n
    · simp [hkn]
    · rw [if_neg fun e => hkn (byteAddr_toNat_inj (by omega) (by omega) e)]
      exact ih (by omega) (by omega)

/-! ### Storing elements -/

theorem wf_storeElems {W : Nat} (w : Nat) (chosen : Nat → Bool) (src : BitVec W) (ea : Word) {m : Memory} (n : Nat)
    (h : m.wf = true) : (storeElems w chosen src ea m n).wf = true := by
  induction n with
  | zero => exact h
  | succ n ih =>
    rw [storeElems]
    by_cases hc : chosen n = true
    · rw [if_pos hc]; exact Memory.wf_writeValue _ _ _ ih
    · rw [if_neg hc]; exact ih

/-- Storing elements changes no address outside the chosen elements' bytes. -/
theorem read_storeElems_other {W : Nat} (w : Nat) (chosen : Nat → Bool) (src : BitVec W) (ea : Word) {m : Memory} (n : Nat)
    (h : m.wf = true) (c : Nat)
    (hc : ∀ i < n, chosen i = true → ∀ k < w / 8, c ≠ (byteAddr (elemAddr ea w i) k).toNat) :
    (storeElems w chosen src ea m n).read c = m.read c := by
  induction n with
  | zero => rfl
  | succ n ih =>
    have ih' := ih fun i hi => hc i (by omega)
    rw [storeElems]
    by_cases hs : chosen n = true
    · rw [if_pos hs, Memory.read_writeValue_other _ _ _ (wf_storeElems w chosen src ea n h) _ (hc n (by omega) hs)]
      exact ih'
    · rw [if_neg hs]; exact ih'

/-- Storing elements puts byte `k` of chosen element `i` at `EA + i*w/8 + k` (R132). -/
theorem read_storeElems_same {W : Nat} (w : Nat) (chosen : Nat → Bool) (src : BitVec W) (ea : Word) {m : Memory} {n i k : Nat}
    (h : m.wf = true) (hn : n * (w / 8) ≤ 2 ^ 64) (hi : i < n) (hs : chosen i = true) (hk : k < w / 8) :
    (storeElems w chosen src ea m n).read (byteAddr (elemAddr ea w i) k).toNat = elem 8 (elem w src i) k := by
  induction n with
  | zero => omega
  | succ n ih =>
    have hmul : (n + 1) * (w / 8) = n * (w / 8) + w / 8 := Nat.succ_mul n (w / 8)
    have hwf := wf_storeElems w chosen src ea (m := m) n h
    rw [storeElems]
    by_cases hin : i = n
    · subst hin
      rw [if_pos hs]
      exact Memory.read_writeValue_same _ _ hwf (by omega) hk
    · have ih' := ih (by omega) (by omega)
      by_cases hc : chosen n = true
      · rw [if_pos hc, Memory.read_writeValue_other _ _ _ hwf, ih']
        intro j hj e
        rw [byteAddr_elemAddr, byteAddr_elemAddr] at e
        have hlt : i * (w / 8) + w / 8 ≤ n * (w / 8) := by
          rw [← Nat.succ_mul]; exact Nat.mul_le_mul_right _ (by omega)
        have := byteAddr_toNat_inj (by omega) (by omega) e
        omega
      · rw [if_neg hc]; exact ih'

/-! ### Placing a text -/

theorem Memory.wf_placeBytes {m : Memory} (a : Word) (bs : List Byte) (h : m.wf = true) : (m.placeBytes a bs).wf = true := by
  induction bs generalizing m a with
  | nil => exact h
  | cons b bs ih => exact ih _ (Memory.wf_write a b h)

/-- Placing bytes changes no address outside theirs. -/
theorem Memory.read_placeBytes_other {m : Memory} (a : Word) (bs : List Byte) (h : m.wf = true) (c : Nat)
    (hc : ∀ k < bs.length, c ≠ (byteAddr a k).toNat) : (m.placeBytes a bs).read c = m.read c := by
  induction bs generalizing m a with
  | nil => rfl
  | cons b bs ih =>
    rw [Memory.placeBytes, ih _ (Memory.wf_write a b h), Memory.read_write h, if_neg]
    · simpa [byteAddr] using hc 0 (by simp)
    · intro k hk
      have := hc (k + 1) (by simpa using hk)
      simpa [byteAddr, BitVec.ofNat_add, BitVec.add_assoc, BitVec.add_comm (1#64)] using this

/-- The bytes placed are the bytes read back (R51, R261). -/
theorem Memory.readBytes_placeBytes {m : Memory} (a : Word) (bs : List Byte) (h : m.wf = true) (hl : bs.length ≤ 2 ^ 64) :
    (m.placeBytes a bs).readBytes a bs.length = bs := by
  induction bs generalizing m a with
  | nil => rfl
  | cons b bs ih =>
    have hl' : bs.length + 1 ≤ 2 ^ 64 := by simpa using hl
    rw [List.length_cons, Memory.placeBytes, Memory.readBytes, ih _ (Memory.wf_write a b h) (by omega)]
    congr 1
    rw [Memory.read_placeBytes_other _ _ (Memory.wf_write a b h), Memory.read_write h, if_pos rfl]
    intro k hk e
    have e' : (byteAddr a 0).toNat = (byteAddr a (k + 1)).toNat := by
      simpa [byteAddr, BitVec.ofNat_add, BitVec.add_assoc, BitVec.add_comm (1#64)] using e
    have := byteAddr_toNat_inj (by omega) (by omega) e'
    omega

@[simp] theorem Memory.length_readBytes (m : Memory) (a : Word) (n : Nat) : (m.readBytes a n).length = n := by
  induction n generalizing a with
  | zero => rfl
  | succ n ih => simp [Memory.readBytes, ih]

end Sys2Proof.Machine
end

