-- ==== Sys2Proof/Laws/Ops.lean ====
section
/-! SUPPORT. What each shared operation can do, said once: when it answers a value, which fault it raises, and when it is
sure to answer. The provers cite these instead of unfolding the operations. -/

namespace Sys2Proof.Machine

/-! ### Sequencing -/

variable {α β : Type}

@[simp] theorem andThen_next (a : α) (f : α → Result β) : andThen (.next a) f = f a := rfl

theorem andThen_eq_next {x : Result α} {f : α → Result β} {b : β} :
    andThen x f = .next b ↔ ∃ a, x = .next a ∧ f a = .next b := by
  cases x <;> simp [andThen]

theorem andThen_eq_fault {x : Result α} {f : α → Result β} {r : Fault} :
    andThen x f = .fault r ↔ x = .fault r ∨ ∃ a, x = .next a ∧ f a = .fault r := by
  cases x <;> simp [andThen]

theorem andThen_eq_refused {x : Result α} {f : α → Result β} {r : Refusal} :
    andThen x f = .refused r ↔ x = .refused r ∨ ∃ a, x = .next a ∧ f a = .refused r := by
  cases x <;> simp [andThen]

theorem withFeature_on {f : Feature} {s : State} {body : Result α} (h : s.hasFeature f = true) :
    withFeature f s body = body := by simp [withFeature, h]

theorem withFeature_off {f : Feature} {s : State} {body : Result α} (h : s.hasFeature f = false) :
    withFeature f s body = .fault (.ud s) := by simp [withFeature, h, raise]

theorem withFeature_eq_next {f : Feature} {s : State} {body : Result α} {a : α} :
    withFeature f s body = .next a ↔ s.hasFeature f = true ∧ body = .next a := by
  by_cases h : s.hasFeature f = true <;> simp [withFeature, h, raise]

theorem withFeature_eq_fault {f : Feature} {s : State} {body : Result α} {r : Fault} :
    withFeature f s body = .fault r ↔
      (s.hasFeature f = false ∧ r = .ud s) ∨ (s.hasFeature f = true ∧ body = .fault r) := by
  by_cases h : s.hasFeature f = true <;> simp [withFeature, h, raise, eq_comm]

theorem withFeature_eq_refused {f : Feature} {s : State} {body : Result α} {r : Refusal} :
    withFeature f s body = .refused r ↔ s.hasFeature f = true ∧ body = .refused r := by
  by_cases h : s.hasFeature f = true <;> simp [withFeature, h, raise]

/-! ### Alignment checking -/

theorem checkAlignment_quiet {eb : Nat} {ea : Word} {s : State} (h : AlignmentQuiet eb ea s) :
    checkAlignment eb ea s = .next () := by
  rcases h with h | h <;> simp [checkAlignment, h]

/-- #AC is the only thing an alignment check raises, and only where checking is on and the address misaligned (R234). -/
theorem checkAlignment_eq_fault {eb : Nat} {ea : Word} {s : State} {r : Fault} (h : checkAlignment eb ea s = .fault r) :
    r = .ac s ∧ s.alignmentChecking = true ∧ ea.toNat % eb ≠ 0 ∧ Config.alignmentDraw s.draws ea eb = true := by
  unfold checkAlignment at h
  split at h
  · rename_i hc
    simp only [Bool.and_eq_true, decide_eq_true_eq] at hc
    simp only [raise, Host.Outcome.fault.injEq] at h
    exact ⟨h.symm, hc.1.1, hc.1.2, hc.2⟩
  · cases h

theorem checkAlignment_ne_refused {eb : Nat} {ea : Word} {s : State} {r : Refusal} : checkAlignment eb ea s ≠ .refused r := by
  unfold checkAlignment raise; split <;> simp

/-! ### Sources of non-masked forms -/

/-- A source that is read has the operand's value (R50, R55, R91). -/
theorem readRM_eq_next {W eb : Nat} {rm : RM} {len : Nat} {s : State} {v : BitVec W} (h : readRM W eb rm len s = .next v) :
    v = sourceValue W rm len s := by
  cases rm with
  | reg r => simpa [readRM, sourceValue, State.readVec, eq_comm] using h
  | mem m =>
    simp only [readRM, readMem] at h
    obtain ⟨_, _, h⟩ := andThen_eq_next.1 h
    split at h
    · split at h
      · cases h
      · simpa [sourceValue, eq_comm] using h
    · simp [raise] at h

/-- A source that is ready is read. -/
theorem readRM_ready {W eb : Nat} {rm : RM} {len : Nat} {s : State} (h : SourceReady W eb rm len s) :
    readRM W eb rm len s = .next (sourceValue W rm len s) := by
  cases rm with
  | reg r => rfl
  | mem m =>
    obtain ⟨ha, hr, hio⟩ := h
    simp [readRM, readMem, sourceValue, checkAlignment_quiet ha, hr, hio]

/-- A fault of a source is #AC or a memory fault of the whole operand, with the state unchanged (R55, R232). -/
theorem readRM_eq_fault {W eb : Nat} {rm : RM} {len : Nat} {s : State} {r : Fault} (h : readRM W eb rm len s = .fault r) :
    ∃ m, rm = .mem m ∧
      ((r = .ac s ∧ s.alignmentChecking = true ∧ (effAddr m len s).toNat % eb ≠ 0) ∨
        (r = .memFault (effAddr m len s) (W / 8) .read s ∧ s.launch.accessible (effAddr m len s) (W / 8) .read = false)) := by
  cases rm with
  | reg r => simp [readRM] at h
  | mem m =>
    refine ⟨m, rfl, ?_⟩
    simp only [readRM, readMem] at h
    rcases andThen_eq_fault.1 h with h | ⟨_, _, h⟩
    · obtain ⟨h1, h2, h3, _⟩ := checkAlignment_eq_fault h
      exact .inl ⟨h1, h2, h3⟩
    · split at h
      · split at h <;> cases h
      · rename_i hacc
        simp only [raise, Host.Outcome.fault.injEq] at h
        exact .inr ⟨h.symm, by simpa using hacc⟩

/-- What a non-masked form does when it completes: it writes its result to `d` and moves on (R22, R25). -/
theorem sourceForm_eq_next {R : Nat} {f : Feature} {W eb : Nat} {rm : RM} {ib : Bool} {d : RegNum}
    {result : BitVec W → BitVec R} {s t : State} (h : sourceForm f W eb rm ib d result s = .next t) :
    s.hasFeature f = true ∧ t = s.writeBack d (result (sourceValue W rm (formLength rm ib) s)) (formLength rm ib) := by
  obtain ⟨hf, h⟩ := withFeature_eq_next.1 h
  obtain ⟨v, hv, h⟩ := andThen_eq_next.1 h
  rw [readRM_eq_next hv] at h
  exact ⟨hf, by simpa [eq_comm] using h⟩

/-- A non-masked form whose source is ready completes. -/
theorem sourceForm_ready {R : Nat} {f : Feature} {W eb : Nat} {rm : RM} {ib : Bool} {d : RegNum}
    {result : BitVec W → BitVec R} {s : State} (hf : s.hasFeature f = true) (h : SourceReady W eb rm (formLength rm ib) s) :
    sourceForm f W eb rm ib d result s =
      .next (s.writeBack d (result (sourceValue W rm (formLength rm ib) s)) (formLength rm ib)) := by
  simp [sourceForm, withFeature_on hf, readRM_ready h]

/-- A fault of a non-masked form leaves the whole state as it was (R231, R240). -/
theorem sourceForm_eq_fault {R : Nat} {f : Feature} {W eb : Nat} {rm : RM} {ib : Bool} {d : RegNum}
    {result : BitVec W → BitVec R} {s : State} {r : Fault} (h : sourceForm f W eb rm ib d result s = .fault r) :
    r = .ud s ∧ s.hasFeature f = false ∨ readRM W eb rm (formLength rm ib) s = .fault r := by
  rcases withFeature_eq_fault.1 h with ⟨h1, h2⟩ | ⟨_, h⟩
  · exact .inl ⟨h2, h1⟩
  · rcases andThen_eq_fault.1 h with h | ⟨_, _, h⟩
    · exact .inr h
    · cases h

/-! ### Masked moves -/

/-- No enabled element is blocked exactly when `Accessible` admits each of them (R59). -/
theorem blockedElems_eq_nil {W w n : Nat} {mask : BitVec W} {ea : Word} {kind : AccessKind} {l : Launch} :
    blockedElems w n mask ea kind l = [] ↔
      ∀ i < n, maskBit w mask i = true → l.accessible (elemAddr ea w i) (w / 8) kind = true := by
  simp [blockedElems, List.filter_eq_nil_iff]

/-- The element reported is one of the blocked ones (R60). -/
theorem reportedElem_mem (draws first : Nat) (more : List Nat) : reportedElem draws first more ∈ first :: more := by
  cases more with
  | nil => simp [reportedElem]
  | cons c cs =>
    simp only [reportedElem]
    have hl : Config.reportDraw draws % ((c :: cs).length + 1) < (first :: c :: cs).length := Nat.mod_lt _ (by simp)
    rw [List.getD_eq_getElem _ _ hl]
    exact List.getElem_mem hl

theorem enabledTouches_eq_false {W w n : Nat} {mask : BitVec W} {ea : Word} {p : Word → Bool} :
    enabledTouches w n mask ea p = false ↔
      ∀ i < n, maskBit w mask i = true → touches p (elemAddr ea w i) (w / 8) = false := by
  simp [enabledTouches]

theorem touches_eq_false {p : Word → Bool} {a : Word} {n : Nat} :
    touches p a n = false ↔ ∀ k < n, p (byteAddr a k) = false := by
  simp [touches]

theorem maskedLoad_eq_next {W w n : Nat} {mask : BitVec W} {ea : Word} {s : State} {v : BitVec W}
    (h : maskedLoad w n mask ea s = .next v) : v = maskedLoadValue w n mask ea s.mem := by
  unfold maskedLoad at h
  split at h
  · cases h
  · obtain ⟨_, _, h⟩ := andThen_eq_next.1 h
    split at h
    · simpa [eq_comm] using h
    · simp [raise] at h

theorem maskedLoad_ready {W w : Nat} {mask : BitVec W} {ea : Word} {s : State} (h : MaskedReady w mask ea .read s) :
    maskedLoad w (W / w) mask ea s = .next (maskedLoadValue w (W / w) mask ea s.mem) := by
  obtain ⟨ha, hd, h⟩ := h
  have hb := blockedElems_eq_nil.2 fun i hi hm => (h i hi hm).1
  simp [maskedLoad, hd, hb, checkAlignment_quiet ha]

/-- A fault of a masked load is #AC or the memory fault of one enabled, inaccessible element, with the state unchanged
(R59, R60, R131). -/
theorem maskedLoad_eq_fault {W w n : Nat} {mask : BitVec W} {ea : Word} {s : State} {r : Fault}
    (h : maskedLoad w n mask ea s = .fault r) :
    (r = .ac s ∧ s.alignmentChecking = true ∧ ea.toNat % (w / 8) ≠ 0) ∨
      ∃ i < n, maskBit w mask i = true ∧ s.launch.accessible (elemAddr ea w i) (w / 8) .read = false ∧
        r = .memFault (elemAddr ea w i) (w / 8) .read s := by
  unfold maskedLoad at h
  split at h
  · cases h
  · rcases andThen_eq_fault.1 h with h | ⟨_, _, h⟩
    · obtain ⟨h1, h2, h3, _⟩ := checkAlignment_eq_fault h
      exact .inl ⟨h1, h2, h3⟩
    · split at h
      · cases h
      · rename_i i more hb
        have hm := reportedElem_mem s.draws i more
        rw [← hb] at hm
        simp only [blockedElems, List.mem_filter, mem_enabledElems, Bool.not_eq_true'] at hm
        simp only [raise, Host.Outcome.fault.injEq] at h
        exact .inr ⟨_, hm.1.1, hm.1.2, hm.2, h.symm⟩

/-- An EA range with a byte of I/O or un-cached memory is refused, whatever the mask (R64, R264). -/
theorem maskedLoad_device {W w n : Nat} {mask : BitVec W} {ea : Word} {s : State}
    (h : touches s.launch.isDevice ea (W / 8) = true) : maskedLoad w n mask ea s = .refused .maskedDeviceAccess := by
  simp [maskedLoad, h]

/-- The same for a store. -/
theorem maskedStore_device {W w n : Nat} {mask src : BitVec W} {ea : Word} {s : State}
    (h : touches s.launch.isDevice ea (W / 8) = true) : maskedStore w n mask src ea s = .refused .maskedDeviceAccess := by
  simp [maskedStore, h]

/-- Of ordinary memory, a store with an enabled element in the text is refused (R70). -/
theorem maskedStore_text {W w n : Nat} {mask src : BitVec W} {ea : Word} {s : State}
    (hd : touches s.launch.isDevice ea (W / 8) = false) (ht : enabledTouches w n mask ea s.launch.inText = true) :
    maskedStore w n mask src ea s = .refused .storeToText := by
  simp [maskedStore, hd, ht]

theorem maskedStore_eq_next {W w n : Nat} {mask src : BitVec W} {ea : Word} {s t : State}
    (h : maskedStore w n mask src ea s = .next t) :
    t = { s with mem := storeElems w (maskBit w mask) src ea s.mem n } ∧
      ∀ i < n, maskBit w mask i = true → touches s.launch.inText (elemAddr ea w i) (w / 8) = false := by
  unfold maskedStore at h
  split at h
  · cases h
  · split at h
    · cases h
    · rename_i _ ht
      obtain ⟨_, _, h⟩ := andThen_eq_next.1 h
      split at h
      · exact ⟨by simpa [eq_comm] using h, enabledTouches_eq_false.1 (by simpa using ht)⟩
      · simp [raise] at h

theorem maskedStore_ready {W w : Nat} {mask src : BitVec W} {ea : Word} {s : State} (h : MaskedReady w mask ea .write s) :
    maskedStore w (W / w) mask src ea s = .next { s with mem := storeElems w (maskBit w mask) src ea s.mem (W / w) } := by
  obtain ⟨ha, hd, h⟩ := h
  have ht := enabledTouches_eq_false.2 fun i hi hm => (h i hi hm).2 rfl
  have hb := blockedElems_eq_nil.2 fun i hi hm => (h i hi hm).1
  simp [maskedStore, hd, ht, hb, checkAlignment_quiet ha]

/-- A fault of a masked store is #AC, with the state unchanged, or the memory fault of one enabled, inaccessible element, with
a drawn set of the enabled, accessible elements stored (R59, R60, R132). -/
theorem maskedStore_eq_fault {W w n : Nat} {mask src : BitVec W} {ea : Word} {s : State} {r : Fault}
    (h : maskedStore w n mask src ea s = .fault r) :
    (r = .ac s ∧ s.alignmentChecking = true ∧ ea.toNat % (w / 8) ≠ 0) ∨
      ∃ i < n, maskBit w mask i = true ∧ s.launch.accessible (elemAddr ea w i) (w / 8) .write = false ∧
        r = .memFault (elemAddr ea w i) (w / 8) .write
          { s with mem := storeElems w (partiallyStored w mask ea s) src ea s.mem n } := by
  unfold maskedStore at h
  split at h
  · cases h
  · split at h
    · cases h
    · rcases andThen_eq_fault.1 h with h | ⟨_, _, h⟩
      · obtain ⟨h1, h2, h3, _⟩ := checkAlignment_eq_fault h
        exact .inl ⟨h1, h2, h3⟩
      · split at h
        · cases h
        · rename_i i more hb
          have hm := reportedElem_mem s.draws i more
          rw [← hb] at hm
          simp only [blockedElems, List.mem_filter, mem_enabledElems, Bool.not_eq_true'] at hm
          simp only [raise, Host.Outcome.fault.injEq] at h
          exact .inr ⟨_, hm.1.1, hm.1.2, hm.2, h.symm⟩

/-! ### The masked forms -/

/-- What a masked load does when it completes (R131). -/
theorem maskedLoadForm_eq_next {f : Feature} {W w : Nat} {d v : RegNum} {m : Mem} {s t : State}
    (h : maskedLoadForm f W w d v m s = .next t) :
    s.hasFeature f = true ∧
      t = s.writeBack d
        (maskedLoadValue w (W / w) (s.readVec W v) (effAddr m (formLength (.mem m) false) s) s.mem : BitVec W)
        (formLength (.mem m) false) := by
  obtain ⟨hf, h⟩ := withFeature_eq_next.1 h
  obtain ⟨x, hx, h⟩ := andThen_eq_next.1 h
  rw [maskedLoad_eq_next hx] at h
  exact ⟨hf, by simpa [eq_comm] using h⟩

/-- A masked load whose enabled elements can be read completes. -/
theorem maskedLoadForm_ready {f : Feature} {W w : Nat} {d v : RegNum} {m : Mem} {s : State} (hf : s.hasFeature f = true)
    (h : MaskedReady w (s.readVec W v) (effAddr m (formLength (.mem m) false) s) .read s) :
    maskedLoadForm f W w d v m s =
      .next (s.writeBack d
        (maskedLoadValue w (W / w) (s.readVec W v) (effAddr m (formLength (.mem m) false) s) s.mem : BitVec W)
        (formLength (.mem m) false)) := by
  simp [maskedLoadForm, withFeature_on hf, maskedLoad_ready h]

/-- A fault of a masked load form is a missing feature or a fault of the load (R233, R238). -/
theorem maskedLoadForm_eq_fault {f : Feature} {W w : Nat} {d v : RegNum} {m : Mem} {s : State} {r : Fault}
    (h : maskedLoadForm f W w d v m s = .fault r) :
    r = .ud s ∧ s.hasFeature f = false ∨
      s.hasFeature f = true ∧
        maskedLoad w (W / w) (s.readVec W v) (effAddr m (formLength (.mem m) false) s) s = .fault r := by
  rcases withFeature_eq_fault.1 h with ⟨h1, h2⟩ | ⟨hf, h⟩
  · exact .inl ⟨h2, h1⟩
  · rcases andThen_eq_fault.1 h with h | ⟨_, _, h⟩
    · exact .inr ⟨hf, h⟩
    · cases h

/-- What a masked store does when it completes (R132); none of its enabled elements lay in the text (R70). -/
theorem maskedStoreForm_eq_next {f : Feature} {W w : Nat} {v src : RegNum} {m : Mem} {s t : State}
    (h : maskedStoreForm f W w m v src s = .next t) :
    s.hasFeature f = true ∧
      t = State.advance
        { s with
          mem := storeElems w (maskBit w (s.readVec W v)) (s.readVec W src) (effAddr m (formLength (.mem m) false) s) s.mem
            (W / w) }
        (formLength (.mem m) false) ∧
      ∀ i < W / w, maskBit w (s.readVec W v) i = true →
        touches s.launch.inText (elemAddr (effAddr m (formLength (.mem m) false) s) w i) (w / 8) = false := by
  obtain ⟨hf, h⟩ := withFeature_eq_next.1 h
  obtain ⟨x, hx, h⟩ := andThen_eq_next.1 h
  obtain ⟨hx, ht⟩ := maskedStore_eq_next hx
  subst hx
  exact ⟨hf, by simpa [eq_comm] using h, ht⟩

/-- A masked store whose enabled elements can be written completes. -/
theorem maskedStoreForm_ready {f : Feature} {W w : Nat} {v src : RegNum} {m : Mem} {s : State} (hf : s.hasFeature f = true)
    (h : MaskedReady w (s.readVec W v) (effAddr m (formLength (.mem m) false) s) .write s) :
    maskedStoreForm f W w m v src s =
      .next (State.advance
        { s with
          mem := storeElems w (maskBit w (s.readVec W v)) (s.readVec W src) (effAddr m (formLength (.mem m) false) s) s.mem
            (W / w) }
        (formLength (.mem m) false)) := by
  simp [maskedStoreForm, withFeature_on hf, maskedStore_ready h]

/-- A fault of a masked store form is a missing feature or a fault of the store (R233, R238). -/
theorem maskedStoreForm_eq_fault {f : Feature} {W w : Nat} {v src : RegNum} {m : Mem} {s : State} {r : Fault}
    (h : maskedStoreForm f W w m v src s = .fault r) :
    r = .ud s ∧ s.hasFeature f = false ∨
      s.hasFeature f = true ∧
        maskedStore w (W / w) (s.readVec W v) (s.readVec W src) (effAddr m (formLength (.mem m) false) s) s = .fault r := by
  rcases withFeature_eq_fault.1 h with ⟨h1, h2⟩ | ⟨hf, h⟩
  · exact .inl ⟨h2, h1⟩
  · rcases andThen_eq_fault.1 h with h | ⟨_, _, h⟩
    · exact .inr ⟨hf, h⟩
    · cases h

/-! ### The three shapes of a meaning -/

/-- Every meaning is one of the three shapes, over the operands of its instruction. -/
inductive MeaningShape (i : Instr) : Prop where
  | source {R W : Nat} (eb : Nat) (rm : RM) (ib : Bool) (d : RegNum) (result : State → BitVec W → BitVec R)
      (masked : maskedMoveOf i = none) (len : i.length = formLength rm ib) (operand : i.rm = rm) (dest : i.encoding.reg = d)
      (bytes : operandBytes i = W / 8) (elemBytes : eb ∣ 16)
      (eq : ∀ s, exec i s = sourceForm (featureOf i) W eb rm ib d (result s) s)
  | load (W w : Nat) (d v : RegNum) (m : Mem)
      (masked : maskedMoveOf i = some ⟨W, w, v, m, .read⟩) (len : i.length = formLength (.mem m) false)
      (operand : i.rm = .mem m) (dest : i.encoding.reg = d) (width : W = 128 ∨ W = 256) (elemWidth : w = 32 ∨ w = 64)
      (eq : ∀ s, exec i s = maskedLoadForm (featureOf i) W w d v m s)
  | store (W w : Nat) (m : Mem) (v src : RegNum)
      (masked : maskedMoveOf i = some ⟨W, w, v, m, .write⟩) (len : i.length = formLength (.mem m) false)
      (operand : i.rm = .mem m) (data : i.encoding.reg = src) (width : W = 128 ∨ W = 256) (elemWidth : w = 32 ∨ w = 64)
      (eq : ∀ s, exec i s = maskedStoreForm (featureOf i) W w m v src s)

/-- The shape of each instruction's meaning. -/
theorem exec_shape (i : Instr) : MeaningShape i := by
  cases i
  case vmaskmovpsLoad128 | vmaskmovpsLoad256 | vmaskmovpdLoad128 | vmaskmovpdLoad256 | vpmaskmovdLoad128
      | vpmaskmovdLoad256 | vpmaskmovqLoad128 | vpmaskmovqLoad256 =>
    exact .load _ _ _ _ _ rfl rfl rfl rfl (by decide) (by decide) fun _ => rfl
  case vmaskmovpsStore128 | vmaskmovpsStore256 | vmaskmovpdStore128 | vmaskmovpdStore256 | vpmaskmovdStore128
      | vpmaskmovdStore256 | vpmaskmovqStore128 | vpmaskmovqStore256 =>
    exact .store _ _ _ _ _ rfl rfl rfl rfl (by decide) (by decide) fun _ => rfl
  all_goals exact .source _ _ _ _ (fun s => _) rfl rfl rfl rfl rfl (by decide) fun _ => rfl

end Sys2Proof.Machine
end

