-- ==== Sys2Proof/Laws/PerInstr.lean ====
section
/-! SUPPORT. A family over all instructions: the row of the opcode table that an instruction's encoding belongs to, and that
the row makes the instruction back from the encoding's operands (R86, R96, R100). -/

namespace Sys2Proof.Laws

/-- The table has a row with the key of the instruction's encoding; that row reads an immediate exactly if the encoding has one,
constrains VEX.vvvv and `mod` only as the encoding satisfies, and makes the instruction back. -/
def RowFits.Statement (i : Instr) : Prop :=
  i.encoding.rm = i.rm ∧
    ∃ row ∈ opcodeTable, row.key = i.encoding.key ∧ row.ib = i.encoding.imm.isSome ∧
      (row.usesV = false → i.encoding.v = 0) ∧ (row.memOnly = true → ∃ m, i.encoding.rm = .mem m) ∧
      row.make ⟨i.encoding.reg, i.encoding.v, i.encoding.rm, i.encoding.imm.getD 0⟩ = some i

theorem RowFits.vinsertf128 (d : RegNum) (v : RegNum) (rm : RM) (imm : Byte) : RowFits.Statement (.vinsertf128 d v rm imm) :=
  ⟨rfl, opcodeTable[0], List.getElem_mem _, rfl, rfl, nofun, nofun, rfl⟩

theorem RowFits.vinserti128 (d : RegNum) (v : RegNum) (rm : RM) (imm : Byte) : RowFits.Statement (.vinserti128 d v rm imm) :=
  ⟨rfl, opcodeTable[1], List.getElem_mem _, rfl, rfl, nofun, nofun, rfl⟩

theorem RowFits.vmaskmovpsLoad128 (d : RegNum) (v : RegNum) (m : Mem) : RowFits.Statement (.vmaskmovpsLoad128 d v m) :=
  ⟨rfl, opcodeTable[2], List.getElem_mem _, rfl, rfl, nofun, fun _ => ⟨_, rfl⟩, rfl⟩

theorem RowFits.vmaskmovpsLoad256 (d : RegNum) (v : RegNum) (m : Mem) : RowFits.Statement (.vmaskmovpsLoad256 d v m) :=
  ⟨rfl, opcodeTable[3], List.getElem_mem _, rfl, rfl, nofun, fun _ => ⟨_, rfl⟩, rfl⟩

theorem RowFits.vmaskmovpdLoad128 (d : RegNum) (v : RegNum) (m : Mem) : RowFits.Statement (.vmaskmovpdLoad128 d v m) :=
  ⟨rfl, opcodeTable[4], List.getElem_mem _, rfl, rfl, nofun, fun _ => ⟨_, rfl⟩, rfl⟩

theorem RowFits.vmaskmovpdLoad256 (d : RegNum) (v : RegNum) (m : Mem) : RowFits.Statement (.vmaskmovpdLoad256 d v m) :=
  ⟨rfl, opcodeTable[5], List.getElem_mem _, rfl, rfl, nofun, fun _ => ⟨_, rfl⟩, rfl⟩

theorem RowFits.vmaskmovpsStore128 (m : Mem) (v : RegNum) (src : RegNum) : RowFits.Statement (.vmaskmovpsStore128 m v src) :=
  ⟨rfl, opcodeTable[6], List.getElem_mem _, rfl, rfl, nofun, fun _ => ⟨_, rfl⟩, rfl⟩

theorem RowFits.vmaskmovpsStore256 (m : Mem) (v : RegNum) (src : RegNum) : RowFits.Statement (.vmaskmovpsStore256 m v src) :=
  ⟨rfl, opcodeTable[7], List.getElem_mem _, rfl, rfl, nofun, fun _ => ⟨_, rfl⟩, rfl⟩

theorem RowFits.vmaskmovpdStore128 (m : Mem) (v : RegNum) (src : RegNum) : RowFits.Statement (.vmaskmovpdStore128 m v src) :=
  ⟨rfl, opcodeTable[8], List.getElem_mem _, rfl, rfl, nofun, fun _ => ⟨_, rfl⟩, rfl⟩

theorem RowFits.vmaskmovpdStore256 (m : Mem) (v : RegNum) (src : RegNum) : RowFits.Statement (.vmaskmovpdStore256 m v src) :=
  ⟨rfl, opcodeTable[9], List.getElem_mem _, rfl, rfl, nofun, fun _ => ⟨_, rfl⟩, rfl⟩

theorem RowFits.vpblendd128 (d : RegNum) (v : RegNum) (rm : RM) (imm : Byte) : RowFits.Statement (.vpblendd128 d v rm imm) :=
  ⟨rfl, opcodeTable[10], List.getElem_mem _, rfl, rfl, nofun, nofun, rfl⟩

theorem RowFits.vpblendd256 (d : RegNum) (v : RegNum) (rm : RM) (imm : Byte) : RowFits.Statement (.vpblendd256 d v rm imm) :=
  ⟨rfl, opcodeTable[11], List.getElem_mem _, rfl, rfl, nofun, nofun, rfl⟩

theorem RowFits.vpbroadcastb128 (d : RegNum) (rm : RM) : RowFits.Statement (.vpbroadcastb128 d rm) :=
  ⟨rfl, opcodeTable[12], List.getElem_mem _, rfl, rfl, fun _ => rfl, nofun, rfl⟩

theorem RowFits.vpbroadcastb256 (d : RegNum) (rm : RM) : RowFits.Statement (.vpbroadcastb256 d rm) :=
  ⟨rfl, opcodeTable[13], List.getElem_mem _, rfl, rfl, fun _ => rfl, nofun, rfl⟩

theorem RowFits.vpbroadcastw128 (d : RegNum) (rm : RM) : RowFits.Statement (.vpbroadcastw128 d rm) :=
  ⟨rfl, opcodeTable[14], List.getElem_mem _, rfl, rfl, fun _ => rfl, nofun, rfl⟩

theorem RowFits.vpbroadcastw256 (d : RegNum) (rm : RM) : RowFits.Statement (.vpbroadcastw256 d rm) :=
  ⟨rfl, opcodeTable[15], List.getElem_mem _, rfl, rfl, fun _ => rfl, nofun, rfl⟩

theorem RowFits.vpbroadcastd128 (d : RegNum) (rm : RM) : RowFits.Statement (.vpbroadcastd128 d rm) :=
  ⟨rfl, opcodeTable[16], List.getElem_mem _, rfl, rfl, fun _ => rfl, nofun, rfl⟩

theorem RowFits.vpbroadcastd256 (d : RegNum) (rm : RM) : RowFits.Statement (.vpbroadcastd256 d rm) :=
  ⟨rfl, opcodeTable[17], List.getElem_mem _, rfl, rfl, fun _ => rfl, nofun, rfl⟩

theorem RowFits.vpbroadcastq128 (d : RegNum) (rm : RM) : RowFits.Statement (.vpbroadcastq128 d rm) :=
  ⟨rfl, opcodeTable[18], List.getElem_mem _, rfl, rfl, fun _ => rfl, nofun, rfl⟩

theorem RowFits.vpbroadcastq256 (d : RegNum) (rm : RM) : RowFits.Statement (.vpbroadcastq256 d rm) :=
  ⟨rfl, opcodeTable[19], List.getElem_mem _, rfl, rfl, fun _ => rfl, nofun, rfl⟩

theorem RowFits.vbroadcasti128 (d : RegNum) (m : Mem) : RowFits.Statement (.vbroadcasti128 d m) :=
  ⟨rfl, opcodeTable[20], List.getElem_mem _, rfl, rfl, fun _ => rfl, fun _ => ⟨_, rfl⟩, rfl⟩

theorem RowFits.vpermd (d : RegNum) (v : RegNum) (rm : RM) : RowFits.Statement (.vpermd d v rm) :=
  ⟨rfl, opcodeTable[21], List.getElem_mem _, rfl, rfl, nofun, nofun, rfl⟩

theorem RowFits.vpermpd (d : RegNum) (rm : RM) (imm : Byte) : RowFits.Statement (.vpermpd d rm imm) :=
  ⟨rfl, opcodeTable[22], List.getElem_mem _, rfl, rfl, fun _ => rfl, nofun, rfl⟩

theorem RowFits.vpermps (d : RegNum) (v : RegNum) (rm : RM) : RowFits.Statement (.vpermps d v rm) :=
  ⟨rfl, opcodeTable[23], List.getElem_mem _, rfl, rfl, nofun, nofun, rfl⟩

theorem RowFits.vpermq (d : RegNum) (rm : RM) (imm : Byte) : RowFits.Statement (.vpermq d rm imm) :=
  ⟨rfl, opcodeTable[24], List.getElem_mem _, rfl, rfl, fun _ => rfl, nofun, rfl⟩

theorem RowFits.vperm2i128 (d : RegNum) (v : RegNum) (rm : RM) (imm : Byte) : RowFits.Statement (.vperm2i128 d v rm imm) :=
  ⟨rfl, opcodeTable[25], List.getElem_mem _, rfl, rfl, nofun, nofun, rfl⟩

theorem RowFits.vpermilpdVar128 (d : RegNum) (v : RegNum) (rm : RM) : RowFits.Statement (.vpermilpdVar128 d v rm) :=
  ⟨rfl, opcodeTable[26], List.getElem_mem _, rfl, rfl, nofun, nofun, rfl⟩

theorem RowFits.vpermilpdVar256 (d : RegNum) (v : RegNum) (rm : RM) : RowFits.Statement (.vpermilpdVar256 d v rm) :=
  ⟨rfl, opcodeTable[27], List.getElem_mem _, rfl, rfl, nofun, nofun, rfl⟩

theorem RowFits.vpermilpdImm128 (d : RegNum) (rm : RM) (imm : Byte) : RowFits.Statement (.vpermilpdImm128 d rm imm) :=
  ⟨rfl, opcodeTable[28], List.getElem_mem _, rfl, rfl, fun _ => rfl, nofun, rfl⟩

theorem RowFits.vpermilpdImm256 (d : RegNum) (rm : RM) (imm : Byte) : RowFits.Statement (.vpermilpdImm256 d rm imm) :=
  ⟨rfl, opcodeTable[29], List.getElem_mem _, rfl, rfl, fun _ => rfl, nofun, rfl⟩

theorem RowFits.vpermilpsVar128 (d : RegNum) (v : RegNum) (rm : RM) : RowFits.Statement (.vpermilpsVar128 d v rm) :=
  ⟨rfl, opcodeTable[30], List.getElem_mem _, rfl, rfl, nofun, nofun, rfl⟩

theorem RowFits.vpermilpsImm128 (d : RegNum) (rm : RM) (imm : Byte) : RowFits.Statement (.vpermilpsImm128 d rm imm) :=
  ⟨rfl, opcodeTable[31], List.getElem_mem _, rfl, rfl, fun _ => rfl, nofun, rfl⟩

theorem RowFits.vpermilpsVar256 (d : RegNum) (v : RegNum) (rm : RM) : RowFits.Statement (.vpermilpsVar256 d v rm) :=
  ⟨rfl, opcodeTable[32], List.getElem_mem _, rfl, rfl, nofun, nofun, rfl⟩

theorem RowFits.vpermilpsImm256 (d : RegNum) (rm : RM) (imm : Byte) : RowFits.Statement (.vpermilpsImm256 d rm imm) :=
  ⟨rfl, opcodeTable[33], List.getElem_mem _, rfl, rfl, fun _ => rfl, nofun, rfl⟩

theorem RowFits.vperm2f128 (d : RegNum) (v : RegNum) (rm : RM) (imm : Byte) : RowFits.Statement (.vperm2f128 d v rm imm) :=
  ⟨rfl, opcodeTable[34], List.getElem_mem _, rfl, rfl, nofun, nofun, rfl⟩

theorem RowFits.vpmaskmovdLoad128 (d : RegNum) (v : RegNum) (m : Mem) : RowFits.Statement (.vpmaskmovdLoad128 d v m) :=
  ⟨rfl, opcodeTable[35], List.getElem_mem _, rfl, rfl, nofun, fun _ => ⟨_, rfl⟩, rfl⟩

theorem RowFits.vpmaskmovdLoad256 (d : RegNum) (v : RegNum) (m : Mem) : RowFits.Statement (.vpmaskmovdLoad256 d v m) :=
  ⟨rfl, opcodeTable[36], List.getElem_mem _, rfl, rfl, nofun, fun _ => ⟨_, rfl⟩, rfl⟩

theorem RowFits.vpmaskmovqLoad128 (d : RegNum) (v : RegNum) (m : Mem) : RowFits.Statement (.vpmaskmovqLoad128 d v m) :=
  ⟨rfl, opcodeTable[37], List.getElem_mem _, rfl, rfl, nofun, fun _ => ⟨_, rfl⟩, rfl⟩

theorem RowFits.vpmaskmovqLoad256 (d : RegNum) (v : RegNum) (m : Mem) : RowFits.Statement (.vpmaskmovqLoad256 d v m) :=
  ⟨rfl, opcodeTable[38], List.getElem_mem _, rfl, rfl, nofun, fun _ => ⟨_, rfl⟩, rfl⟩

theorem RowFits.vpmaskmovdStore128 (m : Mem) (v : RegNum) (src : RegNum) : RowFits.Statement (.vpmaskmovdStore128 m v src) :=
  ⟨rfl, opcodeTable[39], List.getElem_mem _, rfl, rfl, nofun, fun _ => ⟨_, rfl⟩, rfl⟩

theorem RowFits.vpmaskmovdStore256 (m : Mem) (v : RegNum) (src : RegNum) : RowFits.Statement (.vpmaskmovdStore256 m v src) :=
  ⟨rfl, opcodeTable[40], List.getElem_mem _, rfl, rfl, nofun, fun _ => ⟨_, rfl⟩, rfl⟩

theorem RowFits.vpmaskmovqStore128 (m : Mem) (v : RegNum) (src : RegNum) : RowFits.Statement (.vpmaskmovqStore128 m v src) :=
  ⟨rfl, opcodeTable[41], List.getElem_mem _, rfl, rfl, nofun, fun _ => ⟨_, rfl⟩, rfl⟩

theorem RowFits.vpmaskmovqStore256 (m : Mem) (v : RegNum) (src : RegNum) : RowFits.Statement (.vpmaskmovqStore256 m v src) :=
  ⟨rfl, opcodeTable[42], List.getElem_mem _, rfl, rfl, nofun, fun _ => ⟨_, rfl⟩, rfl⟩

theorem RowFits.vpsllvd128 (d : RegNum) (v : RegNum) (rm : RM) : RowFits.Statement (.vpsllvd128 d v rm) :=
  ⟨rfl, opcodeTable[43], List.getElem_mem _, rfl, rfl, nofun, nofun, rfl⟩

theorem RowFits.vpsllvq128 (d : RegNum) (v : RegNum) (rm : RM) : RowFits.Statement (.vpsllvq128 d v rm) :=
  ⟨rfl, opcodeTable[44], List.getElem_mem _, rfl, rfl, nofun, nofun, rfl⟩

theorem RowFits.vpsllvd256 (d : RegNum) (v : RegNum) (rm : RM) : RowFits.Statement (.vpsllvd256 d v rm) :=
  ⟨rfl, opcodeTable[45], List.getElem_mem _, rfl, rfl, nofun, nofun, rfl⟩

theorem RowFits.vpsllvq256 (d : RegNum) (v : RegNum) (rm : RM) : RowFits.Statement (.vpsllvq256 d v rm) :=
  ⟨rfl, opcodeTable[46], List.getElem_mem _, rfl, rfl, nofun, nofun, rfl⟩

end Sys2Proof.Laws
end

