-- ==== Sys2Proof/Laws/Step.lean ====
section
/-! SUPPORT. The fetch and the step, inverted once: what each outcome of the fetch says about the text and the bytes at `rip`. -/

namespace Sys2Proof.Machine

theorem fetched_eq_next {α : Type} {n : Nat} {s : State} {x : Result α} {a : α} :
    fetched n s x = .next a ↔ s.launch.accessible s.rip n .fetch = true ∧ x = .next a := by
  by_cases h : s.launch.accessible s.rip n .fetch = true <;> simp [fetched, h, raise]

theorem fetched_eq_fault {α : Type} {n : Nat} {s : State} {x : Result α} {r : Fault} :
    fetched n s x = .fault r ↔
      (s.launch.accessible s.rip n .fetch = false ∧ r = .memFault s.rip n .fetch s) ∨
        (s.launch.accessible s.rip n .fetch = true ∧ x = .fault r) := by
  by_cases h : s.launch.accessible s.rip n .fetch = true <;> simp [fetched, h, raise, eq_comm]

theorem fetched_ok {α : Type} {n : Nat} {s : State} {x : Result α} (h : s.launch.accessible s.rip n .fetch = true) :
    fetched n s x = x := by simp [fetched, h]

/-- Inside the text the fetch is what the decoder's verdict means (R105). -/
theorem fetch_inside {s : State} (h : s.AtText) : fetch s = decodedOutcome s (decode (fetchWindow s)) := by
  obtain ⟨h1, h2, h3⟩ := h
  simp only [fetch]
  rw [if_neg (by simp [h1]), if_neg (by omega), if_neg (by simp; omega)]

/-- A fetched instruction comes from text bytes at `rip` that decode to it and may be fetched (R58, R105, R263). -/
theorem fetch_eq_next {s : State} {i : Instr} (h : fetch s = .next i) :
    s.AtText ∧ s.launch.accessible s.rip i.length .fetch = true ∧ ∃ rest, decode (fetchWindow s) = .instr i rest := by
  simp only [fetch] at h
  split at h
  · cases h
  · rename_i hb
    split at h
    · cases h
    · split at h
      · cases h
      · cases hd : decode (fetchWindow s) with
        | instr j rest =>
          rw [hd] at h
          obtain ⟨h1, h2⟩ := fetched_eq_next.1 h
          cases h2
          rename_i hne hin
          simp only [Bool.or_eq_true, decide_eq_true_eq, not_or] at hin
          exact ⟨⟨by simpa using hb, by omega, by omega⟩, h1, rest, rfl⟩
        | ud row => rw [hd] at h; exact absurd (fetched_eq_next.1 h).2 (by simp [raise])
        | foreign why => rw [hd] at h; exact absurd (fetched_eq_next.1 h).2 (by simp)
        | truncated => rw [hd] at h; cases h

/-- A fault of the fetch is the fetch access or an encoding of R101, with the state unchanged (R231, R232). -/
theorem fetch_eq_fault {s : State} {r : Fault} (h : fetch s = .fault r) :
    (∃ n, r = .memFault s.rip n .fetch s) ∨ (r = .ud s ∧ ∃ row, decode (fetchWindow s) = .ud row) := by
  simp only [fetch] at h
  split at h
  · cases h
  · split at h
    · cases h
    · split at h
      · cases h
      · cases hd : decode (fetchWindow s) with
        | instr j rest =>
          rw [hd] at h
          rcases fetched_eq_fault.1 h with ⟨_, h2⟩ | ⟨_, h2⟩
          · exact .inl ⟨_, h2⟩
          · cases h2
        | ud row =>
          rw [hd] at h
          rcases fetched_eq_fault.1 h with ⟨_, h2⟩ | ⟨_, h2⟩
          · exact .inl ⟨_, h2⟩
          · simp only [raise, Host.Outcome.fault.injEq] at h2
            exact .inr ⟨h2.symm, row, rfl⟩
        | foreign why =>
          rw [hd] at h
          rcases fetched_eq_fault.1 h with ⟨_, h2⟩ | ⟨_, h2⟩
          · exact .inl ⟨_, h2⟩
          · cases h2
        | truncated => rw [hd] at h; cases h

/-- A step that completes fetched an instruction and ran it. -/
theorem step_eq_next {s t : State} : step s = .next t ↔ ∃ i, fetch s = .next i ∧ exec i s = .next t := andThen_eq_next

/-- A step that faults faulted in the fetch or in the instruction. -/
theorem step_eq_fault {s : State} {r : Fault} :
    step s = .fault r ↔ fetch s = .fault r ∨ ∃ i, fetch s = .next i ∧ exec i s = .fault r := andThen_eq_fault

/-- The text that follows the first bytes of a text. -/
theorem Memory.readBytes_add (m : Memory) (a : Word) (n k : Nat) :
    m.readBytes a (n + k) = m.readBytes a n ++ m.readBytes (byteAddr a n) k := by
  induction n generalizing a with
  | zero => simp [Memory.readBytes, byteAddr]
  | succ n ih =>
    rw [Nat.succ_add, Memory.readBytes, ih, Memory.readBytes, List.cons_append]
    congr 3
    simp [byteAddr, BitVec.ofNat_add, BitVec.add_assoc, BitVec.add_comm (1#64)]

/-- What a text that fits is. -/
theorem Launch.textFits_iff {l : Launch} : l.textFits = true ↔ l.textEnd ≤ 2 ^ 64 := decide_eq_true_iff

/-- In the text `rip` has not passed the top of the address space. -/
theorem State.AtText.ripNat_eq {s : State} (h : s.AtText) : s.ripCarry = false ∧ s.ripNat = s.rip.toNat := by
  obtain ⟨h1, _, h3⟩ := h
  rw [Launch.textFits_iff] at h1
  cases hc : s.ripCarry
  · simp [State.ripNat, hc]
  · simp only [State.ripNat, hc, if_true] at h3
    omega

/-- An advance up to the top of the address space moves the place of `rip` on by the instruction's length (R25, R26). -/
theorem State.ripNat_advance {s t : State} {n : Nat} (hc : s.ripCarry = false) (hn : s.ripNat + n ≤ 2 ^ 64)
    (hr : t.rip = s.rip + BitVec.ofNat 64 n) (ht : t.ripCarry = decide (2 ^ 64 ≤ s.rip.toNat + n)) :
    t.ripNat = s.ripNat + n := by
  have := s.rip.isLt
  simp only [State.ripNat, hc, hr, ht, BitVec.toNat_add, BitVec.toNat_ofNat, decide_eq_true_eq, Bool.false_eq_true, if_false] at *
  split <;> omega

end Sys2Proof.Machine
end

