-- ==== Sys2Proof/Tests/Slice0.lean ====
section
/-! SUPPORT. Tests: what well-formedness refuses, the spec's own encodings and vectors (95_test_vectors.md), faults and
refusals, the state after reset, and for every obligation with hypotheses a state that meets them. -/

namespace Sys2Proof.Tests

open Sys2Proof.Machine

/-! ### Helpers -/

/-- `V1` of 95_test_vectors.md: byte i holds i. -/
def V1 : Ymm := 0x1F1E1D1C1B1A191817161514131211100F0E0D0C0B0A09080706050403020100#256

/-- `V2` of 95_test_vectors.md: byte i holds 80h + i. -/
def V2 : Ymm := 0x9F9E9D9C9B9A999897969594939291908F8E8D8C8B8A89888786858483828180#256

/-- All bits set. -/
def ones : Ymm := ~~~0

/-- `n` bytes counting up from `base`. -/
def bytesFrom (n base : Nat) : List Byte := (List.range n).map fun k => BitVec.ofNat 8 (base + k)

/-- A text at 1000h, some vector registers, and data at 2000h, the value of every general register. -/
def machine (text : List Byte) (ys : List (RegNum × Ymm)) (data : List Byte) : State :=
  loadText
    (ys.foldl (fun s p => s.writeYmm p.1 p.2)
      { State.reset with
        rip := 0x1000#64, gpr := Vector.replicate 16 0x2000#64, mem := Memory.placeBytes [] 0x2000#64 data })
    text

/-- The same with other launch parameters. -/
def withLaunch (s : State) (f : Launch → Launch) : State := { s with launch := f s.launch }

/-- Reads and writes admitted in 1000h..1FFFh only, fetches everywhere: the launch of program P4. -/
def onePage (s : State) : State :=
  withLaunch s fun l =>
    { l with regions := [⟨0x1000, 0x1000, true, true, true, .plain⟩, ⟨0, 2 ^ 64, false, false, true, .plain⟩] }

/-- An I/O page at 2000h over ordinary memory everywhere. -/
def ioPage (s : State) : State :=
  withLaunch s fun l => { l with regions := [⟨0x2000, 0x1000, true, true, true, .io⟩, Region.everything] }

/-- Alignment checking enabled. -/
def checking (s : State) : State := { withLaunch s fun l => { l with alignArmed := true } with rflags := 0x40002#64 }

/-- The value of a vector register after a completed instruction. -/
def ymmAfter (o : Result State) (r : RegNum) : Option Ymm :=
  match o with
  | .next t => some (t.readYmm r)
  | _ => none

/-- `n` bytes of memory from 2000h after a completed instruction. -/
def bytesAfter (o : Result State) (n : Nat) : Option (List Byte) :=
  match o with
  | .next t => some (t.mem.readBytes 0x2000#64 n)
  | _ => none

/-- `rip` after a completed instruction. -/
def ripAfter (o : Result State) : Option Word :=
  match o with
  | .next t => some t.rip
  | _ => none

/-- What a memory fault reports. -/
def faultOf (o : Result State) : Option (Word × Nat × AccessKind) :=
  match o with
  | .fault (.memFault a n k _) => some (a, n, k)
  | _ => none

/-- The state that a fault hands over. -/
def stateAfterFault (o : Result State) : Option State :=
  match o with
  | .fault r => some r.after
  | _ => none

/-- The state that #UD hands over. -/
def udState (o : Result State) : Option State :=
  match o with
  | .fault (.ud t) => some t
  | _ => none

/-- Why a step is refused. -/
def refusalOf (o : Result State) : Option Refusal :=
  match o with
  | .refused r => some r
  | _ => none

/-- The instruction completes. -/
def completes (o : Result State) : Bool := (ripAfter o).isSome

theorem exists_next {o : Result State} (h : completes o = true) : ∃ t, o = .next t := by
  cases o with
  | next t => exact ⟨t, rfl⟩
  | fault r => cases h
  | refused r => cases h

/-- A memory fault is reported. -/
theorem exists_fault {o : Result State} {a : Word} {n : Nat} {k : AccessKind} (h : faultOf o = some (a, n, k)) :
    ∃ t, o = .fault (.memFault a n k t) := by
  rcases o with t | (t | ⟨a', n', k', t⟩ | t) | r <;> cases h
  exact ⟨t, rfl⟩

theorem eq_refused {o : Result State} {r : Refusal} (h : refusalOf o = some r) : o = .refused r := by
  cases o <;> cases h
  rfl

theorem eq_ud {o : Result State} {t : State} (h : udState o = some t) : o = .fault (.ud t) := by
  rcases o with t' | (t' | ⟨a', n', k', t'⟩ | t') | r <;> cases h
  rfl

/-! ### Well-formedness refuses what no encoding can express (R88, R89, R93) -/

theorem test_wf_refuses_base_that_needs_sib : (Mem.base 4 .d0).wf = false ∧ (Mem.base 12 (.d8 1)).wf = false := by decide

theorem test_wf_refuses_base_5_without_displacement : (Mem.base 5 .d0).wf = false ∧ (Mem.base 13 .d0).wf = false := by decide

theorem test_wf_refuses_index_4 : (Mem.sib 0 (some 4) 0 .d0).wf = false ∧ (Mem.sibNoBase (some 4) 0 0).wf = false := by decide

theorem test_wf_refuses_sib_base_5_without_displacement :
    (Mem.sib 5 none 0 .d0).wf = false ∧ (Mem.sib 13 (some 1) 0 .d0).wf = false := by decide

theorem test_wf_refuses_instruction : (Instr.vpermd 1 2 (.mem (.base 4 .d0))).wf = false := by decide

theorem test_wf_admits : (Mem.base 5 (.d8 0)).wf = true ∧ (Mem.sib 4 (some 12) 3 .d0).wf = true ∧
    (Mem.sib 13 none 0 (.d32 0)).wf = true ∧ (Mem.sibNoBase none 0 0).wf = true ∧ (Mem.ripRel 0).wf = true := by decide

/-! ### Decoding: the bytes of 95_test_vectors.md 2.1, columns A and B -/

theorem test_decode_vinsertf128 :
    decode [0xC4, 0xE3, 0x6D, 0x18, 0xCB, 0x01] = .instr (.vinsertf128 1 2 (.reg 3) 1) [] ∧
      decode [0xC4, 0x43, 0x2D, 0x18, 0xCB, 0x01] = .instr (.vinsertf128 9 10 (.reg 11) 1) [] := by decide

theorem test_decode_vinserti128 :
    decode [0xC4, 0xE3, 0x6D, 0x38, 0xCB, 0x01] = .instr (.vinserti128 1 2 (.reg 3) 1) [] ∧
      decode [0xC4, 0x43, 0x2D, 0x38, 0xCB, 0x01] = .instr (.vinserti128 9 10 (.reg 11) 1) [] := by decide

theorem test_decode_vmaskmovpsLoad128 :
    decode [0xC4, 0xE2, 0x69, 0x2C, 0x08] = .instr (.vmaskmovpsLoad128 1 2 (.base 0 .d0)) [] ∧
      decode [0xC4, 0x02, 0x29, 0x2C, 0x4C, 0x63, 0x80] = .instr (.vmaskmovpsLoad128 9 10 (.sib 11 (some 12) 1 (.d8 0x80))) [] := by decide

theorem test_decode_vmaskmovpsLoad256 :
    decode [0xC4, 0xE2, 0x6D, 0x2C, 0x08] = .instr (.vmaskmovpsLoad256 1 2 (.base 0 .d0)) [] ∧
      decode [0xC4, 0x02, 0x2D, 0x2C, 0x4C, 0x63, 0x80] = .instr (.vmaskmovpsLoad256 9 10 (.sib 11 (some 12) 1 (.d8 0x80))) [] := by decide

theorem test_decode_vmaskmovpdLoad128 :
    decode [0xC4, 0xE2, 0x69, 0x2D, 0x08] = .instr (.vmaskmovpdLoad128 1 2 (.base 0 .d0)) [] ∧
      decode [0xC4, 0x02, 0x29, 0x2D, 0x4C, 0x63, 0x80] = .instr (.vmaskmovpdLoad128 9 10 (.sib 11 (some 12) 1 (.d8 0x80))) [] := by decide

theorem test_decode_vmaskmovpdLoad256 :
    decode [0xC4, 0xE2, 0x6D, 0x2D, 0x08] = .instr (.vmaskmovpdLoad256 1 2 (.base 0 .d0)) [] ∧
      decode [0xC4, 0x02, 0x2D, 0x2D, 0x4C, 0x63, 0x80] = .instr (.vmaskmovpdLoad256 9 10 (.sib 11 (some 12) 1 (.d8 0x80))) [] := by decide

theorem test_decode_vmaskmovpsStore128 :
    decode [0xC4, 0xE2, 0x69, 0x2E, 0x08] = .instr (.vmaskmovpsStore128 (.base 0 .d0) 2 1) [] ∧
      decode [0xC4, 0x02, 0x29, 0x2E, 0x4C, 0x63, 0x80] = .instr (.vmaskmovpsStore128 (.sib 11 (some 12) 1 (.d8 0x80)) 10 9) [] := by decide

theorem test_decode_vmaskmovpsStore256 :
    decode [0xC4, 0xE2, 0x6D, 0x2E, 0x08] = .instr (.vmaskmovpsStore256 (.base 0 .d0) 2 1) [] ∧
      decode [0xC4, 0x02, 0x2D, 0x2E, 0x4C, 0x63, 0x80] = .instr (.vmaskmovpsStore256 (.sib 11 (some 12) 1 (.d8 0x80)) 10 9) [] := by decide

theorem test_decode_vmaskmovpdStore128 :
    decode [0xC4, 0xE2, 0x69, 0x2F, 0x08] = .instr (.vmaskmovpdStore128 (.base 0 .d0) 2 1) [] ∧
      decode [0xC4, 0x02, 0x29, 0x2F, 0x4C, 0x63, 0x80] = .instr (.vmaskmovpdStore128 (.sib 11 (some 12) 1 (.d8 0x80)) 10 9) [] := by decide

theorem test_decode_vmaskmovpdStore256 :
    decode [0xC4, 0xE2, 0x6D, 0x2F, 0x08] = .instr (.vmaskmovpdStore256 (.base 0 .d0) 2 1) [] ∧
      decode [0xC4, 0x02, 0x2D, 0x2F, 0x4C, 0x63, 0x80] = .instr (.vmaskmovpdStore256 (.sib 11 (some 12) 1 (.d8 0x80)) 10 9) [] := by decide

theorem test_decode_vpblendd128 :
    decode [0xC4, 0xE3, 0x69, 0x02, 0xCB, 0x01] = .instr (.vpblendd128 1 2 (.reg 3) 1) [] ∧
      decode [0xC4, 0x43, 0x29, 0x02, 0xCB, 0x01] = .instr (.vpblendd128 9 10 (.reg 11) 1) [] := by decide

theorem test_decode_vpblendd256 :
    decode [0xC4, 0xE3, 0x6D, 0x02, 0xCB, 0x01] = .instr (.vpblendd256 1 2 (.reg 3) 1) [] ∧
      decode [0xC4, 0x43, 0x2D, 0x02, 0xCB, 0x01] = .instr (.vpblendd256 9 10 (.reg 11) 1) [] := by decide

theorem test_decode_vpbroadcastb128 :
    decode [0xC4, 0xE2, 0x79, 0x78, 0xCB] = .instr (.vpbroadcastb128 1 (.reg 3)) [] ∧
      decode [0xC4, 0x42, 0x79, 0x78, 0xCB] = .instr (.vpbroadcastb128 9 (.reg 11)) [] := by decide

theorem test_decode_vpbroadcastb256 :
    decode [0xC4, 0xE2, 0x7D, 0x78, 0xCB] = .instr (.vpbroadcastb256 1 (.reg 3)) [] ∧
      decode [0xC4, 0x42, 0x7D, 0x78, 0xCB] = .instr (.vpbroadcastb256 9 (.reg 11)) [] := by decide

theorem test_decode_vpbroadcastw128 :
    decode [0xC4, 0xE2, 0x79, 0x79, 0xCB] = .instr (.vpbroadcastw128 1 (.reg 3)) [] ∧
      decode [0xC4, 0x42, 0x79, 0x79, 0xCB] = .instr (.vpbroadcastw128 9 (.reg 11)) [] := by decide

theorem test_decode_vpbroadcastw256 :
    decode [0xC4, 0xE2, 0x7D, 0x79, 0xCB] = .instr (.vpbroadcastw256 1 (.reg 3)) [] ∧
      decode [0xC4, 0x42, 0x7D, 0x79, 0xCB] = .instr (.vpbroadcastw256 9 (.reg 11)) [] := by decide

theorem test_decode_vpbroadcastd128 :
    decode [0xC4, 0xE2, 0x79, 0x58, 0xCB] = .instr (.vpbroadcastd128 1 (.reg 3)) [] ∧
      decode [0xC4, 0x42, 0x79, 0x58, 0xCB] = .instr (.vpbroadcastd128 9 (.reg 11)) [] := by decide

theorem test_decode_vpbroadcastd256 :
    decode [0xC4, 0xE2, 0x7D, 0x58, 0xCB] = .instr (.vpbroadcastd256 1 (.reg 3)) [] ∧
      decode [0xC4, 0x42, 0x7D, 0x58, 0xCB] = .instr (.vpbroadcastd256 9 (.reg 11)) [] := by decide

theorem test_decode_vpbroadcastq128 :
    decode [0xC4, 0xE2, 0x79, 0x59, 0xCB] = .instr (.vpbroadcastq128 1 (.reg 3)) [] ∧
      decode [0xC4, 0x42, 0x79, 0x59, 0xCB] = .instr (.vpbroadcastq128 9 (.reg 11)) [] := by decide

theorem test_decode_vpbroadcastq256 :
    decode [0xC4, 0xE2, 0x7D, 0x59, 0xCB] = .instr (.vpbroadcastq256 1 (.reg 3)) [] ∧
      decode [0xC4, 0x42, 0x7D, 0x59, 0xCB] = .instr (.vpbroadcastq256 9 (.reg 11)) [] := by decide

theorem test_decode_vbroadcasti128 :
    decode [0xC4, 0xE2, 0x7D, 0x5A, 0x08] = .instr (.vbroadcasti128 1 (.base 0 .d0)) [] ∧
      decode [0xC4, 0x02, 0x7D, 0x5A, 0x4C, 0x63, 0x80] = .instr (.vbroadcasti128 9 (.sib 11 (some 12) 1 (.d8 0x80))) [] := by decide

theorem test_decode_vpermd :
    decode [0xC4, 0xE2, 0x6D, 0x36, 0xCB] = .instr (.vpermd 1 2 (.reg 3)) [] ∧
      decode [0xC4, 0x42, 0x2D, 0x36, 0xCB] = .instr (.vpermd 9 10 (.reg 11)) [] := by decide

theorem test_decode_vpermpd :
    decode [0xC4, 0xE3, 0xFD, 0x01, 0xCB, 0x01] = .instr (.vpermpd 1 (.reg 3) 1) [] ∧
      decode [0xC4, 0x43, 0xFD, 0x01, 0xCB, 0x01] = .instr (.vpermpd 9 (.reg 11) 1) [] := by decide

theorem test_decode_vpermps :
    decode [0xC4, 0xE2, 0x6D, 0x16, 0xCB] = .instr (.vpermps 1 2 (.reg 3)) [] ∧
      decode [0xC4, 0x42, 0x2D, 0x16, 0xCB] = .instr (.vpermps 9 10 (.reg 11)) [] := by decide

theorem test_decode_vpermq :
    decode [0xC4, 0xE3, 0xFD, 0x00, 0xCB, 0x01] = .instr (.vpermq 1 (.reg 3) 1) [] ∧
      decode [0xC4, 0x43, 0xFD, 0x00, 0xCB, 0x01] = .instr (.vpermq 9 (.reg 11) 1) [] := by decide

theorem test_decode_vperm2i128 :
    decode [0xC4, 0xE3, 0x6D, 0x46, 0xCB, 0x01] = .instr (.vperm2i128 1 2 (.reg 3) 1) [] ∧
      decode [0xC4, 0x43, 0x2D, 0x46, 0xCB, 0x01] = .instr (.vperm2i128 9 10 (.reg 11) 1) [] := by decide

theorem test_decode_vpermilpdVar128 :
    decode [0xC4, 0xE2, 0x69, 0x0D, 0xCB] = .instr (.vpermilpdVar128 1 2 (.reg 3)) [] ∧
      decode [0xC4, 0x42, 0x29, 0x0D, 0xCB] = .instr (.vpermilpdVar128 9 10 (.reg 11)) [] := by decide

theorem test_decode_vpermilpdVar256 :
    decode [0xC4, 0xE2, 0x6D, 0x0D, 0xCB] = .instr (.vpermilpdVar256 1 2 (.reg 3)) [] ∧
      decode [0xC4, 0x42, 0x2D, 0x0D, 0xCB] = .instr (.vpermilpdVar256 9 10 (.reg 11)) [] := by decide

theorem test_decode_vpermilpdImm128 :
    decode [0xC4, 0xE3, 0x79, 0x05, 0xCB, 0x01] = .instr (.vpermilpdImm128 1 (.reg 3) 1) [] ∧
      decode [0xC4, 0x43, 0x79, 0x05, 0xCB, 0x01] = .instr (.vpermilpdImm128 9 (.reg 11) 1) [] := by decide

theorem test_decode_vpermilpdImm256 :
    decode [0xC4, 0xE3, 0x7D, 0x05, 0xCB, 0x01] = .instr (.vpermilpdImm256 1 (.reg 3) 1) [] ∧
      decode [0xC4, 0x43, 0x7D, 0x05, 0xCB, 0x01] = .instr (.vpermilpdImm256 9 (.reg 11) 1) [] := by decide

theorem test_decode_vpermilpsVar128 :
    decode [0xC4, 0xE2, 0x69, 0x0C, 0xCB] = .instr (.vpermilpsVar128 1 2 (.reg 3)) [] ∧
      decode [0xC4, 0x42, 0x29, 0x0C, 0xCB] = .instr (.vpermilpsVar128 9 10 (.reg 11)) [] := by decide

theorem test_decode_vpermilpsImm128 :
    decode [0xC4, 0xE3, 0x79, 0x04, 0xCB, 0x01] = .instr (.vpermilpsImm128 1 (.reg 3) 1) [] ∧
      decode [0xC4, 0x43, 0x79, 0x04, 0xCB, 0x01] = .instr (.vpermilpsImm128 9 (.reg 11) 1) [] := by decide

theorem test_decode_vpermilpsVar256 :
    decode [0xC4, 0xE2, 0x6D, 0x0C, 0xCB] = .instr (.vpermilpsVar256 1 2 (.reg 3)) [] ∧
      decode [0xC4, 0x42, 0x2D, 0x0C, 0xCB] = .instr (.vpermilpsVar256 9 10 (.reg 11)) [] := by decide

theorem test_decode_vpermilpsImm256 :
    decode [0xC4, 0xE3, 0x7D, 0x04, 0xCB, 0x01] = .instr (.vpermilpsImm256 1 (.reg 3) 1) [] ∧
      decode [0xC4, 0x43, 0x7D, 0x04, 0xCB, 0x01] = .instr (.vpermilpsImm256 9 (.reg 11) 1) [] := by decide

theorem test_decode_vperm2f128 :
    decode [0xC4, 0xE3, 0x6D, 0x06, 0xCB, 0x01] = .instr (.vperm2f128 1 2 (.reg 3) 1) [] ∧
      decode [0xC4, 0x43, 0x2D, 0x06, 0xCB, 0x01] = .instr (.vperm2f128 9 10 (.reg 11) 1) [] := by decide

theorem test_decode_vpmaskmovdLoad128 :
    decode [0xC4, 0xE2, 0x69, 0x8C, 0x08] = .instr (.vpmaskmovdLoad128 1 2 (.base 0 .d0)) [] ∧
      decode [0xC4, 0x02, 0x29, 0x8C, 0x4C, 0x63, 0x80] = .instr (.vpmaskmovdLoad128 9 10 (.sib 11 (some 12) 1 (.d8 0x80))) [] := by decide

theorem test_decode_vpmaskmovdLoad256 :
    decode [0xC4, 0xE2, 0x6D, 0x8C, 0x08] = .instr (.vpmaskmovdLoad256 1 2 (.base 0 .d0)) [] ∧
      decode [0xC4, 0x02, 0x2D, 0x8C, 0x4C, 0x63, 0x80] = .instr (.vpmaskmovdLoad256 9 10 (.sib 11 (some 12) 1 (.d8 0x80))) [] := by decide

theorem test_decode_vpmaskmovqLoad128 :
    decode [0xC4, 0xE2, 0xE9, 0x8C, 0x08] = .instr (.vpmaskmovqLoad128 1 2 (.base 0 .d0)) [] ∧
      decode [0xC4, 0x02, 0xA9, 0x8C, 0x4C, 0x63, 0x80] = .instr (.vpmaskmovqLoad128 9 10 (.sib 11 (some 12) 1 (.d8 0x80))) [] := by decide

theorem test_decode_vpmaskmovqLoad256 :
    decode [0xC4, 0xE2, 0xED, 0x8C, 0x08] = .instr (.vpmaskmovqLoad256 1 2 (.base 0 .d0)) [] ∧
      decode [0xC4, 0x02, 0xAD, 0x8C, 0x4C, 0x63, 0x80] = .instr (.vpmaskmovqLoad256 9 10 (.sib 11 (some 12) 1 (.d8 0x80))) [] := by decide

theorem test_decode_vpmaskmovdStore128 :
    decode [0xC4, 0xE2, 0x69, 0x8E, 0x08] = .instr (.vpmaskmovdStore128 (.base 0 .d0) 2 1) [] ∧
      decode [0xC4, 0x02, 0x29, 0x8E, 0x4C, 0x63, 0x80] = .instr (.vpmaskmovdStore128 (.sib 11 (some 12) 1 (.d8 0x80)) 10 9) [] := by decide

theorem test_decode_vpmaskmovdStore256 :
    decode [0xC4, 0xE2, 0x6D, 0x8E, 0x08] = .instr (.vpmaskmovdStore256 (.base 0 .d0) 2 1) [] ∧
      decode [0xC4, 0x02, 0x2D, 0x8E, 0x4C, 0x63, 0x80] = .instr (.vpmaskmovdStore256 (.sib 11 (some 12) 1 (.d8 0x80)) 10 9) [] := by decide

theorem test_decode_vpmaskmovqStore128 :
    decode [0xC4, 0xE2, 0xE9, 0x8E, 0x08] = .instr (.vpmaskmovqStore128 (.base 0 .d0) 2 1) [] ∧
      decode [0xC4, 0x02, 0xA9, 0x8E, 0x4C, 0x63, 0x80] = .instr (.vpmaskmovqStore128 (.sib 11 (some 12) 1 (.d8 0x80)) 10 9) [] := by decide

theorem test_decode_vpmaskmovqStore256 :
    decode [0xC4, 0xE2, 0xED, 0x8E, 0x08] = .instr (.vpmaskmovqStore256 (.base 0 .d0) 2 1) [] ∧
      decode [0xC4, 0x02, 0xAD, 0x8E, 0x4C, 0x63, 0x80] = .instr (.vpmaskmovqStore256 (.sib 11 (some 12) 1 (.d8 0x80)) 10 9) [] := by decide

theorem test_decode_vpsllvd128 :
    decode [0xC4, 0xE2, 0x69, 0x47, 0xCB] = .instr (.vpsllvd128 1 2 (.reg 3)) [] ∧
      decode [0xC4, 0x42, 0x29, 0x47, 0xCB] = .instr (.vpsllvd128 9 10 (.reg 11)) [] := by decide

theorem test_decode_vpsllvq128 :
    decode [0xC4, 0xE2, 0xE9, 0x47, 0xCB] = .instr (.vpsllvq128 1 2 (.reg 3)) [] ∧
      decode [0xC4, 0x42, 0xA9, 0x47, 0xCB] = .instr (.vpsllvq128 9 10 (.reg 11)) [] := by decide

theorem test_decode_vpsllvd256 :
    decode [0xC4, 0xE2, 0x6D, 0x47, 0xCB] = .instr (.vpsllvd256 1 2 (.reg 3)) [] ∧
      decode [0xC4, 0x42, 0x2D, 0x47, 0xCB] = .instr (.vpsllvd256 9 10 (.reg 11)) [] := by decide

theorem test_decode_vpsllvq256 :
    decode [0xC4, 0xE2, 0xED, 0x47, 0xCB] = .instr (.vpsllvq256 1 2 (.reg 3)) [] ∧
      decode [0xC4, 0x42, 0xAD, 0x47, 0xCB] = .instr (.vpsllvq256 9 10 (.reg 11)) [] := by decide

/-! ### Decoding: addressing shapes, #UD rows, refusals -/

/-- 95_test_vectors.md 2.1: the five addressing shapes. -/
theorem test_decode_addressing :
    decode [0xC4, 0xE2, 0x75, 0x47, 0x07] = .instr (.vpsllvd256 0 1 (.mem (.base 7 .d0))) [] ∧
      decode [0xC4, 0x62, 0x35, 0x47, 0x44, 0x88, 0x10] = .instr (.vpsllvd256 8 9 (.mem (.sib 0 (some 1) 2 (.d8 0x10)))) [] ∧
      decode [0xC4, 0x42, 0x35, 0x47, 0x45, 0x00] = .instr (.vpsllvd256 8 9 (.mem (.base 13 (.d8 0)))) [] ∧
      decode [0xC4, 0x42, 0x35, 0x47, 0x84, 0x24, 0x00, 0x01, 0x00, 0x00] =
        .instr (.vpsllvd256 8 9 (.mem (.sib 12 none 0 (.d32 0x100)))) [] ∧
      decode [0xC4, 0xE2, 0x75, 0x47, 0x05, 0x20, 0x00, 0x00, 0x00] = .instr (.vpsllvd256 0 1 (.mem (.ripRel 0x20))) [] := by
  decide

/-- 95_test_vectors.md 2.1: the longest instruction, 11 bytes, and what the encoder writes for it. -/
theorem test_decode_longest :
    decode [0xC4, 0xE3, 0x6D, 0x18, 0x8C, 0x88, 0x78, 0x56, 0x34, 0x12, 0x01] =
        .instr (.vinsertf128 1 2 (.mem (.sib 0 (some 1) 2 (.d32 0x12345678))) 1) [] ∧
      encode (.vinsertf128 1 2 (.mem (.sib 0 (some 1) 2 (.d32 0x12345678))) 1) =
        [0xC4, 0xE3, 0x6D, 0x18, 0x8C, 0x88, 0x78, 0x56, 0x34, 0x12, 0x01] := by decide

/-- R89, R93: `mod` = 00b and SIB.base = 101b is a 32-bit displacement without a base. -/
theorem test_decode_sib_without_base :
    decode [0xC4, 0xE2, 0x75, 0x47, 0x04, 0x25, 0x44, 0x33, 0x22, 0x11] =
      .instr (.vpsllvd256 0 1 (.mem (.sibNoBase none 0 0x11223344))) [] := by decide

/-- 95_test_vectors.md 1.4: the nine #UD encodings. -/
theorem test_decode_ud :
    decode [0xC4, 0xE3, 0x69, 0x38, 0xCB, 0x01] = .ud .vinserti128L0 ∧
      decode [0xC4, 0xE2, 0x7D, 0x5A, 0xD1] = .ud .vbroadcasti128Reg ∧
      decode [0xC4, 0xE2, 0x79, 0x5A, 0x10] = .ud .vbroadcasti128L0 ∧
      decode [0xC4, 0xE2, 0x75, 0x58, 0xD1] = .ud .broadcastVvvv ∧
      decode [0xC4, 0xE2, 0xFD, 0x78, 0xD1] = .ud .vpbroadcastW1 ∧
      decode [0xC4, 0xE2, 0x71, 0x36, 0xC2] = .ud .vpermdL0 ∧
      decode [0xC4, 0xE3, 0xF9, 0x01, 0xC1, 0x1B] = .ud .vpermpdL0 ∧
      decode [0xC4, 0xE2, 0x71, 0x16, 0xC2] = .ud .vpermpsL0 ∧
      decode [0xC4, 0xE3, 0xF9, 0x00, 0xC1, 0x1B] = .ud .vpermqL0 := by decide

/-- 95_test_vectors.md 2.10: encodings that are refused. -/
theorem test_decode_refused :
    decode [0xC4, 0xE3, 0x69, 0x18, 0xCB, 0x01] = .foreign (.unlisted 0xC4E36918) ∧
      decode [0xC4, 0xE2, 0x71, 0x2C, 0xC2] = .foreign (.unlisted 0xC4E2712C) ∧
      decode [0xC4, 0xE3, 0xED, 0x18, 0xCB, 0x01] = .foreign (.unlisted 0xC4E3ED18) ∧
      decode [0xC4, 0xE3, 0x75, 0x01, 0xC1, 0x00] = .foreign (.unlisted 0xC4E37501) ∧
      decode [0xC4, 0xE3, 0x75, 0x05, 0xC1, 0x01] = .foreign (.unlisted 0xC4E37505) ∧
      decode [0xC5, 0xFC, 0x28, 0xC1] = .foreign .twoByteVex ∧
      decode [0x66, 0xC4, 0xE2, 0x75, 0x36, 0xC2] = .foreign (.legacyPrefix 0x66) ∧
      decode [0x90] = .foreign (.firstByte 0x90) ∧
      decode [0xC4, 0xE2, 0x7D, 0x47] = .truncated ∧
      decode [0xC4, 0xE3, 0x6D, 0x18, 0xCB] = .truncated := by decide

/-! ### Effective addresses (R93), with gpr[i] = 1000h * (i + 1) -/

/-- A state whose general registers differ, at `rip` = 400000h. -/
def addressing : State :=
  { State.reset with rip := 0x400000#64, gpr := Vector.ofFn fun i => BitVec.ofNat 64 (0x1000 * (i.val + 1)) }

/-- 95_test_vectors.md 2.1, column EA. -/
theorem test_effAddr :
    effAddr (.base 7 .d0) 5 addressing = 0x8000#64 ∧
      effAddr (.sib 0 (some 1) 2 (.d8 0x10)) 7 addressing = 0x9010#64 ∧
      effAddr (.base 13 (.d8 0)) 6 addressing = 0xE000#64 ∧
      effAddr (.sib 12 none 0 (.d32 0x100)) 10 addressing = 0xD100#64 ∧
      effAddr (.ripRel 0x20) 9 addressing = 0x400029#64 := by decide

/-- R90, R93: displacements are signed; R72: addresses wrap. -/
theorem test_effAddr_signed :
    effAddr (.sib 11 (some 12) 1 (.d8 0x80)) 7 addressing = 0x25F80#64 ∧
      effAddr (.ripRel 0xFFFFFFF0) 9 addressing = 0x3FFFF9#64 ∧
      effAddr (.sibNoBase (some 0) 3 0xFFFF0000) 10 addressing = 0xFFFFFFFFFFFF8000#64 ∧
      effAddr (.base 0 (.d32 0xFFFFEFFF)) 9 addressing = 0xFFFFFFFFFFFFFFFF#64 := by decide

/-! ### One step of each instruction, with the values of 95_test_vectors.md 2.2 to 2.9 -/

/-- 95_test_vectors.md 2.2, imm8 = FFh: bits 7:1 ignored. -/
theorem test_step_vinsertf128 :
    ymmAfter (step (machine [0xC4, 0xE3, 0x6D, 0x18, 0xCB, 0xFF] [(2, V1), (3, V2)] [])) 1 =
      some 0x8F8E8D8C8B8A898887868584838281800F0E0D0C0B0A09080706050403020100#256 := by decide

/-- 95_test_vectors.md 2.2, imm8 = FEh: bits 7:1 ignored. -/
theorem test_step_vinserti128 :
    ymmAfter (step (machine [0xC4, 0xE3, 0x6D, 0x38, 0xCB, 0xFE] [(2, V1), (3, V2)] [])) 1 =
      some 0x1F1E1D1C1B1A191817161514131211108F8E8D8C8B8A89888786858483828180#256 := by decide

/-- 95_test_vectors.md 2.3, load, dword, 128; `ymm0` all ones before. -/
theorem test_step_vmaskmovpsLoad128 :
    ymmAfter (step (machine [0xC4, 0xE2, 0x71, 0x2C, 0x07] [(0, ones), (1, 0x7FFFFFFFFFFFFFFF0000000080000000#256)] (bytesFrom 32 0))) 0 =
      some 0x000000000B0A09080000000003020100#256 := by decide

/-- 95_test_vectors.md 2.3, load, dword, 256; `ymm0` all ones before. -/
theorem test_step_vmaskmovpsLoad256 :
    ymmAfter (step (machine [0xC4, 0xE2, 0x75, 0x2C, 0x07] [(0, ones), (1, 0xC00000000000000080000001000000007FFFFFFFFFFFFFFF0000000080000000#256)] (bytesFrom 32 0))) 0 =
      some 0x1F1E1D1C000000001716151400000000000000000B0A09080000000003020100#256 := by decide

/-- 95_test_vectors.md 2.3, load, qword, 128; `ymm0` all ones before. -/
theorem test_step_vmaskmovpdLoad128 :
    ymmAfter (step (machine [0xC4, 0xE2, 0x71, 0x2D, 0x07] [(0, ones), (1, 0x7FFFFFFFFFFFFFFF8000000000000000#256)] (bytesFrom 32 0))) 0 =
      some 0x00000000000000000706050403020100#256 := by decide

/-- 95_test_vectors.md 2.3, load, qword, 256; `ymm0` all ones before. -/
theorem test_step_vmaskmovpdLoad256 :
    ymmAfter (step (machine [0xC4, 0xE2, 0x75, 0x2D, 0x07] [(0, ones), (1, 0x00000000FFFFFFFFFFFFFFFF0000000080000000000000000000000000000000#256)] (bytesFrom 32 0))) 0 =
      some 0x000000000000000017161514131211100F0E0D0C0B0A09080000000000000000#256 := by decide

/-- 95_test_vectors.md 2.3, store, dword, 128. -/
theorem test_step_vmaskmovpsStore128 :
    bytesAfter (step (machine [0xC4, 0xE2, 0x71, 0x2E, 0x17] [(1, 0x7FFFFFFFFFFFFFFF0000000080000000#256), (2, V2)] (bytesFrom 32 0))) 17 =
      some [0x80, 0x81, 0x82, 0x83, 0x04, 0x05, 0x06, 0x07, 0x88, 0x89, 0x8A, 0x8B, 0x0C, 0x0D, 0x0E, 0x0F, 0x10] := by decide

/-- 95_test_vectors.md 2.3, store, dword, 256. -/
theorem test_step_vmaskmovpsStore256 :
    bytesAfter (step (machine [0xC4, 0xE2, 0x75, 0x2E, 0x17] [(1, 0xC00000000000000080000001000000007FFFFFFFFFFFFFFF0000000080000000#256), (2, V2)] (bytesFrom 32 0))) 32 =
      some [0x80, 0x81, 0x82, 0x83, 0x04, 0x05, 0x06, 0x07, 0x88, 0x89, 0x8A, 0x8B, 0x0C, 0x0D, 0x0E, 0x0F, 0x10, 0x11, 0x12, 0x13, 0x94, 0x95, 0x96, 0x97, 0x18, 0x19, 0x1A, 0x1B, 0x9C, 0x9D, 0x9E, 0x9F] := by decide

/-- 95_test_vectors.md 2.3, store, qword, 128. -/
theorem test_step_vmaskmovpdStore128 :
    bytesAfter (step (machine [0xC4, 0xE2, 0x71, 0x2F, 0x17] [(1, 0x7FFFFFFFFFFFFFFF8000000000000000#256), (2, V2)] (bytesFrom 32 0))) 17 =
      some [0x80, 0x81, 0x82, 0x83, 0x84, 0x85, 0x86, 0x87, 0x08, 0x09, 0x0A, 0x0B, 0x0C, 0x0D, 0x0E, 0x0F, 0x10] := by decide

/-- 95_test_vectors.md 2.3, store, qword, 256. -/
theorem test_step_vmaskmovpdStore256 :
    bytesAfter (step (machine [0xC4, 0xE2, 0x75, 0x2F, 0x17] [(1, 0x00000000FFFFFFFFFFFFFFFF0000000080000000000000000000000000000000#256), (2, V2)] (bytesFrom 32 0))) 32 =
      some [0x00, 0x01, 0x02, 0x03, 0x04, 0x05, 0x06, 0x07, 0x88, 0x89, 0x8A, 0x8B, 0x8C, 0x8D, 0x8E, 0x8F, 0x90, 0x91, 0x92, 0x93, 0x94, 0x95, 0x96, 0x97, 0x18, 0x19, 0x1A, 0x1B, 0x1C, 0x1D, 0x1E, 0x1F] := by decide

/-- 95_test_vectors.md 2.4, imm8 = F5h; `ymm1` all ones before. -/
theorem test_step_vpblendd128 :
    ymmAfter (step (machine [0xC4, 0xE3, 0x69, 0x02, 0xCB, 0xF5] [(1, ones), (2, V1), (3, V2)] [])) 1 =
      some 0x0F0E0D0C8B8A89880706050483828180#256 := by decide

/-- 95_test_vectors.md 2.4, imm8 = A5h. -/
theorem test_step_vpblendd256 :
    ymmAfter (step (machine [0xC4, 0xE3, 0x6D, 0x02, 0xCB, 0xA5] [(2, V1), (3, V2)] [])) 1 =
      some 0x9F9E9D9C1B1A191897969594131211100F0E0D0C8B8A89880706050483828180#256 := by decide

/-- 95_test_vectors.md 2.5, memory source; `ymm2` all ones before. -/
theorem test_step_vpbroadcastb128 :
    ymmAfter (step (machine [0xC4, 0xE2, 0x79, 0x78, 0x10] [(2, ones)] (bytesFrom 32 0x80))) 2 =
      some 0x80808080808080808080808080808080#256 := by decide

/-- 95_test_vectors.md 2.5, register source. -/
theorem test_step_vpbroadcastb256 :
    ymmAfter (step (machine [0xC4, 0xE2, 0x7D, 0x78, 0xD1] [(1, V2)] [])) 2 =
      some 0x8080808080808080808080808080808080808080808080808080808080808080#256 := by decide

/-- 95_test_vectors.md 2.5, memory source; `ymm2` all ones before. -/
theorem test_step_vpbroadcastw128 :
    ymmAfter (step (machine [0xC4, 0xE2, 0x79, 0x79, 0x10] [(2, ones)] (bytesFrom 32 0x80))) 2 =
      some 0x81808180818081808180818081808180#256 := by decide

/-- 95_test_vectors.md 2.5, register source. -/
theorem test_step_vpbroadcastw256 :
    ymmAfter (step (machine [0xC4, 0xE2, 0x7D, 0x79, 0xD1] [(1, V2)] [])) 2 =
      some 0x8180818081808180818081808180818081808180818081808180818081808180#256 := by decide

/-- 95_test_vectors.md 2.5, memory source; `ymm2` all ones before. -/
theorem test_step_vpbroadcastd128 :
    ymmAfter (step (machine [0xC4, 0xE2, 0x79, 0x58, 0x10] [(2, ones)] (bytesFrom 32 0x80))) 2 =
      some 0x83828180838281808382818083828180#256 := by decide

/-- 95_test_vectors.md 2.5, register source. -/
theorem test_step_vpbroadcastd256 :
    ymmAfter (step (machine [0xC4, 0xE2, 0x7D, 0x58, 0xD1] [(1, V2)] [])) 2 =
      some 0x8382818083828180838281808382818083828180838281808382818083828180#256 := by decide

/-- 95_test_vectors.md 2.5, memory source; `ymm2` all ones before. -/
theorem test_step_vpbroadcastq128 :
    ymmAfter (step (machine [0xC4, 0xE2, 0x79, 0x59, 0x10] [(2, ones)] (bytesFrom 32 0x80))) 2 =
      some 0x87868584838281808786858483828180#256 := by decide

/-- 95_test_vectors.md 2.5, register source. -/
theorem test_step_vpbroadcastq256 :
    ymmAfter (step (machine [0xC4, 0xE2, 0x7D, 0x59, 0xD1] [(1, V2)] [])) 2 =
      some 0x8786858483828180878685848382818087868584838281808786858483828180#256 := by decide

/-- 95_test_vectors.md 2.5. -/
theorem test_step_vbroadcasti128 :
    ymmAfter (step (machine [0xC4, 0xE2, 0x7D, 0x5A, 0x10] [] (bytesFrom 32 0x80))) 2 =
      some 0x8F8E8D8C8B8A898887868584838281808F8E8D8C8B8A89888786858483828180#256 := by decide

/-- 95_test_vectors.md 2.6, second row. -/
theorem test_step_vpermd :
    ymmAfter (step (machine [0xC4, 0xE2, 0x75, 0x36, 0xC2] [(1, 0x00000005000000000000000080000007000000030000000300000009FFFFFFF8#256), (2, V1)] [])) 0 =
      some 0x1716151403020100030201001F1E1D1C0F0E0D0C0F0E0D0C0706050403020100#256 := by decide

/-- 95_test_vectors.md 2.6, imm8 = 39h. -/
theorem test_step_vpermpd :
    ymmAfter (step (machine [0xC4, 0xE3, 0xFD, 0x01, 0xC1, 0x39] [(1, V1)] [])) 0 =
      some 0x07060504030201001F1E1D1C1B1A191817161514131211100F0E0D0C0B0A0908#256 := by decide

/-- 95_test_vectors.md 2.6, first row. -/
theorem test_step_vpermps :
    ymmAfter (step (machine [0xC4, 0xE2, 0x75, 0x16, 0xC2] [(1, 0x0000000000000001000000020000000300000004000000050000000600000007#256), (2, V1)] [])) 0 =
      some 0x03020100070605040B0A09080F0E0D0C13121110171615141B1A19181F1E1D1C#256 := by decide

/-- 95_test_vectors.md 2.6, imm8 = 1Bh. -/
theorem test_step_vpermq :
    ymmAfter (step (machine [0xC4, 0xE3, 0xFD, 0x00, 0xC1, 0x1B] [(1, V1)] [])) 0 =
      some 0x07060504030201000F0E0D0C0B0A090817161514131211101F1E1D1C1B1A1918#256 := by decide

/-- 95_test_vectors.md 2.7, imm8 = 12h. -/
theorem test_step_vperm2i128 :
    ymmAfter (step (machine [0xC4, 0xE3, 0x75, 0x46, 0xC2, 0x12] [(1, V1), (2, V2)] [])) 0 =
      some 0x1F1E1D1C1B1A191817161514131211108F8E8D8C8B8A89888786858483828180#256 := by decide

/-- 95_test_vectors.md 2.8, xmm, variable, second row; `ymm0` all ones before. -/
theorem test_step_vpermilpdVar128 :
    ymmAfter (step (machine [0xC4, 0xE2, 0x71, 0x0D, 0xC2] [(0, ones), (1, V1), (2, 0x0000000000000001FFFFFFFFFFFFFFFD#256)] [])) 0 =
      some 0x07060504030201000706050403020100#256 := by decide

/-- 95_test_vectors.md 2.8, ymm, variable, second row. -/
theorem test_step_vpermilpdVar256 :
    ymmAfter (step (machine [0xC4, 0xE2, 0x75, 0x0D, 0xC2] [(1, V1), (2, 0x0000000000000000000000000000000200000000000000000000000000000002#256)] [])) 0 =
      some 0x17161514131211101F1E1D1C1B1A191807060504030201000F0E0D0C0B0A0908#256 := by decide

/-- 95_test_vectors.md 2.8, xmm, imm8 = FDh. -/
theorem test_step_vpermilpdImm128 :
    ymmAfter (step (machine [0xC4, 0xE3, 0x79, 0x05, 0xC1, 0xFD] [(0, ones), (1, V1)] [])) 0 =
      some 0x07060504030201000F0E0D0C0B0A0908#256 := by decide

/-- 95_test_vectors.md 2.8, ymm, imm8 = 06h. -/
theorem test_step_vpermilpdImm256 :
    ymmAfter (step (machine [0xC4, 0xE3, 0x7D, 0x05, 0xC1, 0x06] [(1, V1)] [])) 0 =
      some 0x17161514131211101F1E1D1C1B1A19180F0E0D0C0B0A09080706050403020100#256 := by decide

/-- 95_test_vectors.md 2.8, xmm, variable, second row. -/
theorem test_step_vpermilpsVar128 :
    ymmAfter (step (machine [0xC4, 0xE2, 0x71, 0x0C, 0xC2] [(0, ones), (1, V1), (2, 0x000000070000000680000001FFFFFFFC#256)] [])) 0 =
      some 0x0F0E0D0C0B0A09080706050403020100#256 := by decide

/-- 95_test_vectors.md 2.8, xmm, imm8 = B1h. -/
theorem test_step_vpermilpsImm128 :
    ymmAfter (step (machine [0xC4, 0xE3, 0x79, 0x04, 0xC1, 0xB1] [(0, ones), (1, V1)] [])) 0 =
      some 0x0B0A09080F0E0D0C0302010007060504#256 := by decide

/-- 95_test_vectors.md 2.8, ymm, variable. -/
theorem test_step_vpermilpsVar256 :
    ymmAfter (step (machine [0xC4, 0xE2, 0x75, 0x0C, 0xC2] [(1, V1), (2, 0x0000000300000003000000000000000000000000000000010000000200000003#256)] [])) 0 =
      some 0x1F1E1D1C1F1E1D1C131211101312111003020100070605040B0A09080F0E0D0C#256 := by decide

/-- 95_test_vectors.md 2.8, ymm, imm8 = 1Bh. -/
theorem test_step_vpermilpsImm256 :
    ymmAfter (step (machine [0xC4, 0xE3, 0x7D, 0x04, 0xC1, 0x1B] [(1, V1)] [])) 0 =
      some 0x13121110171615141B1A19181F1E1D1C03020100070605040B0A09080F0E0D0C#256 := by decide

/-- 95_test_vectors.md 2.7, imm8 = 4Ch: bits 2 and 6 ignored. -/
theorem test_step_vperm2f128 :
    ymmAfter (step (machine [0xC4, 0xE3, 0x75, 0x06, 0xC2, 0x4C] [(1, V1), (2, V2)] [])) 0 =
      some 0x0F0E0D0C0B0A0908070605040302010000000000000000000000000000000000#256 := by decide

/-- 95_test_vectors.md 2.3, load, dword, 128; `ymm0` all ones before. -/
theorem test_step_vpmaskmovdLoad128 :
    ymmAfter (step (machine [0xC4, 0xE2, 0x71, 0x8C, 0x07] [(0, ones), (1, 0x7FFFFFFFFFFFFFFF0000000080000000#256)] (bytesFrom 32 0))) 0 =
      some 0x000000000B0A09080000000003020100#256 := by decide

/-- 95_test_vectors.md 2.3, load, dword, 256; `ymm0` all ones before. -/
theorem test_step_vpmaskmovdLoad256 :
    ymmAfter (step (machine [0xC4, 0xE2, 0x75, 0x8C, 0x07] [(0, ones), (1, 0xC00000000000000080000001000000007FFFFFFFFFFFFFFF0000000080000000#256)] (bytesFrom 32 0))) 0 =
      some 0x1F1E1D1C000000001716151400000000000000000B0A09080000000003020100#256 := by decide

/-- 95_test_vectors.md 2.3, load, qword, 128; `ymm0` all ones before. -/
theorem test_step_vpmaskmovqLoad128 :
    ymmAfter (step (machine [0xC4, 0xE2, 0xF1, 0x8C, 0x07] [(0, ones), (1, 0x7FFFFFFFFFFFFFFF8000000000000000#256)] (bytesFrom 32 0))) 0 =
      some 0x00000000000000000706050403020100#256 := by decide

/-- 95_test_vectors.md 2.3, load, qword, 256; `ymm0` all ones before. -/
theorem test_step_vpmaskmovqLoad256 :
    ymmAfter (step (machine [0xC4, 0xE2, 0xF5, 0x8C, 0x07] [(0, ones), (1, 0x00000000FFFFFFFFFFFFFFFF0000000080000000000000000000000000000000#256)] (bytesFrom 32 0))) 0 =
      some 0x000000000000000017161514131211100F0E0D0C0B0A09080000000000000000#256 := by decide

/-- 95_test_vectors.md 2.3, store, dword, 128. -/
theorem test_step_vpmaskmovdStore128 :
    bytesAfter (step (machine [0xC4, 0xE2, 0x71, 0x8E, 0x17] [(1, 0x7FFFFFFFFFFFFFFF0000000080000000#256), (2, V2)] (bytesFrom 32 0))) 17 =
      some [0x80, 0x81, 0x82, 0x83, 0x04, 0x05, 0x06, 0x07, 0x88, 0x89, 0x8A, 0x8B, 0x0C, 0x0D, 0x0E, 0x0F, 0x10] := by decide

/-- 95_test_vectors.md 2.3, store, dword, 256. -/
theorem test_step_vpmaskmovdStore256 :
    bytesAfter (step (machine [0xC4, 0xE2, 0x75, 0x8E, 0x17] [(1, 0xC00000000000000080000001000000007FFFFFFFFFFFFFFF0000000080000000#256), (2, V2)] (bytesFrom 32 0))) 32 =
      some [0x80, 0x81, 0x82, 0x83, 0x04, 0x05, 0x06, 0x07, 0x88, 0x89, 0x8A, 0x8B, 0x0C, 0x0D, 0x0E, 0x0F, 0x10, 0x11, 0x12, 0x13, 0x94, 0x95, 0x96, 0x97, 0x18, 0x19, 0x1A, 0x1B, 0x9C, 0x9D, 0x9E, 0x9F] := by decide

/-- 95_test_vectors.md 2.3, store, qword, 128. -/
theorem test_step_vpmaskmovqStore128 :
    bytesAfter (step (machine [0xC4, 0xE2, 0xF1, 0x8E, 0x17] [(1, 0x7FFFFFFFFFFFFFFF8000000000000000#256), (2, V2)] (bytesFrom 32 0))) 17 =
      some [0x80, 0x81, 0x82, 0x83, 0x84, 0x85, 0x86, 0x87, 0x08, 0x09, 0x0A, 0x0B, 0x0C, 0x0D, 0x0E, 0x0F, 0x10] := by decide

/-- 95_test_vectors.md 2.3, store, qword, 256. -/
theorem test_step_vpmaskmovqStore256 :
    bytesAfter (step (machine [0xC4, 0xE2, 0xF5, 0x8E, 0x17] [(1, 0x00000000FFFFFFFFFFFFFFFF0000000080000000000000000000000000000000#256), (2, V2)] (bytesFrom 32 0))) 32 =
      some [0x00, 0x01, 0x02, 0x03, 0x04, 0x05, 0x06, 0x07, 0x88, 0x89, 0x8A, 0x8B, 0x8C, 0x8D, 0x8E, 0x8F, 0x90, 0x91, 0x92, 0x93, 0x94, 0x95, 0x96, 0x97, 0x18, 0x19, 0x1A, 0x1B, 0x1C, 0x1D, 0x1E, 0x1F] := by decide

/-- 95_test_vectors.md 2.9; the sources have bits above 127. -/
theorem test_step_vpsllvd128 :
    ymmAfter (step (machine [0xC4, 0xE2, 0x71, 0x47, 0xC2] [(1, 0x00000003FFFFFFFF00000001DEADBEEF0000000112345678FFFFFFFF80000001#256), (2, 0x80000000FFFFFFFF00000021000000200000001F000000040000000100000000#256)] [])) 0 =
      some 0x8000000023456780FFFFFFFE80000001#256 := by decide

/-- 95_test_vectors.md 2.9, third qword row: a count of 2^32. -/
theorem test_step_vpsllvq128 :
    ymmAfter (step (machine [0xC4, 0xE2, 0xF1, 0x47, 0xC2] [(1, 0x00000000000000010123456789ABCDEF#256), (2, 0x00000001000000000000000000000004#256)] [])) 0 =
      some 0x0000000000000000123456789ABCDEF0#256 := by decide

/-- 95_test_vectors.md 2.9. -/
theorem test_step_vpsllvd256 :
    ymmAfter (step (machine [0xC4, 0xE2, 0x75, 0x47, 0xC2] [(1, 0x00000003FFFFFFFF00000001DEADBEEF0000000112345678FFFFFFFF80000001#256), (2, 0x80000000FFFFFFFF00000021000000200000001F000000040000000100000000#256)] [])) 0 =
      some 0x000000000000000000000000000000008000000023456780FFFFFFFE80000001#256 := by decide

/-- 95_test_vectors.md 2.9. -/
theorem test_step_vpsllvq256 :
    ymmAfter (step (machine [0xC4, 0xE2, 0xF5, 0x47, 0xC2] [(1, 0x00000000000000010123456789ABCDEFFFFFFFFFFFFFFFFF8000000000000001#256), (2, 0x00000001000000000000000000000040000000000000003F0000000000000001#256)] [])) 0 =
      some 0x0000000000000000000000000000000080000000000000000000000000000002#256 := by decide

/-! ### Sources before destinations, sequencing -/

/-- 95_test_vectors.md 2.2: all three registers the same. -/
theorem test_sources_read_first :
    ymmAfter (step (machine [0xC4, 0xE3, 0x6D, 0x18, 0xD2, 0x01] [(2, V1)] [])) 2 =
      some 0x0F0E0D0C0B0A090807060504030201000F0E0D0C0B0A09080706050403020100#256 := by decide

/-- R25: `rip` moves past the instruction's bytes. -/
theorem test_rip_advances :
    ripAfter (step (machine [0xC4, 0xE2, 0x75, 0x47, 0x44, 0x88, 0x10] [] [])) = some 0x1007#64 := by decide

/-! ### Faults -/

/-- 95_test_vectors.md 2.10: an encoding of R101 raises #UD and changes nothing. -/
theorem test_ud_by_encoding :
    udState (step (machine [0xC4, 0xE2, 0x71, 0x36, 0xC2] [(0, V1)] [])) =
      some (machine [0xC4, 0xE2, 0x71, 0x36, 0xC2] [(0, V1)] []) := by decide

/-- `has_AVX2` false. -/
def withoutAvx2 (s : State) : State := withLaunch s fun l => { l with hasAVX2 := false }

/-- 95_test_vectors.md 2.10: VPERMD without `has_AVX2`; VINSERTF128 then still completes. -/
theorem test_ud_by_feature :
    udState (step (withoutAvx2 (machine [0xC4, 0xE2, 0x75, 0x36, 0xC2] [] []))) =
        some (withoutAvx2 (machine [0xC4, 0xE2, 0x75, 0x36, 0xC2] [] [])) ∧
      completes (step (withoutAvx2 (machine [0xC4, 0xE3, 0x6D, 0x18, 0xCB, 0x01] [] []))) = true := by decide

/-- 95_test_vectors.md 2.10: a read that is not accessible. -/
theorem test_read_fault :
    faultOf (step (onePage (machine [0xC4, 0xE2, 0x75, 0x47, 0x07] [] []))) = some (0x2000#64, 32, .read) ∧
      stateAfterFault (step (onePage (machine [0xC4, 0xE2, 0x75, 0x47, 0x07] [] []))) =
        some (onePage (machine [0xC4, 0xE2, 0x75, 0x47, 0x07] [] [])) := by decide

/-- 95_test_vectors.md 2.10: a fetch that is not accessible. -/
theorem test_fetch_fault :
    faultOf (step (withLaunch (machine [0xC4, 0xE2, 0x75, 0x47, 0x07] [] []) fun l => { l with regions := [] })) =
      some (0x1000#64, 5, .fetch) := by decide

/-- Program P4's start: `gpr[7]` = 1FF8h. -/
def p4 (text : List Byte) (mask : Ymm) : State :=
  onePage { machine text [(0, V1), (1, mask), (2, V2)] [] with gpr := Vector.replicate 16 0x1FF8#64 }

/-- 95_test_vectors.md P4, runs A and C: elements outside the page, masked off, do not fault. -/
theorem test_mask_suppresses_faults :
    completes (step (p4 [0xC4, 0xE2, 0x75, 0x2C, 0x07] 0x80000000FFFFFFFF#256)) = true ∧
      ymmAfter (step (p4 [0xC4, 0xE2, 0x75, 0x2C, 0x07] 0)) 0 = some 0 := by decide

/-- 95_test_vectors.md P4, run B: the third element is enabled and not accessible. -/
theorem test_masked_load_fault :
    faultOf (step (p4 [0xC4, 0xE2, 0x75, 0x2C, 0x07] 0x800000008000000080000000#256)) = some (0x2000#64, 4, .read) ∧
      stateAfterFault (step (p4 [0xC4, 0xE2, 0x75, 0x2C, 0x07] 0x800000008000000080000000#256)) =
        some (p4 [0xC4, 0xE2, 0x75, 0x2C, 0x07] 0x800000008000000080000000#256) := by decide

/-- 95_test_vectors.md P4, run D: which accessible elements were stored is a free value; what is reported is not. -/
theorem test_masked_store_fault :
    faultOf (step (p4 [0xC4, 0xE2, 0x75, 0x2E, 0x17] 0x80000000000000008000000080000000#256)) =
      some (0x2004#64, 4, .write) := by decide

/-! ### Refusals -/

/-- 95_test_vectors.md P6. -/
theorem test_texts_refused :
    refusalOf (step (machine [0xC4, 0xE3, 0x69, 0x18, 0xCB, 0x01] [] [])) = some (.notOfSpec (.unlisted 0xC4E36918)) ∧
      refusalOf (step (machine [0xC4, 0xE2, 0x7D, 0x47] [] [])) = some .textEndsInside ∧
      refusalOf (step (machine [0xC5, 0xFC, 0x28, 0xC1] [] [])) = some (.notOfSpec .twoByteVex) := by decide

/-- R64, R70: a masked move aimed at I/O, with every element enabled and with none; a store into the text; a plain read of I/O (log
entry 10). -/
theorem test_launch_refusals :
    refusalOf (step (ioPage (machine [0xC4, 0xE2, 0x75, 0x2C, 0x07] [(1, ~~~0)] []))) = some .maskedDeviceAccess ∧
      refusalOf (step (ioPage (machine [0xC4, 0xE2, 0x75, 0x2E, 0x07] [] []))) = some .maskedDeviceAccess ∧
      refusalOf (step (machine [0xC4, 0xE2, 0x75, 0x2E, 0x15, 0, 0, 0, 0] [(1, ~~~0)] [])) ≠ some .storeToText ∧
      refusalOf (step (machine [0xC4, 0xE2, 0x75, 0x2E, 0x15, 0xF8, 0xFF, 0xFF, 0xFF] [(1, ~~~0)] [])) = some .storeToText ∧
      refusalOf (step (ioPage (machine [0xC4, 0xE2, 0x75, 0x47, 0x07] [] []))) = some .ioRead := by decide

/-- A text that fills the address space: VPSLLVD ymm0, ymm1, ymm7 at 0, zeros after it. -/
def fullText : State :=
  withLaunch { State.reset with rip := 0, mem := Memory.placeBytes [] 0 [0xC4, 0xE2, 0x75, 0x47, 0xC7] } fun l =>
    { l with textBase := 0, textLen := 2 ^ 64 }

/-- VPSLLVD ymm0, ymm1, ymm7 in the last five bytes of the address space. -/
def topText : State := loadText { State.reset with rip := 0xFFFFFFFFFFFFFFFB#64 } [0xC4, 0xE2, 0x75, 0x47, 0xC7]

/-- R261 (b): `rip0 + L` = 2^64 is admitted, for a text of five bytes and for one of 2^64; the end is past the last byte only. -/
theorem test_text_to_the_top :
    ripAfter (step topText) = some 0#64 ∧ refusalOf (andThen (step topText) step) = some .runComplete ∧
      ripAfter (step fullText) = some 5#64 ∧
      refusalOf (step { fullText with ripCarry := true }) = some .runComplete := by decide

/-- R26, R263: a text across the top of the address space, the end of a text, `rip` outside the text. -/
theorem test_ends_of_text :
    refusalOf (step (loadText { State.reset with rip := 0xFFFFFFFFFFFFFFFE#64 } [0xC4, 0xE2, 0x75, 0x47, 0x07])) = some .textWraps ∧
      refusalOf (step State.reset) = some .runComplete ∧
      refusalOf (step { machine [0xC4, 0xE2, 0x75, 0x47, 0xC7] [] [] with rip := 0x1006#64 }) = some .outsideText := by decide

/-! ### Reset and table words -/

theorem test_reset_inv : State.reset.Inv := by decide

theorem test_reset_memory_wf : State.reset.mem.wf = true := by decide

/-- Row 1 of opcode_table.json with every free bit 0: VEX.R, VEX.X, VEX.B and vvvv are stored complemented. -/
theorem test_table_word : decodeTableWord 32 0xC4030518 = some (.vinsertf128 8 15 (.mem (.base 8 .d0)) 0) := by decide

theorem test_table_word_runs : ripAfter (step (State.reset.withFetchWord 32 0xC4030518)) = some 0xFFFFFFF6#64 := by decide

/-- Bits 32 and up are the bytes after the decode key. -/
theorem test_table_word_modrm : decodeTableWord 48 0x01CBC4E36D18 = some (.vinsertf128 1 2 (.reg 3) 1) := by decide

/-! ### Witnesses: for every obligation with hypotheses, concrete states and operands that meet them -/

/-- VPSLLVD ymm0, ymm1, [rdi]. -/
def shiftFromMemory : List Byte := [0xC4, 0xE2, 0x75, 0x47, 0x07]

/-- VMASKMOVPS ymm0, ymm1, [rdi]. -/
def maskedLoadText : List Byte := [0xC4, 0xE2, 0x75, 0x2C, 0x07]

/-- VMASKMOVPS [rdi], ymm1, ymm2. -/
def maskedStoreText : List Byte := [0xC4, 0xE2, 0x75, 0x2E, 0x17]

/-- A state that is about to run the shift, with ordinary memory. -/
def plainState : State := machine shiftFromMemory [(1, ones), (2, V2)] (bytesFrom 32 0)

/-- The same with alignment checking enabled; the operand at 2000h is aligned. -/
def alignedState : State := checking plainState

/-- Without alignment checking, every general register at 2001h. -/
def misalignedState : State := { plainState with gpr := Vector.replicate 16 0x2001#64 }

/-- The masked load, and the masked store, of the tests, as `maskedMoveOf` reads them. -/
def theLoad : MaskedMove := ⟨256, 32, 1, .base 7 .d0, .read⟩
def theStore : MaskedMove := ⟨256, 32, 1, .base 7 .d0, .write⟩

theorem theLoad_eq : maskedMoveOf (.vmaskmovpsLoad256 0 1 (.base 7 .d0)) = some theLoad := rfl
theorem theStore_eq : maskedMoveOf (.vmaskmovpsStore256 (.base 7 .d0) 1 2) = some theStore := rfl

/-! #### Encoding -/

theorem witness_DecodeOfEncode :
    (Instr.vinsertf128 9 10 (.reg 11) 1).wf = true ∧ (Instr.vmaskmovpsStore256 (.sib 11 (some 12) 1 (.d8 0x80)) 10 9).wf = true ∧
      (Instr.vpermd 1 2 (.mem (.ripRel 0xFFFFFFF0))).wf = true ∧ (Instr.vpermq 15 (.mem (.sibNoBase none 3 5)) 0xFF).wf = true ∧
      (Instr.vbroadcasti128 0 (.base 13 (.d32 7))).wf = true := by decide

theorem witness_DecodeConsumesLength :
    decode [0xC4, 0xE3, 0x6D, 0x18, 0x8C, 0x88, 0x78, 0x56, 0x34, 0x12, 0x01, 0x90] =
      .instr (.vinsertf128 1 2 (.mem (.sib 0 (some 1) 2 (.d32 0x12345678))) 1) [0x90] := by decide

theorem witness_ProperInitialPartIsTruncated :
    (Instr.vinsertf128 1 2 (.mem (.sib 0 (some 1) 2 (.d32 5))) 1).wf = true ∧
      0 < (Instr.vinsertf128 1 2 (.mem (.sib 0 (some 1) 2 (.d32 5))) 1).length ∧
      10 < (Instr.vinsertf128 1 2 (.mem (.sib 0 (some 1) 2 (.d32 5))) 1).length := by decide

theorem witness_RowsAreDisjoint : UdRow.hit (Vex.ofBytes 0xE2 0x71) 0x36 0b11 .vpermdL0 = true := by decide

theorem witness_RowsMatchDecodeKeys : (opcodeTable.zip tableKeys).length = 47 := by decide

theorem witness_UdEncodings :
    decode (0xC4 :: 0xE2 :: 0x71 :: 0x36 :: 0xC2 :: []) = .ud .vpermdL0 ∧
      udKeyHits (decodeKey 0xE2 0x71 0x36) ((0xC2 : Byte).extractLsb' 6 2) .vpermdL0 = true ∧
      (machine [0xC4, 0xE2, 0x71, 0x36, 0xC2] [] []).AtText ∧
      fetchWindow (machine [0xC4, 0xE2, 0x71, 0x36, 0xC2] [] []) = 0xC4 :: 0xE2 :: 0x71 :: 0x36 :: 0xC2 :: [] ∧
      (machine [0xC4, 0xE2, 0x71, 0x36, 0xC2] [] []).launch.accessible 0x1000 5 .fetch = true := by decide

theorem witness_ModSelectsRegisterOrMemory_register :
    decode (0xC4 :: 0xE2 :: 0x75 :: 0x47 :: 0xC7 :: []) = .instr (.vpsllvd256 0 1 (.reg 7)) [] := by decide

theorem witness_ModSelectsRegisterOrMemory_memory :
    decode (0xC4 :: 0xE2 :: 0x75 :: 0x2C :: 0x07 :: []) = .instr (.vmaskmovpsLoad256 0 1 (.base 7 .d0)) [] ∧
      (maskedMoveOf (.vmaskmovpsLoad256 0 1 (.base 7 .d0))).isSome = true := by decide

theorem witness_ModSelectsRegisterOrMemory_ud :
    (Vex.ofBytes 0xE2 0x7D).hasKey 0x5A ⟨.m0F38, 0, 1, 0x5A⟩ = true ∧ (0xD1 : Byte).extractLsb' 6 2 = 0b11#2 := by decide

theorem witness_ForeignEncodingsRefused_first : (0xC5 : Byte) ≠ 0xC4 := by decide

theorem witness_ForeignEncodingsRefused_unlisted :
    (∀ row, udKeyHits (decodeKey 0xE3 0x69 0x18) ((0xCB : Byte).extractLsb' 6 2) row = false) ∧
      ∀ t ∈ tableKeys, t.hits (decodeKey 0xE3 0x69 0x18) ((0xCB : Byte).extractLsb' 6 2) = false :=
  ⟨by intro row; cases row <;> decide, by decide⟩

theorem witness_ForeignEncodingsRefused_step :
    (machine [0xC4, 0xE3, 0x69, 0x18, 0xCB, 0x01] [] []).AtText ∧
      decode (fetchWindow (machine [0xC4, 0xE3, 0x69, 0x18, 0xCB, 0x01] [] [])) = .foreign (.unlisted 0xC4E36918) ∧
      (machine [0xC4, 0xE3, 0x69, 0x18, 0xCB, 0x01] [] []).launch.accessible 0x1000 5 .fetch = true := by decide

theorem witness_TableWordRuns :
    State.reset.mem.wf = true ∧ State.reset.rip.toNat + 11 ≤ 2 ^ 64 ∧
      decodeTableWord 32 0xC4030518 = some (.vinsertf128 8 15 (.mem (.base 8 .d0)) 0) := by decide

/-- The highest place for a table word, and one where nothing is fetchable before the load. -/
theorem witness_TableWordRuns_boundary :
    ({ State.reset with rip := 0xFFFFFFFFFFFFFFF5#64 } : State).rip.toNat + 11 = 2 ^ 64 ∧
      (withLaunch State.reset fun l => { l with regions := [] }).launch.accessible State.reset.rip 1 .fetch = false ∧
      (withLaunch State.reset fun l => { l with regions := [] }).rip.toNat + 11 ≤ 2 ^ 64 := by
  decide

/-! #### The step and runs -/

theorem witness_StepRunsDecodedInstruction :
    plainState.AtText ∧
      decode (fetchWindow plainState) = .instr (.vpsllvd256 0 1 (.mem (.base 7 .d0))) [] ∧
      plainState.launch.accessible plainState.rip 5 .fetch = true := by decide

theorem witness_StepRunsEncodedText :
    (Instr.vpsllvd256 0 1 (.mem (.base 7 .d0))).wf = true ∧ plainState.AtText ∧ plainState.ripNat + 5 ≤ plainState.launch.textEnd ∧
      plainState.mem.readBytes plainState.rip 5 = encode (.vpsllvd256 0 1 (.mem (.base 7 .d0))) ∧
      plainState.launch.accessible plainState.rip 5 .fetch = true := by decide

/-- The same of a text of 2^64 bytes. -/
theorem witness_StepRunsEncodedText_full :
    (Instr.vpsllvd256 0 1 (.reg 7)).wf = true ∧ fullText.AtText ∧ fullText.ripNat + 5 ≤ fullText.launch.textEnd ∧
      fullText.mem.readBytes fullText.rip 5 = encode (.vpsllvd256 0 1 (.reg 7)) ∧
      fullText.launch.accessible fullText.rip 5 .fetch = true := by decide

theorem witness_completed_step : ∃ t, step plainState = .next t := exists_next (by decide)

theorem witness_StepKeepsInvariant : plainState.Inv ∧ ∃ t, step plainState = .next t :=
  ⟨by decide, witness_completed_step⟩

theorem witness_StoresWriteMemoryOthersOneRegister :
    (∃ t, exec (.vmaskmovpsStore256 (.base 7 .d0) 1 2) plainState = .next t) ∧
      isStore (.vmaskmovpsStore256 (.base 7 .d0) 1 2) = true ∧
      (∃ t, exec (.vpsllvd256 0 1 (.mem (.base 7 .d0))) plainState = .next t) ∧
      isStore (.vpsllvd256 0 1 (.mem (.base 7 .d0))) = false ∧ (1 : RegNum) ≠ 0 :=
  ⟨exists_next (by decide), by decide, exists_next (by decide), by decide, by decide⟩

/-- Two steps: a masked load and a masked store. -/
def twoSteps : State := machine (maskedLoadText ++ maskedStoreText) [(1, ones), (2, V2)] []

theorem witness_runs : twoSteps.Inv ∧ ∃ t, Host.Core.run Sys2Proof.core 2 twoSteps = .next t :=
  ⟨by decide, exists_next (by decide)⟩

theorem witness_RunsNeverWriteText : twoSteps.launch.inText 0x1000 = true ∧ twoSteps.launch.inText 0x1009 = true := by decide

/-- A refused and a faulting state, for the statements over the three outcomes. -/
theorem witness_three_outcomes :
    (∃ t, step plainState = .next t) ∧ step State.reset = .refused .runComplete ∧
      ∃ t, step (onePage plainState) = .fault (.memFault 0x2000#64 32 .read t) :=
  ⟨witness_completed_step, eq_refused (by decide), exists_fault (by decide)⟩

theorem witness_OnlyAcFlagInfluences : (0xFFFFFFFFFFFBFFFF#64).getLsbD 18 = plainState.rflags.getLsbD 18 := by decide

/-- A text one byte too long and one that just fits; a completed run; `rip` just beyond the text and just before it. -/
theorem witness_EndOfTextRefused :
    (2 ^ 64 < 0xFFFFFFFFFFFFFFFC + 5 ∧ 0xFFFFFFFFFFFFFFFB + 5 ≤ 2 ^ 64) ∧
      plainState.launch.textBase.toNat + plainState.launch.textLen ≤ 2 ^ 64 ∧
      State.completed { plainState with rip := 0x1005#64 } ∧
      State.ripNat { plainState with rip := 0x1006#64 } > plainState.launch.textEnd ∧
      State.ripNat { plainState with rip := 0xFFF#64 } < plainState.launch.textBase.toNat := by
  refine ⟨by decide, by decide, ?_, by decide, by decide⟩
  unfold State.completed
  decide

/-- The last four bytes of the text are those of an instruction of five. -/
theorem witness_EndOfTextRefused_inside :
    (Instr.vpsllvd256 0 1 (.reg 7)).wf = true ∧ 4 < (Instr.vpsllvd256 0 1 (.reg 7)).length ∧
      (machine [0xC4, 0xE2, 0x75, 0x47] [] []).AtText ∧
      (machine [0xC4, 0xE2, 0x75, 0x47] [] []).ripNat + 4 = (machine [0xC4, 0xE2, 0x75, 0x47] [] []).launch.textEnd ∧
      (machine [0xC4, 0xE2, 0x75, 0x47] [] []).mem.readBytes 0x1000 4 = (encode (.vpsllvd256 0 1 (.reg 7))).take 4 := by decide

/-! #### Results: operands that can be read -/

/-- The hypotheses of `FormCompletes`, for a register source, an aligned source with alignment checking, and a misaligned source
without it. -/
def FormHypotheses (f : Feature) (W eb len : Nat) : Prop :=
  plainState.hasFeature f = true ∧ SourceReady W eb (.reg 3) len plainState ∧
    alignedState.hasFeature f = true ∧ alignedState.alignmentChecking = true ∧
    SourceReady W eb (.mem (.base 0 .d0)) len alignedState ∧
    SourceReady W eb (.mem (.sib 0 (some 1) 2 (.d8 0x10))) (len + 2) alignedState ∧
    SourceReady W eb (.mem (.base 0 .d0)) len misalignedState

theorem witness_InsertsComplete : FormHypotheses .avx 128 16 6 ∧ FormHypotheses .avx2 128 16 6 := by
  unfold FormHypotheses; decide

theorem witness_BlendsComplete : FormHypotheses .avx2 128 4 6 ∧ FormHypotheses .avx2 256 4 6 := by
  unfold FormHypotheses; decide

theorem witness_Broadcasts128Complete :
    FormHypotheses .avx2 8 1 5 ∧ FormHypotheses .avx2 16 2 5 ∧ FormHypotheses .avx2 32 4 5 ∧ FormHypotheses .avx2 64 8 5 := by
  unfold FormHypotheses; decide

theorem witness_Broadcasts256Complete : FormHypotheses .avx2 8 1 5 ∧ FormHypotheses .avx2 128 16 5 := by
  unfold FormHypotheses; decide

theorem witness_DwordPermutesComplete : FormHypotheses .avx2 256 4 5 := by unfold FormHypotheses; decide

theorem witness_QwordPermutesComplete : FormHypotheses .avx2 256 8 6 := by unfold FormHypotheses; decide

theorem witness_HalfPermutesComplete : FormHypotheses .avx2 256 16 6 ∧ FormHypotheses .avx 256 16 6 := by
  unfold FormHypotheses; decide

theorem witness_InLaneQwordPermutesComplete :
    FormHypotheses .avx 128 8 5 ∧ FormHypotheses .avx 256 8 5 ∧ FormHypotheses .avx 128 8 6 ∧ FormHypotheses .avx 256 8 6 := by
  unfold FormHypotheses; decide

theorem witness_InLaneDwordPermutesComplete :
    FormHypotheses .avx 128 4 5 ∧ FormHypotheses .avx 256 4 5 ∧ FormHypotheses .avx 128 4 6 ∧ FormHypotheses .avx 256 4 6 := by
  unfold FormHypotheses; decide

theorem witness_VariableShiftsComplete :
    FormHypotheses .avx2 128 4 5 ∧ FormHypotheses .avx2 128 8 5 ∧ FormHypotheses .avx2 256 4 5 ∧ FormHypotheses .avx2 256 8 5 := by
  unfold FormHypotheses; decide

/-- The hypotheses of the masked moves: all elements enabled and aligned with checking; misaligned without; and, outside the one
accessible page, all elements masked off. -/
def MaskedHypotheses (f : Feature) (W w : Nat) (kind : AccessKind) : Prop :=
  plainState.mem.wf = true ∧ alignedState.hasFeature f = true ∧
    MaskedReady w ((alignedState.readYmm 1).setWidth W) (effAddr (.base 7 .d0) 5 alignedState) kind alignedState ∧
    MaskedReady w ((misalignedState.readYmm 1).setWidth W) (effAddr (.base 7 .d0) 5 misalignedState) kind misalignedState ∧
    MaskedReady w ((State.readYmm (onePage plainState) 3).setWidth W) (effAddr (.base 7 .d0) 5 (onePage plainState)) kind
      (onePage plainState) ∧
    ∀ i < W / w, maskBit w (alignedState.readYmm 1) i = true ∧ maskBit w (State.readYmm (onePage plainState) 3) i = false

theorem witness_MaskedFloatLoadsComplete :
    (MaskedHypotheses .avx 128 32 .read ∧ MaskedHypotheses .avx 256 32 .read) ∧
      MaskedHypotheses .avx 128 64 .read ∧ MaskedHypotheses .avx 256 64 .read := by
  refine ⟨⟨?_, ?_⟩, ?_, ?_⟩ <;> refine ⟨?_, ?_, ?_, ?_, ?_, ?_⟩ <;> decide

theorem witness_MaskedIntegerLoadsComplete :
    (MaskedHypotheses .avx2 128 32 .read ∧ MaskedHypotheses .avx2 256 32 .read) ∧
      MaskedHypotheses .avx2 128 64 .read ∧ MaskedHypotheses .avx2 256 64 .read := by
  refine ⟨⟨?_, ?_⟩, ?_, ?_⟩ <;> refine ⟨?_, ?_, ?_, ?_, ?_, ?_⟩ <;> decide

theorem witness_MaskedFloatStoresComplete :
    (MaskedHypotheses .avx 128 32 .write ∧ MaskedHypotheses .avx 256 32 .write) ∧
      MaskedHypotheses .avx 128 64 .write ∧ MaskedHypotheses .avx 256 64 .write := by
  refine ⟨⟨?_, ?_⟩, ?_, ?_⟩ <;> refine ⟨?_, ?_, ?_, ?_, ?_, ?_⟩ <;> decide

theorem witness_MaskedIntegerStoresComplete :
    (MaskedHypotheses .avx2 128 32 .write ∧ MaskedHypotheses .avx2 256 32 .write) ∧
      MaskedHypotheses .avx2 128 64 .write ∧ MaskedHypotheses .avx2 256 64 .write := by
  refine ⟨⟨?_, ?_⟩, ?_, ?_⟩ <;> refine ⟨?_, ?_, ?_, ?_, ?_, ?_⟩ <;> decide

/-! #### Faults and refusals -/

theorem witness_MissingFeatureRaisesUd :
    (withoutAvx2 plainState).hasFeature (featureOf (.vpsllvd256 0 1 (.reg 2))) = false ∧
      (withLaunch plainState fun l => { l with hasAVX := false }).hasFeature (featureOf (.vinsertf128 0 1 (.reg 2) 0)) = false := by
  decide

theorem witness_UdEncodingRaisesUd :
    (machine [0xC4, 0xE2, 0x71, 0x36, 0xC2] [] []).AtText ∧
      decode (fetchWindow (machine [0xC4, 0xE2, 0x71, 0x36, 0xC2] [] [])) = .ud .vpermdL0 ∧
      (machine [0xC4, 0xE2, 0x71, 0x36, 0xC2] [] []).launch.accessible 0x1000 5 .fetch = true := by decide

theorem witness_UdOnlyFromEncodingOrFeature :
    step (machine [0xC4, 0xE2, 0x71, 0x36, 0xC2] [] []) = .fault (.ud (machine [0xC4, 0xE2, 0x71, 0x36, 0xC2] [] [])) ∧
      step (withoutAvx2 plainState) = .fault (.ud (withoutAvx2 plainState)) := ⟨eq_ud (by decide), eq_ud (by decide)⟩

/-- A text with no byte of it fetchable. -/
def noFetch (text : List Byte) : State := withLaunch (machine text [] []) fun l => { l with regions := [] }

theorem witness_FetchFaultComesFirst :
    (noFetch shiftFromMemory).AtText ∧
      decode (fetchWindow (noFetch shiftFromMemory)) = .instr (.vpsllvd256 0 1 (.mem (.base 7 .d0))) [] ∧
      (noFetch shiftFromMemory).launch.accessible 0x1000 5 .fetch = false := by decide

theorem witness_FetchFaultComesFirst_no_instruction :
    (noFetch [0xC4, 0xE2, 0x71, 0x36, 0xC2]).AtText ∧
      decode (fetchWindow (noFetch [0xC4, 0xE2, 0x71, 0x36, 0xC2])) = .ud .vpermdL0 ∧
      (noFetch [0xC4, 0xE2, 0x71, 0x36, 0xC2]).launch.accessible 0x1000 5 .fetch = false ∧ (noFetch [0x90]).AtText ∧
      decode (fetchWindow (noFetch [0x90])) = .foreign (.firstByte 0x90) ∧
      (noFetch [0x90]).launch.accessible 0x1000 (Foreign.firstByte 0x90).bytesRead .fetch = false := by decide

/-- P4, run D: a store that faults with two elements enabled and accessible. -/
def faultingStore : State := p4 maskedStoreText 0x80000000000000008000000080000000#256

/-- P4, run B: a load that faults on its third element. -/
def faultingLoad : State := p4 maskedLoadText 0x800000008000000080000000#256

theorem witness_FaultsArePrecise :
    (∃ t, step faultingLoad = .fault (.memFault 0x2000#64 4 .read t)) ∧
      ∃ t, step faultingStore = .fault (.memFault 0x2004#64 4 .write t) :=
  ⟨exists_fault (by decide), exists_fault (by decide)⟩

/-- The first clause, with an element enabled and inaccessible and with none. -/
theorem witness_MaskedMovesFaultOnlyForEnabledElements :
    faultingLoad.hasFeature .avx = true ∧ faultingLoad.alignmentChecking = false ∧ theLoad.plain faultingLoad ∧
      (theLoad.enabled faultingLoad 2 ∧ ¬theLoad.admitted faultingLoad 2) ∧ theStore.plain faultingStore ∧
      (theStore.enabled faultingStore 3 ∧ ¬theStore.admitted faultingStore 3) ∧ theLoad.plain plainState ∧
      ∀ j < 8, theLoad.admitted plainState j := by
  refine ⟨?_, ?_, ?_, ?_, ?_, ?_, ?_, ?_⟩ <;> decide

/-- The second clause: nothing enabled, and no byte of the operand accessible. -/
theorem witness_MaskedMovesFaultOnlyForEnabledElements_zeroMask :
    (∀ j < theLoad.W / theLoad.w, ¬theLoad.enabled (onePage { plainState with ymm := Vector.replicate 16 0 }) j) ∧
      (∀ j < theStore.W / theStore.w, ¬theStore.enabled (onePage { plainState with ymm := Vector.replicate 16 0 }) j) ∧
      (onePage { plainState with ymm := Vector.replicate 16 0 }).alignmentChecking = false ∧
      theLoad.plain (onePage { plainState with ymm := Vector.replicate 16 0 }) ∧
      theStore.plain (onePage { plainState with ymm := Vector.replicate 16 0 }) ∧
      ∀ j < 8, ¬theLoad.admitted (onePage { plainState with ymm := Vector.replicate 16 0 }) j := by decide

theorem witness_FaultingStoreLeavesOldOrNewElements :
    isStore (.vmaskmovpsStore256 (.base 7 .d0) 1 2) = true ∧ faultingStore.mem.wf = true ∧
      (theStore.enabled faultingStore 1 ∧ theStore.admitted faultingStore 1) ∧
      ∃ t, exec (.vmaskmovpsStore256 (.base 7 .d0) 1 2) faultingStore = .fault (.memFault 0x2004#64 4 .write t) :=
  ⟨by decide, by decide, by decide, exists_fault (by decide)⟩

theorem witness_FaultingStoreLeavesOldOrNewElements_load :
    isStore (.vmaskmovpsLoad256 0 1 (.base 7 .d0)) = false ∧
      (theLoad.enabled faultingLoad 2 ∧ ¬theLoad.admitted faultingLoad 2) ∧ elemAddr (theLoad.ea faultingLoad) 32 2 = 0x2000#64 ∧
      ∃ t, exec (.vmaskmovpsLoad256 0 1 (.base 7 .d0)) faultingLoad = .fault (.memFault 0x2000#64 4 .read t) :=
  ⟨by decide, by decide, by decide, exists_fault (by decide)⟩

/-- An operand of 32 bytes of which only the last lies in the I/O page, and one that ends just before it. -/
theorem witness_MaskedDeviceAccessRefused :
    (ioPage plainState).hasFeature .avx = true ∧
      theLoad.atDevice (ioPage { plainState with gpr := Vector.replicate 16 0x1FE1#64 }) ∧
      theStore.atDevice (ioPage { plainState with gpr := Vector.replicate 16 0x2FFF#64 }) ∧
      ¬theStore.atDevice (ioPage { plainState with gpr := Vector.replicate 16 0x1FE0#64 }) := by decide

/-- With no element enabled. -/
theorem witness_MaskedDeviceAccessRefused_zeroMask :
    theLoad.atDevice (ioPage { plainState with ymm := Vector.replicate 16 0 }) ∧
      ∀ j < 8, ¬theLoad.enabled (ioPage { plainState with ymm := Vector.replicate 16 0 }) j := by decide

/-- A masked store whose elements lie from FECh on, so that element 5 overlaps the text at 1000h. -/
def storeOverText : State := { plainState with gpr := Vector.replicate 16 0xFEC#64 }

theorem witness_StoreToTextRefused :
    storeOverText.hasFeature .avx = true ∧ ¬theStore.atDevice storeOverText ∧ theStore.enabled storeOverText 5 ∧
      theStore.elemInText storeOverText 5 ∧ ¬theStore.elemInText storeOverText 4 := by decide

theorem witness_WholeOperandReadOrFault :
    maskedMoveOf (.vpsllvd256 0 1 (.mem (.base 7 .d0))) = none ∧ plainState.hasFeature .avx2 = true ∧
      plainState.alignmentChecking = false ∧
      plainState.launch.accessible (effAddr (.base 7 .d0) 5 plainState) 32 .read = true ∧
      touches plainState.launch.isIo (effAddr (.base 7 .d0) 5 plainState) 32 = false ∧
      (onePage plainState).alignmentChecking = false ∧
      (onePage plainState).launch.accessible (effAddr (.base 7 .d0) 5 (onePage plainState)) 32 .read = false :=
  ⟨rfl, by decide⟩

theorem witness_WholeOperandReadOrFault_io :
    (ioPage plainState).alignmentChecking = false ∧
      (ioPage plainState).launch.accessible (effAddr (.base 7 .d0) 5 (ioPage plainState)) 32 .read = true ∧
      touches (ioPage plainState).launch.isIo (effAddr (.base 7 .d0) 5 (ioPage plainState)) 32 = true := by decide

theorem witness_RegisterFormsAlwaysComplete :
    (Instr.vpsllvd256 0 1 (.reg 7)).rm = .reg 7 ∧ alignedState.hasFeature .avx2 = true ∧
      alignedState.alignmentChecking = true := by decide

/-- Alignment checking with a misaligned operand, under an all-ones and an all-zero mask. -/
theorem witness_AlignmentReportIgnoresMask :
    (checking misalignedState).alignmentChecking = true ∧ (theLoad.ea (checking misalignedState)).toNat % 4 = 1 ∧
      theLoad.plain (checking misalignedState) ∧ theLoad.plain { checking misalignedState with ymm := Vector.replicate 16 0 } ∧
      theLoad.enabled (checking misalignedState) 0 ∧ misalignedState.alignmentChecking = false ∧
      theLoad.plain misalignedState := by decide

theorem witness_AlignmentFaultNeedsCheckingAndMisalignment :
    misalignedState.alignmentChecking = false ∧ alignedState.alignmentChecking = true ∧
      ∀ i rest m, decode (fetchWindow alignedState) = .instr i rest → i.rm = .mem m →
        (effAddr m i.length alignedState).toNat % 16 = 0 := by
  refine ⟨by decide, by decide, fun i rest m h hm => ?_⟩
  have hd : decode (fetchWindow alignedState) = .instr (.vpsllvd256 0 1 (.mem (.base 7 .d0))) [] := by decide
  rw [hd] at h
  cases h
  cases hm
  decide

/-! #### Relations between forms -/

/-- A masked store completes, then a masked load of the same address by the same register. -/
def storeThenLoad (store load : Instr) (m m' : Mem) (s : State) : Bool :=
  match exec store s with
  | .next t => completes (exec load t) && effAddr m' load.length t = effAddr m store.length s
  | _ => false

theorem storeThenLoad_spec {store load : Instr} {m m' : Mem} {s : State} (h : storeThenLoad store load m m' s = true) :
    ∃ t u, exec store s = .next t ∧ exec load t = .next u ∧ effAddr m' load.length t = effAddr m store.length s := by
  unfold storeThenLoad at h
  split at h
  · rename_i t ht
    rw [Bool.and_eq_true, decide_eq_true_eq] at h
    obtain ⟨u, hu⟩ := exists_next h.1
    exact ⟨t, u, ht, hu, h.2⟩
  · cases h

theorem witness_MaskedLoadReadsMaskedStore :
    plainState.mem.wf = true ∧
      ∃ t u, exec (.vmaskmovpsStore256 (.base 7 .d0) 1 2) plainState = .next t ∧
        exec (.vmaskmovpsLoad256 0 1 (.base 7 .d0)) t = .next u ∧
        effAddr (.base 7 .d0) (Instr.vmaskmovpsLoad256 0 1 (.base 7 .d0)).length t =
          effAddr (.base 7 .d0) (Instr.vmaskmovpsStore256 (.base 7 .d0) 1 2).length plainState :=
  ⟨by decide, storeThenLoad_spec (by decide)⟩

theorem witness_AccessibleIsMonotone :
    (onePage plainState).launch.accessible 0x1FE0 32 .read = true ∧
      (onePage plainState).launch.accessible 0x1FC0 32 .read = true ∧
      (onePage plainState).launch.accessible 0x1FE0 33 .read = false ∧ 31 + 1 ≤ 32 ∧
      byteAddr 0x1FC0 32 = 0x1FE0 := by decide

theorem witness_TwinFormsAgree : State.reset.launch.hasAVX = true ∧ State.reset.launch.hasAVX2 = true := by decide

theorem witness_IgnoredImmediateBits :
    (0xFF : Byte).getLsbD 0 = (0x01 : Byte).getLsbD 0 ∧ (∀ j < 4, (0xF5 : Byte).getLsbD j = (0x05 : Byte).getLsbD j) ∧
      (∀ j < 8, j ≠ 2 → j ≠ 6 → (0x64 : Byte).getLsbD j = (0x20 : Byte).getLsbD j) ∧
      ∀ j < 2, (0xFD : Byte).getLsbD j = (0x01 : Byte).getLsbD j := by decide

/-! #### Operands and launches -/

/-- R93 over the integers, with negative displacements and a wrap (95_test_vectors.md 2.1 has the positive ones). -/
theorem test_effective_address_integers :
    (gprInt addressing 11 + indexInt addressing (some 12) 1 + dispInt (.d8 0x80)) % 2 ^ 64 = 0x25F80 ∧
      (gprInt addressing 0 + dispInt (.d32 0xFFFFEFFF)) % 2 ^ 64 = 0xFFFFFFFFFFFFFFFF ∧
      indexInt addressing none 3 = 0 := by decide

/-- The last byte and the last bit of the widest operand, and of one element. -/
theorem witness_OperandValuesByteByByte : 31 < 256 / 8 ∧ 255 < 256 ∧ 256 ≤ 256 ∧ 31 < 32 ∧ 0 < 32 := by decide

/-- A text of five bytes at the highest place. -/
theorem witness_LoadedTextMeetsInvariant :
    State.reset.mem.wf = true ∧ (State.reset.launch.hasAVX2 = true → State.reset.launch.hasAVX = true) ∧
      ({ State.reset with rip := 0xFFFFFFFFFFFFFFFB#64 } : State).rip.toNat + shiftFromMemory.length = 2 ^ 64 := by decide

/-- A range whose last byte is the text's first; a state of the invariant that faults, on its data. -/
theorem witness_TextFetchableNeverWritable :
    touches plainState.launch.inText 0xFF0 17 = true ∧ touches plainState.launch.inText 0xFF0 16 = false ∧
      State.Inv (onePage plainState) ∧ ∃ t, step (onePage plainState) = .fault (.memFault 0x2000#64 32 .read t) :=
  ⟨by decide, by decide, by decide, exists_fault (by decide)⟩

end Sys2Proof.Tests
end

section
/-! Operand values byte by byte: what a source operand, an element, a mask bit and an element's address are, in bytes of memory
and bits of registers. -/

namespace Sys2Proof.Machine

/-- The address `k` bytes above `a` as a number (R72). -/
theorem byteAddr_toNat (a : Word) (k : Nat) : (byteAddr a k).toNat = (a.toNat + k) % 2 ^ 64 := by
  simp [byteAddr, BitVec.toNat_add]

/-- Byte `k` of a memory operand is the byte of memory at `EA + k` (R50, D4). -/
theorem elem_sourceValue_mem (W len : Nat) (m : Mem) (s : State) {k : Nat} (hk : k < W / 8) :
    elem 8 (sourceValue W (.mem m) len s) k = s.mem.read (((effAddr m len s).toNat + k) % 2 ^ 64) := by
  rw [sourceValue, Memory.elem_readValue W _ _ hk, byteAddr_toNat]

/-- Bit `j` of a register operand is bit `j` of the register (R91). -/
theorem getLsbD_sourceValue_reg (W len : Nat) (r : RegNum) (s : State) {j : Nat} (hj : j < W) :
    (sourceValue W (.reg r) len s).getLsbD j = (s.ymm[r.toNat]'r.isLt).getLsbD j := by
  simp [sourceValue, State.readYmm, hj]

/-- Bit `j` of element `i` is bit `w*i + j` of the value (R7). -/
theorem getLsbD_elem {W : Nat} (w i : Nat) (x : BitVec W) {j : Nat} (hj : j < w) :
    (elem w x i).getLsbD j = x.getLsbD (w * i + j) := by
  simp [elem, hj]

/-- The mask bit of element `i` is the element's highest bit, bit `w*i + w - 1` of the mask (R130). -/
theorem maskBit_eq_getLsbD {W : Nat} (w i : Nat) (x : BitVec W) (hw : 0 < w) :
    maskBit w x i = x.getLsbD (w * i + w - 1) := by
  rw [maskBit, Nat.add_sub_assoc hw]

/-- Byte `k` of element `i` of a memory operand lies at `EA + i*w/8 + k` (R50, R57, R72). -/
theorem elemByteAddr_eq (ea : Word) (w i k : Nat) :
    elemByteAddr ea w i k = (ea.toNat + i * (w / 8) + k) % 2 ^ 64 := by
  rw [elemByteAddr, byteAddr_elemAddr, byteAddr_toNat, Nat.add_assoc]

/-- Settles O57: the five clauses are the value of a memory operand, of a register operand, of an element, of a mask bit, and the
address of an element's byte. -/
theorem operandValuesByteByByte : Obligations.OperandValuesByteByByte := by
  refine ⟨?memory, ?register, ?element, ?mask, ?address⟩
  case memory => exact fun W len _ m s hk => elem_sourceValue_mem W len m s hk
  case register => exact fun W len _ r s hj _ => getLsbD_sourceValue_reg W len r s hj
  case element => exact fun _ w i _ x hj => getLsbD_elem w i x hj
  case mask => exact fun _ w i x hw => maskBit_eq_getLsbD w i x hw
  case address => exact elemByteAddr_eq

end Sys2Proof.Machine
end

section
/-! What the decoder has read: as many bytes as the instruction's length counts, and none of those behind them; and the row that an
instruction's encoding selects (R85, R97, R100, R105). -/

namespace Sys2Proof

/-! ### Displacements and operands: how many bytes, and which -/

theorem takeDisp32_length {bytes rest : List Byte} {d : BitVec 32} (h : takeDisp32 bytes = some (d, rest)) :
    bytes.length = 4 + rest.length := by
  obtain ⟨heq, hlen⟩ := takeDisp32_eq_some h
  have := congrArg List.length heq
  simp only [List.length_append, List.length_take] at this
  omega

theorem takeDisp32_append {bytes rest : List Byte} {d : BitVec 32} (more : List Byte) (h : takeDisp32 bytes = some (d, rest)) :
    takeDisp32 (bytes ++ more) = some (d, rest ++ more) := by
  match bytes, h with
  | b0 :: b1 :: b2 :: b3 :: tail, h =>
    simp only [takeDisp32, Option.some.injEq, Prod.mk.injEq] at h
    simp [takeDisp32, h]

/-- What a displacement is, by `mod` (R90). -/
theorem takeDisp_eq_some {md : BitVec 2} {bytes rest : List Byte} {d : Disp} (h : takeDisp md bytes = some (d, rest)) :
    (∃ b, md = 0b01#2 ∧ d = .d8 b ∧ bytes = b :: rest) ∨
      (∃ x, md = 0b10#2 ∧ d = .d32 x ∧ takeDisp32 bytes = some (x, rest)) ∨
      (md ≠ 0b01#2 ∧ md ≠ 0b10#2 ∧ d = .d0 ∧ bytes = rest) := by
  unfold takeDisp at h
  split at h
  case isTrue h1 =>
    cases bytes with
    | nil => cases h
    | cons b tail =>
      cases h
      exact .inl ⟨b, h1, rfl, rfl⟩
  case isFalse h1 =>
    split at h
    case isTrue h2 =>
      obtain ⟨⟨x, tail⟩, hx, he⟩ := Option.map_eq_some_iff.1 h
      cases he
      exact .inr (.inl ⟨x, h2, rfl, hx⟩)
    case isFalse h2 =>
      cases h
      exact .inr (.inr ⟨h1, h2, rfl, rfl⟩)

theorem takeDisp_length {md : BitVec 2} {bytes rest : List Byte} {d : Disp} (h : takeDisp md bytes = some (d, rest)) :
    bytes.length = d.size + rest.length := by
  obtain ⟨b, -, rfl, rfl⟩ | ⟨x, -, rfl, hx⟩ | ⟨-, -, rfl, rfl⟩ := takeDisp_eq_some h
  · simp [Disp.size, Nat.add_comm]
  · exact takeDisp32_length hx
  · simp [Disp.size]

theorem takeDisp_append {md : BitVec 2} {bytes rest : List Byte} {d : Disp} (more : List Byte)
    (h : takeDisp md bytes = some (d, rest)) : takeDisp md (bytes ++ more) = some (d, rest ++ more) := by
  obtain ⟨b, rfl, rfl, rfl⟩ | ⟨x, rfl, rfl, hx⟩ | ⟨h1, h2, rfl, rfl⟩ := takeDisp_eq_some h
  · rfl
  · simp [takeDisp, takeDisp32_append more hx]
  · simp [takeDisp, h1, h2]

/-- What an operand behind a SIB byte is (R89). -/
theorem decodeSib_eq_some {v : Vex} {md : BitVec 2} {sib : Byte} {bytes rest : List Byte} {m : Mem}
    (h : decodeSib v md sib bytes = some (m, rest)) :
    1 + bytes.length = (RM.mem m).size + rest.length ∧
      ∀ more, decodeSib v md sib (bytes ++ more) = some (m, rest ++ more) := by
  unfold decodeSib at h ⊢
  dsimp only at h ⊢
  split at h
  case isTrue hc =>
    obtain ⟨⟨x, tail⟩, hx, he⟩ := Option.map_eq_some_iff.1 h
    cases he
    have hl := takeDisp32_length hx
    dsimp only
    refine ⟨by simp only [RM.size]; omega, fun more => ?_⟩
    rw [if_pos hc, takeDisp32_append more hx, Option.map_some]
  case isFalse hc =>
    obtain ⟨⟨d, tail⟩, hd, he⟩ := Option.map_eq_some_iff.1 h
    cases he
    have hl := takeDisp_length hd
    dsimp only
    refine ⟨by simp only [RM.size]; omega, fun more => ?_⟩
    rw [if_neg hc, takeDisp_append more hd, Option.map_some]

/-- An operand that is read takes the bytes its size counts, and does not depend on those behind them (R88 to R93, R97). -/
theorem decodeRM_eq_some {v : Vex} {md : BitVec 2} {low : BitVec 3} {bytes rest : List Byte} {rm : RM}
    (h : decodeRM v md low bytes = some (rm, rest)) :
    bytes.length = rm.size + rest.length ∧ ∀ more, decodeRM v md low (bytes ++ more) = some (rm, rest ++ more) := by
  unfold decodeRM at h ⊢
  split at h
  case isTrue hreg =>
    cases h
    exact ⟨by simp [RM.size], fun more => if_pos hreg⟩
  case isFalse hreg =>
    simp only [if_neg hreg]
    split at h
    case isTrue hsib =>
      simp only [if_pos hsib]
      cases bytes with
      | nil => cases h
      | cons sib bytes =>
        obtain ⟨⟨m, tail⟩, hm, he⟩ := Option.map_eq_some_iff.1 h
        cases he
        obtain ⟨hsize, happ⟩ := decodeSib_eq_some hm
        refine ⟨by simp only [List.length_cons]; omega, fun more => ?_⟩
        simp [happ more]
    case isFalse hsib =>
      simp only [if_neg hsib]
      split at h
      case isTrue hrip =>
        obtain ⟨⟨x, tail⟩, hx, he⟩ := Option.map_eq_some_iff.1 h
        cases he
        refine ⟨takeDisp32_length hx, fun more => ?_⟩
        rw [if_pos hrip, takeDisp32_append more hx, Option.map_some]
      case isFalse hrip =>
        obtain ⟨⟨d, tail⟩, hd, he⟩ := Option.map_eq_some_iff.1 h
        cases he
        refine ⟨takeDisp_length hd, fun more => ?_⟩
        rw [if_neg hrip, takeDisp_append more hd, Option.map_some]

/-! ### What a row makes of its operands -/

/-- What the row makes has the row's ModRM:r/m operand, and an immediate byte exactly if the row reads one (R85, R86). -/
def Row.KeepsShape (row : Row) : Prop :=
  ∀ o i, row.make o = some i → i.encoding.rm = o.rm ∧ i.encoding.imm.isSome = row.ib

/-- Every row keeps the shape of its operands: for a register and for a memory operand, what the row makes, if anything, is an
instruction written out with that operand. -/
theorem Row.keepsShape_of_mem_opcodeTable {row : Row} (h : row ∈ opcodeTable) : row.KeepsShape := by
  revert row
  simp only [opcodeTable, opcodeRows1to12, opcodeRows13to26, opcodeRows27to35, opcodeRows36to47, List.forall_mem_append,
    List.forall_mem_cons, List.not_mem_nil, false_implies, implies_true, and_true]
  and_intros
  all_goals
    rintro ⟨reg, v, r | m, imm⟩ i ⟨⟩
    all_goals exact ⟨rfl, rfl⟩

/-- What a row that answers an instruction has read: the operand, then the immediate if it has one (R85, R105 step 6). -/
theorem decodeRow_eq_instr {row : Row} {v : Vex} {modrm : Byte} {k : BitVec 32} {tail rest : List Byte} {i : Instr}
    (h : decodeRow row v modrm k tail = .instr i rest) :
    ∃ rm imm rest', decodeRM v (modrm.extractLsb' 6 2) (modrm.extractLsb' 0 3) tail = some (rm, rest') ∧
      rest'.length = (if row.ib then 1 else 0) + rest.length ∧
      row.make ⟨v.r ++ modrm.extractLsb' 3 3, v.vvvv, rm, imm⟩ = some i := by
  simp only [decodeRow] at h
  split at h
  case h_1 => cases h
  case h_2 rm rest' hrm =>
    split at h
    case isTrue hib =>
      cases rest' with
      | nil => cases h
      | cons imm rest'' =>
        dsimp only at h
        split at h <;> cases h
        next hmake => exact ⟨rm, imm, _, hrm, by simp [hib, Nat.add_comm], hmake⟩
    case isFalse hib =>
      split at h <;> cases h
      next hmake => exact ⟨rm, 0, _, hrm, by simp [hib], hmake⟩

/-- An instruction that a row answers has the length of the bytes read (R97). -/
theorem decodeRow_length {row : Row} (hrow : row ∈ opcodeTable) {v : Vex} {modrm : Byte} {k : BitVec 32} {tail rest : List Byte}
    {i : Instr} (h : decodeRow row v modrm k tail = .instr i rest) : 5 + tail.length = i.length + rest.length := by
  obtain ⟨rm, imm, rest', hrm, hrest, hmake⟩ := decodeRow_eq_instr h
  obtain ⟨hop, himm⟩ := Row.keepsShape_of_mem_opcodeTable hrow _ _ hmake
  have htail := (decodeRM_eq_some hrm).1
  simp only [Instr.length, hop, himm, formLength]
  omega

/-- A decoded instruction stands behind C4h and comes from one row of the table (R105). -/
theorem decode_eq_instr {bytes rest : List Byte} {i : Instr} (h : decode bytes = .instr i rest) :
    ∃ p1 p2 op modrm tail, bytes = 0xC4 :: p1 :: p2 :: op :: modrm :: tail ∧
      ∃ row ∈ opcodeTable, decodeRow row (Vex.ofBytes p1 p2) modrm (0xC4#8 ++ p1 ++ p2 ++ op) tail = .instr i rest := by
  unfold decode at h
  split at h
  case h_1 => cases h
  case h_2 p0 bytes =>
    split at h
    case isTrue => cases h
    case isFalse hp0 =>
      split at h
      case h_2 => cases h
      case h_1 p1 p2 op modrm tail =>
        refine ⟨p1, p2, op, modrm, tail, by rw [Decidable.not_not.1 hp0], ?_⟩
        simp only [decodeVex] at h
        split at h
        case h_1 => cases h
        case h_2 =>
          split at h
          case h_1 => cases h
          case h_2 row hfind => exact ⟨row, List.mem_of_find?_eq_some hfind, h⟩

/-- The decoder takes exactly the instruction's length of the bytes (R97, R105). -/
theorem decode_length {bytes rest : List Byte} {i : Instr} (h : decode bytes = .instr i rest) :
    bytes.length = i.length + rest.length := by
  obtain ⟨p1, p2, op, modrm, tail, rfl, row, hrow, hi⟩ := decode_eq_instr h
  have := decodeRow_length hrow hi
  simp only [List.length_cons]
  omega

/-! ### The row that an encoding selects -/

/-- No two rows have the same key (R96). -/
theorem opcodeTable_keys_nodup : (opcodeTable.map Row.key).Nodup := by decide

/-- At most one row matches (R96). -/
theorem Row.matches_unique {a b : Row} (ha : a ∈ opcodeTable) (hb : b ∈ opcodeTable) {v : Vex} {op : Byte} {md : BitVec 2}
    (ma : a.matches v op md = true) (mb : b.matches v op md = true) : a = b := by
  simp only [Row.matches, Bool.and_eq_true] at ma mb
  exact List.inj_on_of_nodup_map opcodeTable_keys_nodup ha hb (Vex.hasKey_unique ma.1.1 mb.1.1)

/-- A row that matches is the one that is found. -/
theorem find?_opcodeTable {row : Row} (hrow : row ∈ opcodeTable) {v : Vex} {op : Byte} {md : BitVec 2}
    (h : row.matches v op md = true) : (opcodeTable.find? fun r => r.matches v op md) = some row := by
  cases hf : opcodeTable.find? fun r => r.matches v op md with
  | none => exact absurd h (List.find?_eq_none.1 hf row hrow)
  | some r =>
    have hr : r.matches v op md = true := List.find?_some (p := fun r : Row => r.matches v op md) hf
    rw [Row.matches_unique (List.mem_of_find?_eq_some hf) hrow hr h]

/-- Keys that R101 gives #UD without a condition on VEX.vvvv or `mod`. -/
def udKeys : List OpKey :=
  [⟨.m0F3A, 0, 0, 0x38⟩, ⟨.m0F38, 0, 0, 0x5A⟩, ⟨.m0F38, 0, 0, 0x36⟩, ⟨.m0F3A, 1, 0, 0x01⟩, ⟨.m0F38, 0, 0, 0x16⟩,
   ⟨.m0F3A, 1, 0, 0x00⟩]

/-- What sets each row of the table apart from those of R101: its key is none of theirs, VBROADCASTI128 is listed with memory only,
the broadcasts do not use VEX.vvvv, and VPBROADCASTB/W/D/Q have VEX.W = 0 (R99 to R101). -/
theorem opcodeTable_avoids_ud : ∀ row ∈ opcodeTable,
    row.key ∉ udKeys ∧ (row.key = ⟨.m0F38, 0, 1, 0x5A⟩ → row.memOnly = true) ∧
      (row.key.map.bits = OpMap.m0F38.bits → (isVpbroadcastOp row.key.op || row.key.op = 0x5A) = true → row.usesV = false) ∧
      (row.key.map.bits = OpMap.m0F38.bits → isVpbroadcastOp row.key.op = true → row.key.w ≠ 1) := by decide

/-- An encoding that matches a row of the table is in no row of R101. -/
theorem UdRow.hit_eq_false {row : Row} (hrow : row ∈ opcodeTable) {v : Vex} {op : Byte} {md : BitVec 2}
    (h : row.matches v op md = true) (u : UdRow) : UdRow.hit v op md u = false := by
  obtain ⟨hud, hmem, hvvvv, hw⟩ := opcodeTable_avoids_ud row hrow
  simp only [Row.matches, Bool.and_eq_true, Bool.or_eq_true, Bool.not_eq_true', decide_eq_true_eq] at h
  obtain ⟨⟨hkey, huse⟩, hmod⟩ := h
  have hother {k : OpKey} (hk : k ∈ udKeys) : v.hasKey op k = false :=
    Bool.eq_false_iff.2 fun e => hud (Vex.hasKey_unique hkey e ▸ hk)
  have hfields := hkey
  simp only [Vex.hasKey, Bool.and_eq_true, decide_eq_true_eq] at hfields
  obtain ⟨⟨⟨⟨hmap, -⟩, hvw⟩, -⟩, hop⟩ := hfields
  rw [← hmap, ← hop] at hvvvv hw
  rw [← hvw] at hw
  cases u with
  | vinserti128L0 | vbroadcasti128L0 | vpermdL0 | vpermpdL0 | vpermpsL0 | vpermqL0 => exact hother (by decide)
  | vbroadcasti128Reg =>
    refine Bool.eq_false_iff.2 fun e => ?_
    simp only [UdRow.hit, Bool.and_eq_true, decide_eq_true_eq] at e
    exact hmod.resolve_left (by simp [hmem (Vex.hasKey_unique hkey e.1)]) e.2
  | broadcastVvvv =>
    refine Bool.eq_false_iff.2 fun e => ?_
    simp only [UdRow.hit, Bool.and_eq_true, decide_eq_true_eq] at e
    obtain ⟨⟨⟨e38, -⟩, eop⟩, ev⟩ := e
    exact ev (huse.resolve_left (by simp [hvvvv e38 eop]))
  | vpbroadcastW1 =>
    refine Bool.eq_false_iff.2 fun e => ?_
    simp only [UdRow.hit, Bool.and_eq_true, decide_eq_true_eq] at e
    obtain ⟨⟨⟨e38, -⟩, eop⟩, ew⟩ := e
    exact hw e38 eop ew

/-- Every instruction's encoding fits a row of the table. -/
theorem rowFits : ∀ i : Instr, Laws.RowFits.Statement i
  | .vinsertf128 .. => Laws.RowFits.vinsertf128 ..
  | .vinserti128 .. => Laws.RowFits.vinserti128 ..
  | .vmaskmovpsLoad128 .. => Laws.RowFits.vmaskmovpsLoad128 ..
  | .vmaskmovpsLoad256 .. => Laws.RowFits.vmaskmovpsLoad256 ..
  | .vmaskmovpdLoad128 .. => Laws.RowFits.vmaskmovpdLoad128 ..
  | .vmaskmovpdLoad256 .. => Laws.RowFits.vmaskmovpdLoad256 ..
  | .vmaskmovpsStore128 .. => Laws.RowFits.vmaskmovpsStore128 ..
  | .vmaskmovpsStore256 .. => Laws.RowFits.vmaskmovpsStore256 ..
  | .vmaskmovpdStore128 .. => Laws.RowFits.vmaskmovpdStore128 ..
  | .vmaskmovpdStore256 .. => Laws.RowFits.vmaskmovpdStore256 ..
  | .vpblendd128 .. => Laws.RowFits.vpblendd128 ..
  | .vpblendd256 .. => Laws.RowFits.vpblendd256 ..
  | .vpbroadcastb128 .. => Laws.RowFits.vpbroadcastb128 ..
  | .vpbroadcastb256 .. => Laws.RowFits.vpbroadcastb256 ..
  | .vpbroadcastw128 .. => Laws.RowFits.vpbroadcastw128 ..
  | .vpbroadcastw256 .. => Laws.RowFits.vpbroadcastw256 ..
  | .vpbroadcastd128 .. => Laws.RowFits.vpbroadcastd128 ..
  | .vpbroadcastd256 .. => Laws.RowFits.vpbroadcastd256 ..
  | .vpbroadcastq128 .. => Laws.RowFits.vpbroadcastq128 ..
  | .vpbroadcastq256 .. => Laws.RowFits.vpbroadcastq256 ..
  | .vbroadcasti128 .. => Laws.RowFits.vbroadcasti128 ..
  | .vpermd .. => Laws.RowFits.vpermd ..
  | .vpermpd .. => Laws.RowFits.vpermpd ..
  | .vpermps .. => Laws.RowFits.vpermps ..
  | .vpermq .. => Laws.RowFits.vpermq ..
  | .vperm2i128 .. => Laws.RowFits.vperm2i128 ..
  | .vpermilpdVar128 .. => Laws.RowFits.vpermilpdVar128 ..
  | .vpermilpdVar256 .. => Laws.RowFits.vpermilpdVar256 ..
  | .vpermilpdImm128 .. => Laws.RowFits.vpermilpdImm128 ..
  | .vpermilpdImm256 .. => Laws.RowFits.vpermilpdImm256 ..
  | .vpermilpsVar128 .. => Laws.RowFits.vpermilpsVar128 ..
  | .vpermilpsImm128 .. => Laws.RowFits.vpermilpsImm128 ..
  | .vpermilpsVar256 .. => Laws.RowFits.vpermilpsVar256 ..
  | .vpermilpsImm256 .. => Laws.RowFits.vpermilpsImm256 ..
  | .vperm2f128 .. => Laws.RowFits.vperm2f128 ..
  | .vpmaskmovdLoad128 .. => Laws.RowFits.vpmaskmovdLoad128 ..
  | .vpmaskmovdLoad256 .. => Laws.RowFits.vpmaskmovdLoad256 ..
  | .vpmaskmovqLoad128 .. => Laws.RowFits.vpmaskmovqLoad128 ..
  | .vpmaskmovqLoad256 .. => Laws.RowFits.vpmaskmovqLoad256 ..
  | .vpmaskmovdStore128 .. => Laws.RowFits.vpmaskmovdStore128 ..
  | .vpmaskmovdStore256 .. => Laws.RowFits.vpmaskmovdStore256 ..
  | .vpmaskmovqStore128 .. => Laws.RowFits.vpmaskmovqStore128 ..
  | .vpmaskmovqStore256 .. => Laws.RowFits.vpmaskmovqStore256 ..
  | .vpsllvd128 .. => Laws.RowFits.vpsllvd128 ..
  | .vpsllvq128 .. => Laws.RowFits.vpsllvq128 ..
  | .vpsllvd256 .. => Laws.RowFits.vpsllvd256 ..
  | .vpsllvq256 .. => Laws.RowFits.vpsllvq256 ..

/-- A memory operand's `mod` is not that of a register (R91). -/
theorem RM.encode_mem_md (m : Mem) : (RM.mem m).encode.md ≠ 0b11#2 := by
  cases m with
  | base b d => exact d.md_ne_register
  | ripRel d => simp [RM.encode]
  | sib b index scale d => exact d.md_ne_register
  | sibNoBase index scale d => simp [RM.encode]

/-- Behind the first five bytes of its encoding, an instruction is read by a row that makes it back from its operands (R96, R105). -/
theorem decode_encoding_head (i : Instr) :
    ∃ row : Row, row.ib = i.encoding.imm.isSome ∧
      row.make ⟨i.encoding.reg, i.encoding.v, i.encoding.rm, i.encoding.imm.getD 0⟩ = some i ∧
      ∀ tail, decode (0xC4 :: i.encoding.vex.p1 :: i.encoding.vex.p2 :: i.encoding.key.op :: i.encoding.modrm :: tail) =
        decodeRow row i.encoding.vex i.encoding.modrm
          (0xC4#8 ++ i.encoding.vex.p1 ++ i.encoding.vex.p2 ++ i.encoding.key.op) tail := by
  obtain ⟨-, row, hrow, hkey, hib, hv, hmem, hmake⟩ := rowFits i
  refine ⟨row, hib, hmake, fun tail => ?_⟩
  have hmatch : row.matches i.encoding.vex i.encoding.key.op i.encoding.rm.encode.md = true := by
    simp only [Row.matches, hkey, i.encoding.hasKey, Bool.and_eq_true, Bool.or_eq_true, Bool.not_eq_true', decide_eq_true_eq,
      true_and]
    constructor
    · cases hu : row.usesV with
      | false => exact .inr (hv hu)
      | true => exact .inl rfl
    · cases hm : row.memOnly with
      | false => exact .inl rfl
      | true =>
        obtain ⟨m, hrm⟩ := hmem hm
        exact .inr (hrm ▸ RM.encode_mem_md m)
  have hud : udRows.find? (UdRow.hit i.encoding.vex i.encoding.key.op i.encoding.rm.encode.md) = none :=
    List.find?_eq_none.2 fun u _ => by simp [UdRow.hit_eq_false hrow hmatch u]
  simp only [decode, decodeVex, ne_eq, not_true_eq_false, if_false, Vex.ofBytes_p1_p2, i.encoding.modrm_fields.1, hud,
    find?_opcodeTable hrow hmatch]

/-! ### An encoding cut short -/

theorem Disp.size_le (d : Disp) : d.size ≤ 4 := by cases d <;> simp [Disp.size]

theorem RM.size_le (rm : RM) : rm.size ≤ 5 := by
  cases rm with
  | reg r => simp [RM.size]
  | mem m =>
    cases m with
    | base b d => exact d.size_le.trans (by decide)
    | ripRel d => simp [RM.size]
    | sib b index scale d => exact Nat.add_le_add_left d.size_le 1
    | sibNoBase index scale d => simp [RM.size]

/-- No instruction is longer than the decoder's window (R97). -/
theorem Instr.length_le (i : Instr) : i.length ≤ Config.maxInstrBytes := by
  have hsize := i.encoding.rm.size_le
  have himm : (if i.encoding.imm.isSome = true then 1 else 0) ≤ 1 := by split <;> decide
  simp only [Instr.length, formLength, Config.maxInstrBytes]
  omega

/-- A row whose bytes end inside the operand or before the immediate gives no verdict: what it reads of the operand, it would read
of the whole too, and then nothing of the immediate is left (R263). -/
theorem decodeRow_truncated {row : Row} {v : Vex} {modrm : Byte} {k : BitVec 32} {tail missing : List Byte} {rm : RM}
    {imm : Option Byte} (hib : row.ib = imm.isSome)
    (hwhole : decodeRM v (modrm.extractLsb' 6 2) (modrm.extractLsb' 0 3) (tail ++ missing) = some (rm, imm.toList))
    (hmissing : missing ≠ []) : decodeRow row v modrm k tail = .truncated := by
  cases hcut : decodeRM v (modrm.extractLsb' 6 2) (modrm.extractLsb' 0 3) tail with
  | none => simp [decodeRow, hcut]
  | some p =>
    obtain ⟨rm', rest⟩ := p
    have hsame := (decodeRM_eq_some hcut).2 missing
    rw [hwhole, Option.some.injEq, Prod.mk.injEq] at hsame
    have hrest := congrArg List.length hsame.2
    have hpos := List.length_pos_iff.2 hmissing
    rw [List.length_append] at hrest
    cases imm with
    | none =>
      simp only [Option.toList_none, List.length_nil] at hrest
      omega
    | some b =>
      simp only [Option.toList_some, List.length_singleton] at hrest
      have hnil : rest = [] := List.eq_nil_of_length_eq_zero (by omega)
      simp [decodeRow, hcut, hib, hnil]

/-- Every proper initial part of an encoding is truncated (R263). -/
theorem decode_take_encode {i : Instr} {n : Nat} (hwf : i.wf = true) (hn : n < i.length) :
    decode ((encode i).take n) = .truncated := by
  match n, hn with
  | 0, _ | 1, _ | 2, _ | 3, _ | 4, _ => rfl
  | n + 5, hn =>
    obtain ⟨row, hib, -, hdecode⟩ := decode_encoding_head i
    have hwhole := decodeRM_encode i.encoding.vex i.encoding.rm i.encoding.imm.toList ((rowFits i).1 ▸ hwf) rfl rfl
    obtain ⟨hmd, -, hlow⟩ := i.encoding.modrm_fields
    rw [← List.take_append_drop n (_ ++ _), ← hmd, ← hlow] at hwhole
    refine (hdecode _).trans (decodeRow_truncated hib hwhole fun hnil => ?_)
    have hlen := i.encoding.bytes_length
    simp only [Encoding.bytes, List.cons_append, List.nil_append, List.length_cons] at hlen
    have hdrop := List.drop_eq_nil_iff.1 hnil
    rw [Instr.length] at hn
    omega

end Sys2Proof
end

section
/-! What an instruction and a step that complete leave unchanged: the frame of each shape, and what every step keeps (R22, R25, R33,
R52, R261, R263). -/

namespace Sys2Proof.Machine

/-! ### The frame of each shape -/

/-- An instruction that completes moves `rip` past itself and leaves the control state as it was (R24 to R28, R33). -/
theorem exec_advanced {i : Instr} {s t : State} (h : exec i s = .next t) : Advanced i.length s t := by
  obtain ⟨eb, rm, ib, d, result, -, hlen, -, -, -, -, heq⟩ | ⟨W, w, d, v, m, -, hlen, -, -, -, -, heq⟩ |
    ⟨W, w, m, v, src, -, hlen, -, -, -, -, heq⟩ := exec_shape i <;> rw [heq] at h <;> rw [hlen]
  · obtain ⟨-, rfl⟩ := sourceForm_eq_next h
    exact ⟨rfl, rfl, rfl, rfl, rfl, rfl, rfl⟩
  · obtain ⟨-, rfl⟩ := maskedLoadForm_eq_next h
    exact ⟨rfl, rfl, rfl, rfl, rfl, rfl, rfl⟩
  · obtain ⟨-, rfl, -⟩ := maskedStoreForm_eq_next h
    exact ⟨rfl, rfl, rfl, rfl, rfl, rfl, rfl⟩

/-- A masked store that completes writes elements to memory and no vector register (R52, R132). -/
theorem exec_store {i : Instr} {s t : State} (hi : isStore i = true) (h : exec i s = .next t) :
    t.ymm = s.ymm ∧ ∃ (W w n : Nat) (chosen : Nat → Bool) (src : BitVec W) (ea : Word),
      t.mem = storeElems w chosen src ea s.mem n := by
  obtain ⟨eb, rm, ib, d, result, hmove, -, -, -, -, -, -⟩ | ⟨W, w, d, v, m, hmove, -, -, -, -, -, -⟩ |
    ⟨W, w, m, v, src, -, -, -, -, -, -, heq⟩ := exec_shape i
  · simp [isStore, hmove] at hi
  · simp [isStore, hmove] at hi
  · rw [heq] at h
    obtain ⟨-, rfl, -⟩ := maskedStoreForm_eq_next h
    exact ⟨rfl, W, w, W / w, _, _, _, rfl⟩

/-- Every other form that completes writes no memory, and no vector register but the one in ModRM:reg (R22, R52). -/
theorem exec_not_store {i : Instr} {s t : State} (hi : isStore i = false) (h : exec i s = .next t) :
    t.mem = s.mem ∧ ∀ r, r ≠ i.encoding.reg → t.readYmm r = s.readYmm r := by
  obtain ⟨eb, rm, ib, d, result, -, -, -, hdest, -, -, heq⟩ | ⟨W, w, d, v, m, -, -, -, hdest, -, -, heq⟩ |
    ⟨W, w, m, v, src, hmove, -, -, -, -, -, -⟩ := exec_shape i
  · rw [heq] at h
    obtain ⟨-, rfl⟩ := sourceForm_eq_next h
    exact ⟨rfl, fun r hr => State.readYmm_writeBack_other _ _ _ (hdest ▸ hr)⟩
  · rw [heq] at h
    obtain ⟨-, rfl⟩ := maskedLoadForm_eq_next h
    exact ⟨rfl, fun r hr => State.readYmm_writeBack_other _ _ _ (hdest ▸ hr)⟩
  · simp [isStore, hmove] at hi

/-- An instruction that completes keeps the canonical form of memory (log entry 4). -/
theorem exec_mem_wf {i : Instr} {s t : State} (hwf : s.mem.wf = true) (h : exec i s = .next t) : t.mem.wf = true := by
  cases hi : isStore i with
  | false => rwa [(exec_not_store hi h).1]
  | true =>
    obtain ⟨-, W, w, n, chosen, src, ea, hmem⟩ := exec_store hi h
    rw [hmem]
    exact wf_storeElems w chosen src ea n hwf

/-- Settles O19: the frame of a store and of every other form. -/
theorem storesWriteMemoryOthersOneRegister : Obligations.StoresWriteMemoryOthersOneRegister :=
  fun _ _ _ h => ⟨fun hi => (exec_store hi h).1, fun hi => exec_not_store hi h⟩

/-! ### The step -/

/-- A step that completes ran one instruction whose bytes all lie in the text, and moved `rip` past exactly these (R25, R263). -/
theorem step_ran {s t : State} (h : step s = .next t) :
    ∃ i rest, decode (fetchWindow s) = .instr i rest ∧ exec i s = .next t ∧ Advanced i.length s t ∧
      t.ripNat = s.ripNat + i.length ∧ s.AtText ∧ t.ripNat ≤ s.launch.textEnd := by
  obtain ⟨i, hfetch, hexec⟩ := step_eq_next.1 h
  obtain ⟨hat, -, rest, hdecode⟩ := fetch_eq_next hfetch
  have hadv := exec_advanced hexec
  have ⟨hrip, hcarry, _⟩ := hadv
  have hwindow : i.length ≤ s.launch.textEnd - s.ripNat := by
    have hlen := decode_length hdecode
    rw [fetchWindow, Memory.length_readBytes] at hlen
    omega
  have htop := Launch.textFits_iff.1 hat.1
  have hin := hat.2.2
  have hmove : t.ripNat = s.ripNat + i.length := State.ripNat_advance hat.ripNat_eq.1 (by omega) hrip hcarry
  exact ⟨i, rest, hdecode, hexec, hadv, hmove, hat, by omega⟩

/-- Settles O16: `step_ran`, and the launch is as it was. -/
theorem ripAdvancesByLength : Obligations.RipAdvancesByLength := by
  intro s t h
  obtain ⟨i, rest, hdecode, hexec, ⟨hrip, -, -, -, -, hlaunch, -⟩, hmove, -, hend⟩ := step_ran h
  exact ⟨i, rest, hdecode, hexec, hrip, hmove, hlaunch ▸ hend⟩

/-- Settles O18: the control state of `Advanced`. -/
theorem stepKeepsControlState : Obligations.StepKeepsControlState := by
  intro s t h
  obtain ⟨i, rest, -, -, ⟨-, -, hgpr, hflags, hmxcsr, hlaunch, hdraws⟩, -, -, -⟩ := step_ran h
  exact ⟨hgpr, hflags, hmxcsr, hlaunch, hdraws⟩

/-- Settles O17: memory stays canonical, the launch is as it was, and `rip` has moved on within the text. -/
theorem stepKeepsInvariant : Obligations.StepKeepsInvariant := by
  rintro s t ⟨hmem, havx, hfits, hfetchable, hbase, -⟩ h
  obtain ⟨i, rest, -, hexec, ⟨-, -, -, -, -, hlaunch, -⟩, hmove, -, hend⟩ := step_ran h
  rw [State.Inv, hlaunch]
  exact ⟨exec_mem_wf hmem hexec, havx, hfits, hfetchable, by omega, hend⟩

/-! ### The bounds of a text -/

/-- A text that would cross the top of the address space is refused (R26, R261). -/
theorem step_textWraps {s : State} (h : s.launch.textFits = false) : step s = .refused .textWraps := by
  simp [step, fetch, h, andThen]

/-- At the end of the text there is nothing to execute (R263). -/
theorem step_runComplete {s : State} (hfits : s.launch.textFits = true) (h : s.completed) :
    step s = .refused .runComplete := by
  simp [step, fetch, hfits, show s.ripNat = s.launch.textEnd from h, andThen]

/-- Before the text and beyond its end `rip` is outside of it (R263). -/
theorem step_outsideText {s : State} (hfits : s.launch.textFits = true)
    (h : s.ripNat < s.launch.textBase.toNat ∨ s.launch.textEnd < s.ripNat) : step s = .refused .outsideText := by
  have hne : s.ripNat ≠ s.launch.textEnd := by
    have : s.launch.textBase.toNat ≤ s.launch.textEnd := Nat.le_add_right _ _
    omega
  simp [step, fetch, hfits, hne, h, andThen]

/-- Where the rest of the text is a proper initial part of an instruction, the launch is refused (R263). -/
theorem step_textEndsInside {s : State} (hat : s.AtText) {i : Instr} {n : Nat} (hwf : i.wf = true) (hn : n < i.length)
    (hend : s.ripNat + n = s.launch.textEnd) (hbytes : s.mem.readBytes s.rip n = (encode i).take n) :
    step s = .refused .textEndsInside := by
  have hwindow : fetchWindow s = (encode i).take n := by
    have hle := i.length_le
    rw [fetchWindow, ← hend, Nat.add_sub_cancel_left, Nat.min_eq_right (by omega), hbytes]
  rw [step, fetch_inside hat, hwindow, decode_take_encode hwf hn]
  rfl

/-- Settles O24: the four places of `rip`. -/
theorem endOfTextRefused : Obligations.EndOfTextRefused := by
  intro s
  refine ⟨fun hwraps => step_textWraps ?_, fun hfits => ?_⟩
  · exact decide_eq_false (Nat.not_le.2 hwraps)
  · have hfits : s.launch.textFits = true := Launch.textFits_iff.2 hfits
    refine ⟨step_runComplete hfits, step_outsideText hfits, fun i n hwf hpos hn hbase hend hbytes => ?_⟩
    exact step_textEndsInside ⟨hfits, hbase, by omega⟩ hwf hn hend hbytes

/-! ### Reset -/

/-- Settles O2: the registers after reset are filled with 0, and an empty memory reads as unlisted everywhere. -/
theorem resetValues : Obligations.ResetValues := by
  refine ⟨fun r => ⟨?_, ?_⟩, rfl, rfl, rfl, fun _ => rfl⟩
  · simp [State.readYmm, State.reset]
  · simp [State.readGpr, State.reset]

end Sys2Proof.Machine
end

section
/-! Effective addresses over the integers: each addressing shape is the sum of its integer parts, cut to 64 bits (R89, R90, R93). -/

namespace Sys2Proof.Machine

/-- A word made of an integer has the integer's value modulo 2^64. -/
theorem toNat_ofInt_word (z : Int) : ((BitVec.ofInt 64 z).toNat : Int) = z % 2 ^ 64 := by
  rw [BitVec.toNat_ofInt]
  exact Int.toNat_of_nonneg (Int.emod_nonneg _ (by decide))

/-- A general register is its unsigned value (R24). -/
theorem readGpr_eq_ofInt (s : State) (r : RegNum) : s.readGpr r = BitVec.ofInt 64 (gprInt s r) := by
  rw [gprInt, BitVec.ofInt_natCast, BitVec.ofNat_toNat, BitVec.setWidth_eq]
  rfl

/-- A displacement is its signed value (R90, R93). -/
theorem dispValue_eq_ofInt (d : Disp) : dispValue d = BitVec.ofInt 64 (dispInt d) := by
  cases d with
  | d0 => rfl
  | d8 d => rfl
  | d32 d => rfl

/-- A scaled index is the register's value times the scale (R89). -/
theorem indexValue_eq_ofInt (s : State) (index : Option RegNum) (scale : BitVec 2) :
    indexValue s index scale = BitVec.ofInt 64 (indexInt s index scale) := by
  cases index with
  | none => rfl
  | some r =>
    have hcast : (2 : Int) ^ scale.toNat = ((2 ^ scale.toNat : Nat) : Int) := by norm_cast
    have htwo : BitVec.twoPow 64 scale.toNat = BitVec.ofNat 64 (2 ^ scale.toNat) := BitVec.eq_of_toNat_eq (by simp)
    rw [indexValue, indexInt, readGpr_eq_ofInt, BitVec.shiftLeft_eq_mul_twoPow, BitVec.ofInt_mul, hcast,
      BitVec.ofInt_natCast, htwo]

/-- Settles O56: every shape adds words that are those of its integer parts. -/
theorem effectiveAddresses : Obligations.EffectiveAddresses := by
  intro s len b index scale d d32
  have hd32 : d32.signExtend 64 = BitVec.ofInt 64 d32.toInt := rfl
  refine ⟨?base, ?ripRel, ?sib, ?sibNoBase⟩ <;> rw [← toNat_ofInt_word] <;> congr 2
  case base => rw [effAddr, readGpr_eq_ofInt, dispValue_eq_ofInt, BitVec.ofInt_add]
  case ripRel =>
    rw [effAddr, hd32, BitVec.ofInt_add, BitVec.ofInt_add, BitVec.ofInt_natCast, BitVec.ofInt_natCast, BitVec.ofNat_toNat,
      BitVec.setWidth_eq]
  case sib => rw [effAddr, readGpr_eq_ofInt, indexValue_eq_ofInt, dispValue_eq_ofInt, BitVec.ofInt_add, BitVec.ofInt_add]
  case sibNoBase => rw [effAddr, indexValue_eq_ofInt, hd32, BitVec.ofInt_add]

end Sys2Proof.Machine
end

section
/-! What no step reads: a change of the state that leaves every field a step reads as it was, and that commutes with what a step
writes, changes no outcome but the states in it. MXCSR and all flags but AC are such changes (R27, R28, R236). -/

namespace Sys2Proof.Machine

/-! ### Unread changes, and outcomes under them -/

/-- The change `g` leaves alone, at the state `s`, all that an instruction reads, and commutes with all that it writes. -/
structure UnreadChange (g : State → State) (s : State) : Prop where
  ymm : (g s).ymm = s.ymm
  gpr : (g s).gpr = s.gpr
  rip : (g s).rip = s.rip
  ripCarry : (g s).ripCarry = s.ripCarry
  mem : (g s).mem = s.mem
  launch : (g s).launch = s.launch
  draws : (g s).draws = s.draws
  checking : (g s).alignmentChecking = s.alignmentChecking
  withMem : ∀ m, { g s with mem := m } = g { s with mem := m }
  advance : ∀ m n, (g { s with mem := m }).advance n = g (State.advance { s with mem := m } n)
  writeBack : ∀ {W : Nat} (d : RegNum) (v : BitVec W) n, (g s).writeBack d v n = g (s.writeBack d v n)

/-- The outcome with `f` applied to its value and `g` to the state that a fault hands over. -/
def mapOutcome {α β : Type} (g : State → State) (f : α → β) : Result α → Result β
  | .next a => .next (f a)
  | .fault r => .fault (r.mapState g)
  | .refused r => .refused r

/-- Sequencing maps if both computations do. -/
theorem andThen_mapOutcome {α α' β β' : Type} {g : State → State} {f : α → α'} {f' : β → β'} {x : Result α} {x' : Result α'}
    {k : α → Result β} {k' : α' → Result β'} (hx : x' = mapOutcome g f x) (hk : ∀ a, k' (f a) = mapOutcome g f' (k a)) :
    andThen x' k' = mapOutcome g f' (andThen x k) := by
  subst hx
  cases x with
  | next a => exact hk a
  | fault r => rfl
  | refused r => rfl

namespace UnreadChange

variable {g : State → State} {s : State}

theorem readVec_eq (hg : UnreadChange g s) (W : Nat) (r : RegNum) : (g s).readVec W r = s.readVec W r := by
  simp only [State.readVec, State.readYmm, hg.ymm]

theorem readGpr_eq (hg : UnreadChange g s) (r : RegNum) : (g s).readGpr r = s.readGpr r := by
  simp only [State.readGpr, hg.gpr]

theorem ripNat_eq (hg : UnreadChange g s) : (g s).ripNat = s.ripNat := by
  simp only [State.ripNat, hg.rip, hg.ripCarry]

theorem hasFeature_eq (hg : UnreadChange g s) (f : Feature) : (g s).hasFeature f = s.hasFeature f := by
  cases f with
  | avx => simp only [State.hasFeature, hg.launch]
  | avx2 => simp only [State.hasFeature, hg.launch]

theorem effAddr_eq (hg : UnreadChange g s) (m : Mem) (len : Nat) : effAddr m len (g s) = effAddr m len s := by
  have hindex (index : Option RegNum) (scale : BitVec 2) : indexValue (g s) index scale = indexValue s index scale := by
    cases index with
    | none => rfl
    | some r => simp only [indexValue, hg.readGpr_eq]
  cases m with
  | base b d => simp only [effAddr, hg.readGpr_eq]
  | ripRel d => simp only [effAddr, hg.rip]
  | sib b index scale d => simp only [effAddr, hg.readGpr_eq, hindex]
  | sibNoBase index scale d => simp only [effAddr, hindex]

/-! ### The shared operations -/

theorem checkAlignment_map (hg : UnreadChange g s) (eb : Nat) (ea : Word) :
    checkAlignment eb ea (g s) = mapOutcome g id (checkAlignment eb ea s) := by
  simp only [checkAlignment, hg.checking, hg.draws]
  split <;> rfl

theorem withFeature_map (hg : UnreadChange g s) {α β : Type} {f : α → β} {feature : Feature} {body : Result α}
    {body' : Result β} (h : body' = mapOutcome g f body) : withFeature feature (g s) body' = mapOutcome g f (withFeature feature s body) := by
  simp only [withFeature, hg.hasFeature_eq]
  split
  · exact h
  · rfl

theorem readRM_map (hg : UnreadChange g s) (W eb : Nat) (rm : RM) (len : Nat) :
    readRM W eb rm len (g s) = mapOutcome g id (readRM W eb rm len s) := by
  cases rm with
  | reg r => simp only [readRM, hg.readVec_eq, mapOutcome, id]
  | mem m =>
    simp only [readRM, readMem, hg.effAddr_eq, hg.launch, hg.mem]
    refine andThen_mapOutcome (hg.checkAlignment_map _ _) fun _ => ?_
    split
    · split <;> rfl
    · rfl

theorem maskedLoad_map (hg : UnreadChange g s) {W : Nat} (w n : Nat) (mask : BitVec W) (ea : Word) :
    maskedLoad w n mask ea (g s) = mapOutcome g id (maskedLoad w n mask ea s) := by
  simp only [maskedLoad, hg.launch, hg.mem, hg.draws]
  split
  · rfl
  · refine andThen_mapOutcome (hg.checkAlignment_map _ _) fun _ => ?_
    split <;> rfl

theorem partiallyStored_eq (hg : UnreadChange g s) {W : Nat} (w : Nat) (mask : BitVec W) (ea : Word) :
    partiallyStored w mask ea (g s) = partiallyStored w mask ea s := by
  funext i
  simp only [partiallyStored, hg.launch, hg.draws]

theorem maskedStore_map (hg : UnreadChange g s) {W : Nat} (w n : Nat) (mask src : BitVec W) (ea : Word) :
    maskedStore w n mask src ea (g s) = mapOutcome g g (maskedStore w n mask src ea s) := by
  simp only [maskedStore, hg.launch, hg.mem, hg.draws, hg.partiallyStored_eq, ↓hg.withMem]
  split
  · rfl
  · split
    · rfl
    · refine andThen_mapOutcome (hg.checkAlignment_map _ _) fun _ => ?_
      split <;> rfl

/-! ### The three shapes, the dispatch, the fetch and the step -/

theorem sourceForm_map (hg : UnreadChange g s) {R W : Nat} {f : Feature} {eb : Nat} {rm : RM} {ib : Bool} {d : RegNum}
    {result result' : BitVec W → BitVec R} (h : result' = result) :
    sourceForm f W eb rm ib d result' (g s) = mapOutcome g g (sourceForm f W eb rm ib d result s) := by
  subst h
  refine hg.withFeature_map (andThen_mapOutcome (hg.readRM_map _ _ _ _) fun v => ?_)
  exact congrArg Host.Outcome.next (hg.writeBack d (result' v) _)

theorem maskedLoadForm_map (hg : UnreadChange g s) (f : Feature) (W w : Nat) (d v : RegNum) (m : Mem) :
    maskedLoadForm f W w d v m (g s) = mapOutcome g g (maskedLoadForm f W w d v m s) := by
  refine hg.withFeature_map (andThen_mapOutcome (f := id) ?_ fun r => ?_)
  · rw [hg.readVec_eq, hg.effAddr_eq, hg.maskedLoad_map]
  · exact congrArg Host.Outcome.next (hg.writeBack d r _)

theorem maskedStoreForm_map (hg : UnreadChange g s) (f : Feature) (W w : Nat) (m : Mem) (v src : RegNum) :
    maskedStoreForm f W w m v src (g s) = mapOutcome g g (maskedStoreForm f W w m v src s) := by
  simp only [maskedStoreForm, hg.readVec_eq, hg.effAddr_eq]
  refine hg.withFeature_map ?_
  rw [hg.maskedStore_map]
  cases hstore : maskedStore w (W / w) (s.readVec W v) (s.readVec W src) (effAddr m (formLength (.mem m) false) s) s with
  | next t =>
    rw [(maskedStore_eq_next hstore).1]
    exact congrArg Host.Outcome.next (hg.advance _ _)
  | fault r => rfl
  | refused r => rfl

/-- No instruction's meaning reads the change. -/
theorem exec_map (hg : UnreadChange g s) (i : Instr) : exec i (g s) = mapOutcome g g (exec i s) := by
  cases i
  case vmaskmovpsLoad128 | vmaskmovpsLoad256 | vmaskmovpdLoad128 | vmaskmovpdLoad256 | vpmaskmovdLoad128
      | vpmaskmovdLoad256 | vpmaskmovqLoad128 | vpmaskmovqLoad256 => exact hg.maskedLoadForm_map _ _ _ _ _ _
  case vmaskmovpsStore128 | vmaskmovpsStore256 | vmaskmovpdStore128 | vmaskmovpdStore256 | vpmaskmovdStore128
      | vpmaskmovdStore256 | vpmaskmovqStore128 | vpmaskmovqStore256 => exact hg.maskedStoreForm_map _ _ _ _ _ _
  all_goals
    refine hg.sourceForm_map (funext fun src => ?_)
    simp only [hg.readVec_eq]

theorem decodedOutcome_map (hg : UnreadChange g s) (verdict : Decoded) :
    decodedOutcome (g s) verdict = mapOutcome g id (decodedOutcome s verdict) := by
  have hfetched {α β : Type} {f : α → β} (n : Nat) {x : Result α} {x' : Result β} (hx : x' = mapOutcome g f x) :
      fetched n (g s) x' = mapOutcome g f (fetched n s x) := by
    simp only [fetched, hg.launch, hg.rip]
    split
    · exact hx
    · rfl
  cases verdict with
  | instr i rest => exact hfetched _ rfl
  | ud row => exact hfetched _ rfl
  | foreign why => exact hfetched _ rfl
  | truncated => rfl

theorem fetch_map (hg : UnreadChange g s) : fetch (g s) = mapOutcome g id (fetch s) := by
  have hwindow : fetchWindow (g s) = fetchWindow s := by
    simp only [fetchWindow, hg.mem, hg.rip, hg.launch, hg.ripNat_eq]
  simp only [fetch, hg.launch, hg.ripNat_eq, hwindow]
  split
  · rfl
  · split
    · rfl
    · split
      · rfl
      · exact hg.decodedOutcome_map _

/-- A step from the changed state has the outcome of the step from the state itself, with the change in what it gives. -/
theorem step_map (hg : UnreadChange g s) : step (g s) = mapOutcome g g (step s) :=
  andThen_mapOutcome hg.fetch_map hg.exec_map

/-- The same, outcome by outcome. -/
theorem step_outcomes (hg : UnreadChange g s) :
    (∀ t, step s = .next t → step (g s) = .next (g t)) ∧ (∀ r, step s = .refused r → step (g s) = .refused r) ∧
      ∀ r, step s = .fault r → step (g s) = .fault (r.mapState g) := by
  rw [hg.step_map]
  refine ⟨fun t h => ?_, fun r h => ?_, fun r h => ?_⟩ <;> rw [h] <;> rfl

end UnreadChange

/-! ### The two changes -/

/-- Another MXCSR is an unread change (R28). -/
theorem unreadChange_mxcsr (s : State) (c : BitVec 32) : UnreadChange (fun t => { t with mxcsr := c }) s :=
  ⟨rfl, rfl, rfl, rfl, rfl, rfl, rfl, rfl, fun _ => rfl, fun _ _ => rfl, fun _ _ _ => rfl⟩

/-- Another flags register with the same AC is an unread change (R27, R54). -/
theorem unreadChange_rflags (s : State) (f : BitVec 64) (hac : f.getLsbD 18 = s.rflags.getLsbD 18) :
    UnreadChange (fun t => { t with rflags := f }) s :=
  ⟨rfl, rfl, rfl, rfl, rfl, rfl, rfl, congrArg (s.launch.alignArmed && ·) hac, fun _ => rfl, fun _ _ => rfl,
    fun _ _ _ => rfl⟩

/-- Settles O22: MXCSR is in no field that a step reads. -/
theorem mxcsrInfluencesNothing : Obligations.MxcsrInfluencesNothing :=
  fun s c => (unreadChange_mxcsr s c).step_outcomes

/-- Settles O23: of the flags a step reads AC only, in the alignment check. -/
theorem onlyAcFlagInfluences : Obligations.OnlyAcFlagInfluences :=
  fun s f hac => (unreadChange_rflags s f hac).step_outcomes

end Sys2Proof.Machine
end

section
/-! The text along a run: no instruction writes a byte of it, so no step and no run does (R70, R261; D23). -/

namespace Sys2Proof.Machine

/-- An instruction that completes changes no byte of the text: a store's enabled elements have none (R70). -/
theorem exec_keeps_text {i : Instr} {s t : State} (hwf : s.mem.wf = true) (h : exec i s = .next t) {a : Word}
    (ha : s.launch.inText a = true) : t.mem.read a.toNat = s.mem.read a.toNat := by
  cases exec_shape i with
  | source eb rm ib d result _ _ _ _ _ _ heq =>
    obtain ⟨-, rfl⟩ := sourceForm_eq_next (heq s ▸ h)
    rfl
  | load W w d v m _ _ _ _ _ _ heq =>
    obtain ⟨-, rfl⟩ := maskedLoadForm_eq_next (heq s ▸ h)
    rfl
  | store W w m v src _ _ _ _ _ _ heq =>
    obtain ⟨-, rfl, hclear⟩ := maskedStoreForm_eq_next (heq s ▸ h)
    refine read_storeElems_other w _ _ _ _ hwf _ fun i hi hmask k hk haddr => ?_
    have hout := touches_eq_false.1 (hclear i hi hmask) k hk
    rw [← BitVec.eq_of_toNat_eq haddr, ha] at hout
    cases hout

/-- From `s` to `t` the launch and every byte of the text are as they were (R261; D23). -/
def KeepsText (s t : State) : Prop :=
  t.launch = s.launch ∧ ∀ a : Word, s.launch.inText a = true → t.mem.read a.toNat = s.mem.read a.toNat

theorem KeepsText.refl (s : State) : KeepsText s s := ⟨rfl, fun _ _ => rfl⟩

theorem KeepsText.trans {s t u : State} (hst : KeepsText s t) (htu : KeepsText t u) : KeepsText s u := by
  obtain ⟨hlaunch, htext⟩ := hst
  obtain ⟨hlaunch', htext'⟩ := htu
  exact ⟨hlaunch'.trans hlaunch, fun a ha => (htext' a (hlaunch ▸ ha)).trans (htext a ha)⟩

theorem step_keepsText {s t : State} (hwf : s.mem.wf = true) (h : step s = .next t) : KeepsText s t := by
  obtain ⟨i, -, hexec⟩ := step_eq_next.1 h
  obtain ⟨-, -, -, -, -, hlaunch, -⟩ := exec_advanced hexec
  exact ⟨hlaunch, fun _ ha => exec_keeps_text hwf hexec ha⟩

/-- A run that completes is a step that completes, then the run from the state it gives. -/
theorem run_succ_eq_next {k : Nat} {s u : State} (h : Host.Core.run Sys2Proof.core (k + 1) s = .next u) :
    ∃ t, step s = .next t ∧ Host.Core.run Sys2Proof.core k t = .next u := by
  simp only [Host.Core.run] at h
  split at h
  case h_1 t hstep => exact ⟨t, hstep, h⟩
  case h_2 => cases h
  case h_3 => cases h

/-- A relation between the first and the last state of a run of `k` steps, from the steps: it holds of no step, and a step from a
state of the invariant goes before it. -/
theorem run_induction {R : Nat → State → State → Prop} (zero : ∀ s, R 0 s s)
    (succ : ∀ k s t u, s.Inv → step s = .next t → R k t u → R (k + 1) s u) {k : Nat} {s u : State} (hinv : s.Inv)
    (h : Host.Core.run Sys2Proof.core k s = .next u) : R k s u := by
  induction k generalizing s with
  | zero =>
    cases h
    exact zero _
  | succ k ih =>
    obtain ⟨t, hstep, hrun⟩ := run_succ_eq_next h
    exact succ k s t u hinv hstep (ih (stepKeepsInvariant s t hinv hstep) hrun)

/-- Settles O20: by induction on the run, since every step keeps the launch, the text and the invariant. -/
theorem runsNeverWriteText : Obligations.RunsNeverWriteText := fun _ _ _ hinv hrun =>
  run_induction (R := fun _ => KeepsText) KeepsText.refl
    (fun _ _ _ _ hs hstep hrest => (step_keepsText hs.1 hstep).trans hrest) hinv hrun

end Sys2Proof.Machine
end

section
/-! The decoder inverts the encoder, whatever bytes follow (R82 to R105). -/

namespace Sys2Proof

/-- A row whose operand, and immediate if it has one, are all there answers what it makes of them (R85, R105 step 6). -/
theorem decodeRow_complete {row : Row} {v : Vex} {modrm : Byte} {k : BitVec 32} {tail rest : List Byte} {rm : RM}
    {imm : Option Byte} {i : Instr} (hib : row.ib = imm.isSome)
    (hoperand : decodeRM v (modrm.extractLsb' 6 2) (modrm.extractLsb' 0 3) tail = some (rm, imm.toList ++ rest))
    (hmake : row.make ⟨v.r ++ modrm.extractLsb' 3 3, v.vvvv, rm, imm.getD 0⟩ = some i) :
    decodeRow row v modrm k tail = .instr i rest := by
  cases imm with
  | none =>
    rw [Option.getD_none] at hmake
    simp only [decodeRow, hoperand, hib, hmake, Option.isSome_none, Bool.false_eq_true, if_false, Option.toList_none,
      List.nil_append]
  | some b =>
    rw [Option.getD_some] at hmake
    simp [decodeRow, hoperand, hib, hmake]

/-- A well-formed instruction is what the decoder reads from its encoding, whatever bytes follow (R82 to R105). -/
theorem decode_encode_append {i : Instr} (rest : List Byte) (hwf : i.wf = true) : decode (encode i ++ rest) = .instr i rest := by
  obtain ⟨row, hib, hmake, hdecode⟩ := decode_encoding_head i
  obtain ⟨hmd, hreg, hlow⟩ := i.encoding.modrm_fields
  have hoperand := decodeRM_encode i.encoding.vex i.encoding.rm (i.encoding.imm.toList ++ rest) ((rowFits i).1 ▸ hwf) rfl rfl
  have hnumber : i.encoding.vex.r ++ i.encoding.reg.low = i.encoding.reg := RegNum.high_append_low _
  rw [encode, Encoding.bytes, List.append_assoc, List.append_assoc]
  refine (hdecode _).trans (decodeRow_complete (rm := i.encoding.rm) hib ?_ ?_)
  · rw [hmd, hlow]
    exact hoperand
  · rw [hreg, hnumber]
    exact hmake

end Sys2Proof
end

section
/-! `Accessible` over ranges, and the fetch: the outcome of a step at text bytes that may be fetched and at bytes that may not
(R58, R105, R238, R263). -/

namespace Sys2Proof.Machine

/-! ### `Accessible` -/

/-- A range is accessible exactly if each of its bytes is (R58). -/
theorem accessible_iff {l : Launch} {a : Word} {n : Nat} {kind : AccessKind} :
    l.accessible a n kind = true ↔ ∀ k < n, l.accessibleByte kind (byteAddr a k) = true := by
  simp [Launch.accessible]

theorem byteAddr_byteAddr (a : Word) (j k : Nat) : byteAddr (byteAddr a j) k = byteAddr a (j + k) := by
  simp [byteAddr, BitVec.add_assoc, BitVec.ofNat_add]

/-- Settles O53: the bytes of a sub-range are bytes of the range, and each byte of a union is a byte of one part. -/
theorem accessibleIsMonotone : Obligations.AccessibleIsMonotone := by
  intro l a n kind
  simp only [accessible_iff, byteAddr_byteAddr]
  refine ⟨fun h j m hjm k hk => h (j + k) (by omega), fun m hleft hright k hk => ?_⟩
  by_cases hkn : k < n
  · exact hleft k hkn
  · have hbyte := hright (k - n) (by omega)
    rwa [Nat.add_sub_cancel' (Nat.not_lt.1 hkn)] at hbyte

/-! ### The fetch -/

theorem fetched_blocked {α : Type} {n : Nat} {s : State} {x : Result α} (h : s.launch.accessible s.rip n .fetch = false) :
    fetched n s x = .fault (.memFault s.rip n .fetch s) := by simp [fetched, h, raise]

/-- Settles O42: whatever verdict the decoder gives, its outcome stands behind the fetch access. -/
theorem fetchFaultComesFirst : Obligations.FetchFaultComesFirst := by
  intro s hat
  refine ⟨fun i rest hdecode hblocked => ?_, fun row hdecode hblocked => ?_, fun why hdecode hblocked => ?_⟩ <;>
    rw [step, fetch_inside hat, hdecode, decodedOutcome, fetched_blocked hblocked] <;> rfl

/-- The window of a text that goes on for `n` bytes, no more than the longest instruction, begins with these (R97, R263). -/
theorem fetchWindow_eq_append {s : State} {n : Nat} (hn : n ≤ Config.maxInstrBytes) (hend : s.ripNat + n ≤ s.launch.textEnd) :
    ∃ more, fetchWindow s = s.mem.readBytes s.rip n ++ more := by
  obtain ⟨k, hk⟩ := Nat.exists_eq_add_of_le (show n ≤ min Config.maxInstrBytes (s.launch.textEnd - s.ripNat) by omega)
  exact ⟨_, by rw [fetchWindow, hk, Memory.readBytes_add]⟩

/-- The decoder reads the instruction whose encoding lies in the text at `rip` (R51, R105). -/
theorem decode_fetchWindow {s : State} {i : Instr} (hwf : i.wf = true) (hend : s.ripNat + i.length ≤ s.launch.textEnd)
    (hbytes : s.mem.readBytes s.rip i.length = encode i) : ∃ rest, decode (fetchWindow s) = .instr i rest := by
  obtain ⟨more, hwindow⟩ := fetchWindow_eq_append i.length_le hend
  exact ⟨more, by rw [hwindow, hbytes, decode_encode_append more hwf]⟩

/-- Settles O15: the window decodes to the instruction, and its bytes may be fetched. -/
theorem stepRunsEncodedText : Obligations.StepRunsEncodedText := by
  intro s i hwf hat hend hbytes hfetchable
  obtain ⟨rest, hdecode⟩ := decode_fetchWindow hwf hend hbytes
  rw [step, fetch_inside hat, hdecode, decodedOutcome, fetched_ok hfetchable, andThen_next]

end Sys2Proof.Machine
end

section
/-! The sixteen masked moves, said once: each is one masked form over its `MaskedMove`; what it is refused for, which faults it has,
and when it is sure to complete (R52, R57, R59, R60, R64, R70). -/

namespace Sys2Proof.Machine

/-! ### A masked move's meaning -/

/-- A masked move is a masked load into ModRM:reg or a masked store from it (R130, R142). -/
inductive MaskedMeaning (i : Instr) (k : MaskedMove) : Prop where
  | load (kind : k.kind = .read) (store : isStore i = false)
      (eq : ∀ s, exec i s = maskedLoadForm (featureOf i) k.W k.w i.encoding.reg k.v k.m s)
  | store (kind : k.kind = .write) (store : isStore i = true)
      (eq : ∀ s, exec i s = maskedStoreForm (featureOf i) k.W k.w k.m k.v i.encoding.reg s)

variable {i : Instr} {k : MaskedMove} {s : State}

theorem maskedMove_meaning (h : maskedMoveOf i = some k) : MaskedMeaning i k := by
  cases exec_shape i with
  | source _ _ _ _ _ masked => simp [masked] at h
  | load W w d v m masked _ _ dest _ _ eq =>
    obtain rfl := Option.some.inj (masked.symm.trans h)
    exact .load rfl (by simp [isStore, masked]) (dest ▸ eq)
  | store W w m v src masked _ _ data _ _ eq =>
    obtain rfl := Option.some.inj (masked.symm.trans h)
    exact .store rfl (by simp [isStore, masked]) (data ▸ eq)

/-- The vector length and element width of a masked move (R57). -/
theorem maskedMove_widths (h : maskedMoveOf i = some k) : (k.W = 128 ∨ k.W = 256) ∧ (k.w = 32 ∨ k.w = 64) := by
  cases exec_shape i with
  | source _ _ _ _ _ masked => simp [masked] at h
  | load W w d v m masked _ _ _ width elemWidth =>
    obtain rfl := Option.some.inj (masked.symm.trans h)
    exact ⟨width, elemWidth⟩
  | store W w m v src masked _ _ _ width elemWidth =>
    obtain rfl := Option.some.inj (masked.symm.trans h)
    exact ⟨width, elemWidth⟩

/-- A masked move has a memory operand, and no immediate byte (R86). -/
theorem maskedMove_operand (h : maskedMoveOf i = some k) : i.rm = .mem k.m ∧ i.length = formLength (.mem k.m) false := by
  cases exec_shape i with
  | source _ _ _ _ _ masked => simp [masked] at h
  | load W w d v m masked len operand =>
    obtain rfl := Option.some.inj (masked.symm.trans h)
    exact ⟨operand, len⟩
  | store W w m v src masked len operand =>
    obtain rfl := Option.some.inj (masked.symm.trans h)
    exact ⟨operand, len⟩

theorem maskedMove_elemWidth_pos (h : maskedMoveOf i = some k) : 0 < k.w := by
  obtain ⟨-, hw⟩ := maskedMove_widths h
  omega

/-- The kind of access says which of the two a masked move is (R52). -/
theorem maskedMove_kind (h : maskedMoveOf i = some k) : k.kind = if isStore i then .write else .read := by
  cases maskedMove_meaning h with
  | load kind store _ => rw [kind, store]; rfl
  | store kind store _ => rw [kind, store]; rfl

/-- The mask a form reads is the low part of the mask register, with the same mask bits (R130). -/
theorem maskBit_readVec {W w n : Nat} (s : State) (v : RegNum) (hw : 0 < w) (hn : n < W / w) :
    maskBit w (s.readVec W v) n = maskBit w (s.readYmm v) n :=
  maskBit_setWidth w _ hw hn (Nat.mul_div_le W w)

theorem elem_readVec {W w n : Nat} (s : State) (r : RegNum) (hn : n < W / w) :
    elem w (s.readVec W r) n = elem w (s.readYmm r) n :=
  elem_setWidth_le w _ hn (Nat.mul_div_le W w)

/-! ### Refusals -/

/-- Where the access of a form is refused, the form is, given its feature. -/
theorem withFeature_andThen_refused {α β : Type} {f : Feature} {x : Result α} {g : α → Result β} {r : Refusal}
    (hf : s.hasFeature f = true) (h : x = .refused r) : withFeature f s (andThen x g) = .refused r := by
  rw [withFeature_on hf, h, andThen]

/-- Where the access of a form faults, the form does, given its feature. -/
theorem withFeature_andThen_fault {α β : Type} {f : Feature} {x : Result α} {g : α → Result β} {r : Fault}
    (hf : s.hasFeature f = true) (h : x = .fault r) : withFeature f s (andThen x g) = .fault r := by
  rw [withFeature_on hf, h, andThen]

/-- Settles O46: each of the two forms looks at the EA range before its mask. -/
theorem maskedDeviceAccessRefused : Obligations.MaskedDeviceAccessRefused := by
  intro i k s hmove hf hdevice
  cases maskedMove_meaning hmove with
  | load _ _ eq => exact (eq s).trans (withFeature_andThen_refused hf (maskedLoad_device hdevice))
  | store _ _ eq => exact (eq s).trans (withFeature_andThen_refused hf (maskedStore_device hdevice))

/-- Settles O47: the store looks at its enabled elements, of which the one given has a byte in the text. -/
theorem storeToTextRefused : Obligations.StoreToTextRefused := by
  intro i k s j hmove hstore hf hdevice henabled htext
  obtain ⟨hj, hmask⟩ := henabled
  cases maskedMove_meaning hmove with
  | load _ store _ => simp [store] at hstore
  | store _ _ eq =>
    have htouches : enabledTouches k.w (k.W / k.w) (s.readVec k.W k.v) (k.ea s) s.launch.inText = true := by
      rw [← maskBit_readVec s k.v (maskedMove_elemWidth_pos hmove) hj] at hmask
      exact List.any_eq_true.2 ⟨j, (mem_enabledElems _).2 ⟨hj, hmask⟩, htext⟩
    exact (eq s).trans (withFeature_andThen_refused hf (maskedStore_text (Bool.eq_false_iff.2 hdevice) htouches))

/-! ### Faults -/

/-- The state that a faulting masked store hands over: the elements drawn are stored (R60; log entry 11). -/
def MaskedMove.partlyStored (k : MaskedMove) (src : RegNum) (s : State) : State :=
  { s with
    mem := storeElems k.w (partiallyStored k.w (s.readVec k.W k.v) (k.ea s) s) (s.readVec k.W src) (k.ea s) s.mem (k.W / k.w) }

/-- The faults of a masked move: a missing feature, #AC, or the memory fault of an enabled element that is not accessible, where a
store has stored some elements (R59, R60, R233, R234). -/
inductive MaskedFault (i : Instr) (k : MaskedMove) (s : State) : Fault → Prop where
  | ud (feature : s.hasFeature (featureOf i) = false) : MaskedFault i k s (.ud s)
  | ac (checking : s.alignmentChecking = true) (misaligned : (k.ea s).toNat % (k.w / 8) ≠ 0) : MaskedFault i k s (.ac s)
  | blocked (j : Nat) (enabled : k.enabled s j) (inaccessible : ¬k.admitted s j) :
      MaskedFault i k s (.memFault (elemAddr (k.ea s) k.w j) (k.w / 8) k.kind
        (if isStore i then k.partlyStored i.encoding.reg s else s))

theorem maskedMove_eq_fault (hmove : maskedMoveOf i = some k) {r : Fault} (h : exec i s = .fault r) : MaskedFault i k s r := by
  have hblocked (j : Nat) (hj : j < k.W / k.w) (hmask : maskBit k.w (s.readVec k.W k.v) j = true)
      (hacc : s.launch.accessible (elemAddr (k.ea s) k.w j) (k.w / 8) k.kind = false) :=
    MaskedFault.blocked (i := i) j ⟨hj, maskBit_readVec s k.v (maskedMove_elemWidth_pos hmove) hj ▸ hmask⟩
      (Bool.eq_false_iff.1 hacc)
  cases maskedMove_meaning hmove with
  | load kind store eq =>
    rw [kind, store] at hblocked
    obtain ⟨rfl, hoff⟩ | ⟨-, hload⟩ := maskedLoadForm_eq_fault (eq s ▸ h)
    · exact .ud hoff
    · obtain ⟨rfl, hchecking, hmis⟩ | ⟨j, hj, hmask, hacc, rfl⟩ := maskedLoad_eq_fault hload
      · exact .ac hchecking hmis
      · exact hblocked j hj hmask hacc
  | store kind store eq =>
    rw [kind, store] at hblocked
    obtain ⟨rfl, hoff⟩ | ⟨-, hstore⟩ := maskedStoreForm_eq_fault (eq s ▸ h)
    · exact .ud hoff
    · obtain ⟨rfl, hchecking, hmis⟩ | ⟨j, hj, hmask, hacc, rfl⟩ := maskedStore_eq_fault hstore
      · exact .ac hchecking hmis
      · exact hblocked j hj hmask hacc

/-! ### What a faulting store has stored -/

/-- Distinct elements of an operand have distinct bytes (R57, R72). -/
theorem elemByteAddr_elem_inj {ea : Word} {w n i j a b : Nat} (hn : n * (w / 8) ≤ 2 ^ 64) (hi : i < n) (hj : j < n)
    (ha : a < w / 8) (hb : b < w / 8) (h : elemByteAddr ea w i a = elemByteAddr ea w j b) : i = j := by
  have hoffset {m c : Nat} (hm : m < n) (hc : c < w / 8) : m * (w / 8) + c < 2 ^ 64 := by
    have hend : (m + 1) * (w / 8) ≤ n * (w / 8) := Nat.mul_le_mul_right _ hm
    rw [Nat.succ_mul] at hend
    omega
  have hdiv {m c : Nat} (hc : c < w / 8) : (m * (w / 8) + c) / (w / 8) = m := by
    rw [Nat.mul_comm, Nat.mul_add_div (by omega), Nat.div_eq_of_lt hc, Nat.add_zero]
  rw [elemByteAddr, elemByteAddr, byteAddr_elemAddr, byteAddr_elemAddr] at h
  rw [← hdiv (m := i) ha, byteAddr_toNat_inj (hoffset hi ha) (hoffset hj hb) h, hdiv hb]

/-- Each element's memory after storing elements: the value stored if it was chosen, else what was there (R132). -/
theorem read_storeElems_elem {W : Nat} (w : Nat) (chosen : Nat → Bool) (src : BitVec W) (ea : Word) {m : Memory} {n j b : Nat}
    (hwf : m.wf = true) (hn : n * (w / 8) ≤ 2 ^ 64) (hj : j < n) (hb : b < w / 8) :
    (storeElems w chosen src ea m n).read (elemByteAddr ea w j b) =
      if chosen j then elem 8 (elem w src j) b else m.read (elemByteAddr ea w j b) := by
  by_cases hc : chosen j = true
  · rw [if_pos hc]
    exact read_storeElems_same w chosen src ea hwf hn hj hc hb
  · rw [if_neg hc]
    refine read_storeElems_other w chosen src ea n hwf _ fun j' hj' hc' b' hb' haddr => hc ?_
    rwa [elemByteAddr_elem_inj hn hj hj' hb hb' haddr]

/-- A masked move spans at most 32 bytes, so its elements do not overlap around the top of the address space. -/
theorem maskedMove_span (hmove : maskedMoveOf i = some k) : k.W / k.w * (k.w / 8) ≤ 2 ^ 64 := by
  obtain ⟨hW | hW, hw | hw⟩ := maskedMove_widths hmove <;> rw [hW, hw] <;> decide

theorem SameButMemory.refl (s : State) : SameButMemory s s := ⟨rfl, rfl, rfl, rfl, rfl, rfl, rfl, rfl⟩

theorem SameButMemory.withMem (s : State) (m : Memory) : SameButMemory s { s with mem := m } :=
  ⟨rfl, rfl, rfl, rfl, rfl, rfl, rfl, rfl⟩

/-- Each element's memory in the state of a faulting store is the new value or the old one. -/
theorem read_partlyStored_elem (hmove : maskedMoveOf i = some k) (hwf : s.mem.wf = true) (src : RegNum) {j b : Nat}
    (hj : j < k.W / k.w) (hb : b < k.w / 8) :
    (k.partlyStored src s).mem.read (elemByteAddr (k.ea s) k.w j b) =
      if partiallyStored k.w (s.readVec k.W k.v) (k.ea s) s j then elem 8 (elem k.w (s.readYmm src) j) b
      else s.mem.read (elemByteAddr (k.ea s) k.w j b) := by
  rw [← elem_readVec s src hj]
  exact read_storeElems_elem _ _ _ _ hwf (maskedMove_span hmove) hj hb

/-- In the state of a faulting store every byte but those of the enabled, accessible elements is as it was. -/
theorem read_partlyStored_other (hmove : maskedMoveOf i = some k) (hkind : k.kind = .write) (hwf : s.mem.wf = true) (src : RegNum)
    {c : Nat} (hc : ∀ j, k.enabled s j → k.admitted s j → ∀ b < k.w / 8, c ≠ elemByteAddr (k.ea s) k.w j b) :
    (k.partlyStored src s).mem.read c = s.mem.read c := by
  refine read_storeElems_other _ _ _ _ _ hwf c fun j hj hstored => ?_
  simp only [partiallyStored, Bool.and_eq_true] at hstored
  obtain ⟨⟨hmask, hacc⟩, -⟩ := hstored
  rw [maskBit_readVec s k.v (maskedMove_elemWidth_pos hmove) hj] at hmask
  exact hc j ⟨hj, hmask⟩ (by rwa [MaskedMove.admitted, hkind])

/-- Settles O45: the fault is that of a blocked element, and a store has stored each element wholly or not at all. -/
theorem faultingStoreLeavesOldOrNewElements : Obligations.FaultingStoreLeavesOldOrNewElements := by
  intro i k s t a n kind hmove hfault
  have hkind := maskedMove_kind hmove
  cases maskedMove_eq_fault hmove hfault with
  | blocked j henabled hblocked =>
    refine ⟨?same, ⟨j, henabled, hblocked, rfl, rfl, hkind⟩, fun hload => by simp [hload], fun hstore hwf => ?stored⟩
    case same =>
      cases isStore i with
      | false => exact .refl s
      | true => exact .withMem s _
    case stored =>
      rw [hstore, if_pos rfl] at hkind ⊢
      refine ⟨fun j' ⟨hj', _⟩ _ => ?_, fun c hc => read_partlyStored_other hmove hkind hwf _ hc⟩
      by_cases hdrawn : partiallyStored k.w (s.readVec k.W k.v) (k.ea s) s j' = true
      · exact .inr fun b hb => (read_partlyStored_elem hmove hwf _ hj' hb).trans (if_pos hdrawn)
      · exact .inl fun b hb => (read_partlyStored_elem hmove hwf _ hj' hb).trans (if_neg hdrawn)

end Sys2Proof.Machine
end

section
/-! When a masked move completes and when it faults, under the launch premises of R267; and the alignment check before its mask
(R54, R59, R131, R132, R234). -/

namespace Sys2Proof.Machine

variable {i : Instr} {k : MaskedMove} {s : State}

/-! ### Completion and faults -/

/-- Under the launch premises a masked move whose enabled elements are all accessible is ready (R59). -/
theorem MaskedMove.ready (hw : 0 < k.w) (hquiet : s.alignmentChecking = false) (hplain : k.plain s)
    (hadmitted : ∀ j, k.enabled s j → k.admitted s j) : MaskedReady k.w (s.readVec k.W k.v) (k.ea s) k.kind s := by
  obtain ⟨hdevice, htext⟩ := hplain
  refine ⟨.inl hquiet, Bool.eq_false_iff.2 hdevice, fun j hj hmask => ?_⟩
  have henabled : k.enabled s j := ⟨hj, maskBit_readVec s k.v hw hj ▸ hmask⟩
  exact ⟨hadmitted j henabled, fun hkind => Bool.eq_false_iff.2 (htext j hj henabled hkind)⟩

/-- An enabled, inaccessible element makes a masked load fault (R59). -/
theorem maskedLoad_blocked {W w n j : Nat} {mask : BitVec W} {ea : Word} (hquiet : AlignmentQuiet (w / 8) ea s)
    (hdevice : touches s.launch.isDevice ea (W / 8) = false) (hj : j < n) (hmask : maskBit w mask j = true)
    (hblocked : ¬s.launch.accessible (elemAddr ea w j) (w / 8) .read = true) :
    ∃ a t, maskedLoad w n mask ea s = .fault (.memFault a (w / 8) .read t) := by
  cases hb : blockedElems w n mask ea .read s.launch with
  | nil => exact absurd (blockedElems_eq_nil.1 hb j hj hmask) hblocked
  | cons first more => simp [maskedLoad, hdevice, checkAlignment_quiet hquiet, hb, raise]

/-- The same for a masked store, away from the text. -/
theorem maskedStore_blocked {W w n j : Nat} {mask src : BitVec W} {ea : Word} (hquiet : AlignmentQuiet (w / 8) ea s)
    (hdevice : touches s.launch.isDevice ea (W / 8) = false) (htext : enabledTouches w n mask ea s.launch.inText = false)
    (hj : j < n) (hmask : maskBit w mask j = true)
    (hblocked : ¬s.launch.accessible (elemAddr ea w j) (w / 8) .write = true) :
    ∃ a t, maskedStore w n mask src ea s = .fault (.memFault a (w / 8) .write t) := by
  cases hb : blockedElems w n mask ea .write s.launch with
  | nil => exact absurd (blockedElems_eq_nil.1 hb j hj hmask) hblocked
  | cons first more => simp [maskedStore, hdevice, htext, checkAlignment_quiet hquiet, hb, raise]

/-- No enabled element of a store that meets the launch premises overlaps the text (R267). -/
theorem MaskedMove.plain_enabledTouches (hw : 0 < k.w) (hkind : k.kind = .write) (hplain : k.plain s) :
    enabledTouches k.w (k.W / k.w) (s.readVec k.W k.v) (k.ea s) s.launch.inText = false := by
  obtain ⟨-, htext⟩ := hplain
  exact enabledTouches_eq_false.2 fun j hj hmask =>
    Bool.eq_false_iff.2 (htext j hj ⟨hj, maskBit_readVec s k.v hw hj ▸ hmask⟩ hkind)

/-- An enabled, inaccessible element makes a masked move fault (R59). -/
theorem maskedMove_blocked (hmove : maskedMoveOf i = some k) (hf : s.hasFeature (featureOf i) = true)
    (hquiet : s.alignmentChecking = false) (hplain : k.plain s) {j : Nat} (henabled : k.enabled s j) (hblocked : ¬k.admitted s j) :
    ∃ a n kind t, exec i s = .fault (.memFault a n kind t) := by
  have hw := maskedMove_elemWidth_pos hmove
  obtain ⟨hj, hmask⟩ := henabled
  rw [← maskBit_readVec s k.v hw hj] at hmask
  have hdevice := Bool.eq_false_iff.2 hplain.1
  rw [MaskedMove.admitted] at hblocked
  cases maskedMove_meaning hmove with
  | load kind _ eq =>
    rw [kind] at hblocked
    obtain ⟨a, t, hfault⟩ := maskedLoad_blocked (.inl hquiet) hdevice hj hmask hblocked
    exact ⟨a, _, _, t, (eq s).trans (withFeature_andThen_fault hf hfault)⟩
  | store kind _ eq =>
    rw [kind] at hblocked
    obtain ⟨a, t, hfault⟩ := maskedStore_blocked (src := s.readVec k.W i.encoding.reg) (.inl hquiet) hdevice
      (MaskedMove.plain_enabledTouches hw kind hplain) hj hmask hblocked
    exact ⟨a, _, _, t, (eq s).trans (withFeature_andThen_fault hf hfault)⟩

/-! ### The all-zero mask -/

/-- With every element masked off the value loaded is 0 (R131). -/
theorem maskedLoadValue_masked_off {W w n : Nat} {mask : BitVec W} (hw : 0 < w) (ea : Word) (m : Memory)
    (hoff : ∀ j < n, maskBit w mask j = false) : maskedLoadValue w n mask ea m = 0 := by
  apply BitVec.eq_of_getLsbD_eq
  intro b hb
  rw [maskedLoadValue, getLsbD_build _ hw b hb]
  by_cases hin : b < w * n
  · simp [hoff _ (Nat.div_lt_of_lt_mul hin)]
  · simp [hin]

/-- Storing no element changes nothing (R132). -/
theorem storeElems_masked_off {W : Nat} (w : Nat) {chosen : Nat → Bool} (src : BitVec W) (ea : Word) (m : Memory) {n : Nat}
    (hoff : ∀ j < n, chosen j = false) : storeElems w chosen src ea m n = m := by
  induction n with
  | zero => rfl
  | succ n ih =>
    rw [storeElems, if_neg (by simp [hoff n (Nat.lt_succ_self n)])]
    exact ih fun j hj => hoff j (by omega)

/-- With an all-zero mask a masked move completes: a load writes 0, a store changes nothing (R59). -/
theorem maskedMove_masked_off (hmove : maskedMoveOf i = some k) (hf : s.hasFeature (featureOf i) = true)
    (hquiet : s.alignmentChecking = false) (hplain : k.plain s) (hoff : ∀ j < k.W / k.w, ¬k.enabled s j) :
    ∃ t, exec i s = .next t ∧ t.mem = s.mem ∧
      if isStore i then t.ymm = s.ymm
      else t.readYmm i.encoding.reg = 0 ∧ ∀ r, r ≠ i.encoding.reg → t.readYmm r = s.readYmm r := by
  have hw := maskedMove_elemWidth_pos hmove
  have hready := MaskedMove.ready hw hquiet hplain fun j henabled => absurd henabled (hoff j henabled.1)
  have hmask (j : Nat) (hj : j < k.W / k.w) : maskBit k.w (s.readVec k.W k.v) j = false := by
    rw [maskBit_readVec s k.v hw hj]
    exact Bool.eq_false_iff.2 fun hbit => hoff j hj ⟨hj, hbit⟩
  cases maskedMove_meaning hmove with
  | load kind store eq =>
    rw [kind] at hready
    refine ⟨_, (eq s).trans (maskedLoadForm_ready hf hready), rfl, ?_⟩
    rw [store, maskedLoadValue_masked_off hw _ _ hmask]
    exact ⟨by simp, fun r hr => State.readYmm_writeBack_other _ _ _ hr⟩
  | store kind store eq =>
    rw [kind] at hready
    refine ⟨_, (eq s).trans (maskedStoreForm_ready hf hready), storeElems_masked_off _ _ _ _ hmask, ?_⟩
    rw [store]
    rfl

/-- Settles O44: a fault of memory is that of an enabled, inaccessible element, each such element gives one, and without an enabled
element there is none. -/
theorem maskedMovesFaultOnlyForEnabledElements : Obligations.MaskedMovesFaultOnlyForEnabledElements := by
  intro i k s hmove hf hquiet hplain
  refine ⟨⟨?only, ?each⟩, maskedMove_masked_off hmove hf hquiet hplain⟩
  case only =>
    rintro ⟨a, n, kind, t, hfault⟩
    cases maskedMove_eq_fault hmove hfault with
    | blocked j henabled hblocked => exact ⟨j, henabled.1, henabled, hblocked⟩
  case each =>
    rintro ⟨j, -, henabled, hblocked⟩
    exact maskedMove_blocked hmove hf hquiet hplain henabled hblocked

/-! ### Alignment checking -/

/-- When an alignment check reports #AC (R54, R234; log entry 7). -/
theorem checkAlignment_eq_ac_iff {eb : Nat} {ea : Word} :
    checkAlignment eb ea s = .fault (.ac s) ↔
      s.alignmentChecking = true ∧ ea.toNat % eb ≠ 0 ∧ Config.alignmentDraw s.draws ea eb = true := by
  refine ⟨fun h => (checkAlignment_eq_fault h).2, fun ⟨hchecking, hmis, hdraw⟩ => ?_⟩
  simp [checkAlignment, hchecking, hmis, hdraw, raise]

/-- Away from devices a masked load reports #AC exactly if the alignment check does. -/
theorem maskedLoad_eq_ac_iff {W w n : Nat} {mask : BitVec W} {ea : Word}
    (hdevice : touches s.launch.isDevice ea (W / 8) = false) :
    maskedLoad w n mask ea s = .fault (.ac s) ↔ checkAlignment (w / 8) ea s = .fault (.ac s) := by
  rw [maskedLoad, if_neg (by simp [hdevice]), andThen_eq_fault]
  refine or_iff_left ?_
  rintro ⟨_, -, h⟩
  split at h <;> cases h

/-- Away from devices and the text a masked store reports #AC exactly if the alignment check does. -/
theorem maskedStore_eq_ac_iff {W w n : Nat} {mask src : BitVec W} {ea : Word}
    (hdevice : touches s.launch.isDevice ea (W / 8) = false) (htext : enabledTouches w n mask ea s.launch.inText = false) :
    maskedStore w n mask src ea s = .fault (.ac s) ↔ checkAlignment (w / 8) ea s = .fault (.ac s) := by
  rw [maskedStore, if_neg (by simp [hdevice]), if_neg (by simp [htext]), andThen_eq_fault]
  refine or_iff_left ?_
  rintro ⟨_, -, h⟩
  split at h <;> cases h

/-- A form reports #AC exactly if its access does, given its feature. -/
theorem withFeature_andThen_eq_ac_iff {α β : Type} {f : Feature} {x : Result α} {g : α → β}
    (hf : s.hasFeature f = true) :
    (withFeature f s (andThen x fun a => .next (g a)) = .fault (.ac s)) ↔ x = .fault (.ac s) := by
  rw [withFeature_on hf, andThen_eq_fault]
  refine or_iff_left ?_
  rintro ⟨_, -, h⟩
  cases h

/-- Under the launch premises a masked move reports #AC exactly if the alignment check of its address does: the mask is no part
of it (R54). -/
theorem maskedMove_eq_ac_iff (hmove : maskedMoveOf i = some k) (hf : s.hasFeature (featureOf i) = true) (hplain : k.plain s) :
    exec i s = .fault (.ac s) ↔ checkAlignment (k.w / 8) (k.ea s) s = .fault (.ac s) := by
  have hdevice := Bool.eq_false_iff.2 hplain.1
  cases maskedMove_meaning hmove with
  | load _ _ eq =>
    rw [eq]
    exact (withFeature_andThen_eq_ac_iff hf).trans (maskedLoad_eq_ac_iff hdevice)
  | store kind _ eq =>
    rw [eq]
    exact (withFeature_andThen_eq_ac_iff hf).trans
      (maskedStore_eq_ac_iff hdevice (MaskedMove.plain_enabledTouches (maskedMove_elemWidth_pos hmove) kind hplain))

/-- No effective address depends on a vector register (R93). -/
theorem MaskedMove.ea_withYmm (k : MaskedMove) (s : State) (y : Vector Ymm 16) : k.ea { s with ymm := y } = k.ea s := rfl

/-- Settles O50: the alignment check reads no vector register. -/
theorem alignmentReportIgnoresMask : Obligations.AlignmentReportIgnoresMask := by
  intro i k s y hmove hf hplain hplain'
  refine ⟨?_, fun hquiet t hfault => ?_⟩
  · rw [maskedMove_eq_ac_iff hmove hf hplain, maskedMove_eq_ac_iff (s := { s with ymm := y }) hmove hf hplain',
      checkAlignment_eq_ac_iff, checkAlignment_eq_ac_iff, k.ea_withYmm]
    rfl
  · cases maskedMove_eq_fault hmove hfault with
    | ac hchecking => simp [hquiet] at hchecking

end Sys2Proof.Machine
end

section
/-! The faults of an instruction and of a step (R60, R231 to R234, R240), and the memory source of the other forms (R52, R55). -/

namespace Sys2Proof.Machine

variable {i : Instr} {s : State}

/-! ### What a fault hands over -/

/-- The faults of an instruction: a missing feature; #AC, where checking is on and the memory operand no multiple of 16; a read's
memory fault; and a store's, the one fault that hands over another memory (R60, R231 to R234, R240). -/
inductive ExecFault (i : Instr) (s : State) : Fault → Prop where
  | ud (feature : s.hasFeature (featureOf i) = false) : ExecFault i s (.ud s)
  | ac (m : Mem) (operand : i.rm = .mem m) (checking : s.alignmentChecking = true)
      (misaligned : (effAddr m i.length s).toNat % 16 ≠ 0) : ExecFault i s (.ac s)
  | read (a : Word) (n : Nat) : ExecFault i s (.memFault a n .read s)
  | write (a : Word) (n : Nat) (mem : Memory) (store : isStore i = true) :
      ExecFault i s (.memFault a n .write { s with mem := mem })

/-- An address misaligned for an element size that divides 16 is no multiple of 16. -/
theorem mod_sixteen_ne_zero {eb a : Nat} (hdvd : eb ∣ 16) (h : a % eb ≠ 0) : a % 16 ≠ 0 := fun h16 =>
  h (Nat.mod_eq_zero_of_dvd (hdvd.trans (Nat.dvd_of_mod_eq_zero h16)))

/-- The fault of a masked move, as a fault of an instruction. -/
theorem MaskedFault.execFault {k : MaskedMove} (hmove : maskedMoveOf i = some k) {r : Fault} (h : MaskedFault i k s r) :
    ExecFault i s r := by
  cases h with
  | ud feature => exact .ud feature
  | ac checking misaligned =>
    obtain ⟨hrm, hlen⟩ := maskedMove_operand hmove
    have hdvd : k.w / 8 ∣ 16 := by
      obtain ⟨-, hw | hw⟩ := maskedMove_widths hmove <;> rw [hw] <;> decide
    exact .ac k.m hrm checking (hlen ▸ mod_sixteen_ne_zero hdvd misaligned)
  | blocked j =>
    rw [maskedMove_kind hmove]
    cases hstore : isStore i with
    | false => exact .read _ _
    | true => exact .write _ _ _ hstore

theorem exec_eq_fault {r : Fault} (h : exec i s = .fault r) : ExecFault i s r := by
  cases hmove : maskedMoveOf i with
  | some k => exact (maskedMove_eq_fault hmove h).execFault hmove
  | none =>
    cases exec_shape i with
    | load _ _ _ _ _ masked => cases hmove.symm.trans masked
    | store _ _ _ _ _ masked => cases hmove.symm.trans masked
    | source eb rm ib d result _ len operand _ _ elemBytes eq =>
      obtain ⟨rfl, hoff⟩ | hread := sourceForm_eq_fault (eq s ▸ h)
      · exact .ud hoff
      · obtain ⟨m, rfl, ⟨rfl, hchecking, hmis⟩ | ⟨rfl, -⟩⟩ := readRM_eq_fault hread
        · exact .ac m operand hchecking (len ▸ mod_sixteen_ne_zero elemBytes hmis)
        · exact .read _ _

/-- A fault that hands over the state before the instruction is precise. -/
theorem precise_of_after_eq {r : Fault} (h : r.after = s) :
    SameButMemory s r.after ∧ ((∀ a n, r ≠ .memFault a n .write r.after) → r.after = s) := by
  rw [h]
  exact ⟨.refl s, fun _ => rfl⟩

/-- Settles O43: the faults of the fetch and of an instruction hand over the state before, but for a store's memory fault. -/
theorem faultsArePrecise : Obligations.FaultsArePrecise := by
  intro s r h
  obtain hfetch | ⟨i, -, hexec⟩ := step_eq_fault.1 h
  · obtain ⟨n, rfl⟩ | ⟨rfl, -⟩ := fetch_eq_fault hfetch
    · exact precise_of_after_eq rfl
    · exact precise_of_after_eq rfl
  · cases exec_eq_fault hexec with
    | ud => exact precise_of_after_eq rfl
    | ac => exact precise_of_after_eq rfl
    | read => exact precise_of_after_eq rfl
    | write a n mem => exact ⟨.withMem s mem, fun hnot => absurd rfl (hnot a n)⟩

/-- Settles O51: #AC is a fault of the instruction, with checking on and its memory operand misaligned. -/
theorem alignmentFaultNeedsCheckingAndMisalignment : Obligations.AlignmentFaultNeedsCheckingAndMisalignment := by
  intro s hquiet t h
  obtain hfetch | ⟨i, hfetch, hexec⟩ := step_eq_fault.1 h
  · obtain ⟨n, hr⟩ | ⟨hr, -⟩ := fetch_eq_fault hfetch <;> cases hr
  · obtain ⟨-, -, rest, hdecode⟩ := fetch_eq_next hfetch
    cases exec_eq_fault hexec with
    | ac m operand checking misaligned =>
      obtain hoff | haligned := hquiet
      · simp [hoff] at checking
      · exact misaligned (haligned i rest m hdecode operand)

/-! ### The memory source of a non-masked form -/

/-- A source that is not accessible is the memory fault of the whole operand (R55, R232). -/
theorem readRM_blocked {W eb len : Nat} {m : Mem} (hquiet : AlignmentQuiet eb (effAddr m len s) s)
    (hblocked : s.launch.accessible (effAddr m len s) (W / 8) .read = false) :
    readRM W eb (.mem m) len s = .fault (.memFault (effAddr m len s) (W / 8) .read s) := by
  simp [readRM, readMem, checkAlignment_quiet hquiet, hblocked, raise]

/-- An admitted source that touches a region declared I/O is refused (R64; log entry 10). -/
theorem readRM_io {W eb len : Nat} {m : Mem} (hquiet : AlignmentQuiet eb (effAddr m len s) s)
    (hadmitted : s.launch.accessible (effAddr m len s) (W / 8) .read = true)
    (hio : touches s.launch.isIo (effAddr m len s) (W / 8) = true) : readRM W eb (.mem m) len s = .refused .ioRead := by
  simp [readRM, readMem, checkAlignment_quiet hquiet, hadmitted, hio]

/-- Settles O48: the source of the form is blocked, declared I/O, or ready. -/
theorem wholeOperandReadOrFault : Obligations.WholeOperandReadOrFault := by
  intro i m s hmove hrm hf hchecking
  cases exec_shape i with
  | load _ _ _ _ _ masked => cases hmove.symm.trans masked
  | store _ _ _ _ _ masked => cases hmove.symm.trans masked
  | source eb rm ib d result _ len operand _ bytes _ eq =>
    obtain rfl := operand.symm.trans hrm
    rw [eq, len, bytes]
    refine ⟨fun hblocked => ?_, fun hadmitted => ⟨fun hio => ?_, fun hio => ?_⟩⟩
    · exact withFeature_andThen_fault hf (readRM_blocked (.inl hchecking) hblocked)
    · exact withFeature_andThen_refused hf (readRM_io (.inl hchecking) hadmitted hio)
    · exact ⟨_, sourceForm_ready hf ⟨.inl hchecking, hadmitted, hio⟩⟩

end Sys2Proof.Machine
end

section
/-! A masked load of what a masked store has stored (R67, R131, R132). -/

namespace Sys2Proof.Machine

/-- Two values of whole bytes with the same bytes are the same. -/
theorem eq_of_elem_bytes {w : Nat} {x y : BitVec w} (hw : 8 ∣ w) (h : ∀ b < w / 8, elem 8 x b = elem 8 y b) : x = y := by
  apply BitVec.eq_of_getLsbD_eq
  intro j hj
  have hbyte := congrArg (BitVec.getLsbD · (j % 8)) (h (j / 8) (by omega))
  simpa [getLsbD_elem _ _ _ (Nat.mod_lt j (show 0 < 8 by decide)), Nat.div_add_mod] using hbyte

/-- A chosen element reads back as what was stored (R132). -/
theorem readValue_storeElems {W w n j : Nat} {chosen : Nat → Bool} {src : BitVec W} {ea : Word} {m : Memory} (hwf : m.wf = true)
    (hw : 8 ∣ w) (hn : n * (w / 8) ≤ 2 ^ 64) (hj : j < n) (hchosen : chosen j = true) :
    (storeElems w chosen src ea m n).readValue w (elemAddr ea w j) = elem w src j := by
  refine eq_of_elem_bytes hw fun b hb => ?_
  rw [Memory.elem_readValue _ _ _ hb]
  exact read_storeElems_same w chosen src ea hwf hn hj hchosen hb

/-- A masked load under the mask of a masked store has the elements stored, and 0 where nothing was (R131, R132). -/
theorem maskedLoadValue_storeElems {W w n j : Nat} {mask src : BitVec W} {ea : Word} {m : Memory} (hwf : m.wf = true)
    (hw : 8 ∣ w) (hpos : 0 < w) (hfit : w * n ≤ W) (hn : n * (w / 8) ≤ 2 ^ 64) (hj : j < n) :
    elem w (maskedLoadValue w n mask ea (storeElems w (maskBit w mask) src ea m n)) j =
      if maskBit w mask j then elem w src j else 0 := by
  rw [maskedLoadValue, elem_build _ hpos hj hfit]
  by_cases hmask : maskBit w mask j = true
  · rw [if_pos hmask, if_pos hmask, readValue_storeElems hwf hw hn hj hmask]
  · rw [if_neg hmask, if_neg hmask]

/-- What a masked store that completes has written to memory, and that it wrote no register (R132). -/
theorem maskedMove_stored {i : Instr} {k : MaskedMove} {s t : State} (hmove : maskedMoveOf i = some k) (hkind : k.kind = .write)
    (h : exec i s = .next t) :
    t.ymm = s.ymm ∧ t.mem =
      storeElems k.w (maskBit k.w (s.readVec k.W k.v)) (s.readVec k.W i.encoding.reg) (effAddr k.m i.length s) s.mem (k.W / k.w) := by
  rw [(maskedMove_operand hmove).2]
  cases maskedMove_meaning hmove with
  | load kind => cases kind.symm.trans hkind
  | store _ _ eq =>
    obtain ⟨-, rfl, -⟩ := maskedStoreForm_eq_next (eq s ▸ h)
    exact ⟨rfl, rfl⟩

/-- What a masked load that completes has written to its register (R131). -/
theorem maskedMove_loaded {i : Instr} {k : MaskedMove} {s t : State} (hmove : maskedMoveOf i = some k) (hkind : k.kind = .read)
    (h : exec i s = .next t) :
    t.readYmm i.encoding.reg =
      (maskedLoadValue k.w (k.W / k.w) (s.readVec k.W k.v) (effAddr k.m i.length s) s.mem : BitVec k.W).setWidth 256 := by
  rw [(maskedMove_operand hmove).2]
  cases maskedMove_meaning hmove with
  | store kind => cases kind.symm.trans hkind
  | load _ _ eq =>
    obtain ⟨-, rfl⟩ := maskedLoadForm_eq_next (eq s ▸ h)
    exact State.readYmm_writeBack_same _ _ _ _

/-- A store form and a load form that are masked moves of the same widths fit together: the load reads back what the store stored. -/
theorem storeThenLoadReturns {W w : Nat} {store : Mem → RegNum → RegNum → Instr} {load : RegNum → RegNum → Mem → Instr}
    (hstore : ∀ m v src, maskedMoveOf (store m v src) = some ⟨W, w, v, m, .write⟩ ∧ (store m v src).encoding.reg = src)
    (hload : ∀ d v m, maskedMoveOf (load d v m) = some ⟨W, w, v, m, .read⟩ ∧ (load d v m).encoding.reg = d) :
    StoreThenLoadReturns W w store load := by
  intro m m' v src d s t u hwf hst hld hea
  obtain ⟨hmove, hsrc⟩ := hstore m v src
  obtain ⟨hmove', hdst⟩ := hload d v m'
  have hpos : 0 < w := maskedMove_elemWidth_pos hmove
  have hspan : W / w * (w / 8) ≤ 2 ^ 64 := maskedMove_span hmove
  obtain ⟨hW : W = 128 ∨ W = 256, hw : w = 32 ∨ w = 64⟩ := maskedMove_widths hmove
  obtain ⟨hymm, hmem⟩ := maskedMove_stored hmove rfl hst
  have hmask : t.readVec W v = s.readVec W v := by simp only [State.readVec, State.readYmm, hymm]
  have hloaded : u.readYmm d = (maskedLoadValue w (W / w) (s.readVec W v) (effAddr m (store m v src).length s)
      (storeElems w (maskBit w (s.readVec W v)) (s.readVec W src) (effAddr m (store m v src).length s) s.mem (W / w)) :
        BitVec W).setWidth 256 := by
    have h := maskedMove_loaded hmove' rfl hld
    rwa [hdst, hmem, hsrc, hmask, hea] at h
  rw [hloaded]
  refine ⟨fun j hj => ?_, fun j _ hhigh => ?_⟩
  · rw [elem_setWidth_ge _ _ (by omega), maskedLoadValue_storeElems hwf (by omega) hpos (Nat.mul_div_le W w) hspan hj,
      maskBit_readVec s v hpos hj, elem_readVec s src hj]
  · rw [BitVec.getLsbD_setWidth, maskedLoadValue, getLsbD_build_high _ hpos hhigh, Bool.and_false]

/-- Settles O52: the eight pairs are masked moves of the same widths. -/
theorem maskedLoadReadsMaskedStore : Obligations.MaskedLoadReadsMaskedStore := by
  and_intros
  all_goals exact storeThenLoadReturns (fun _ _ _ => ⟨rfl, rfl⟩) fun _ _ _ => ⟨rfl, rfl⟩

end Sys2Proof.Machine
end

section
/-! The encoder: the length of what it writes (R97), and that the decoder reads it back. -/

namespace Sys2Proof

/-- Settles O3: the decoder reads a well-formed instruction back from its encoding. -/
theorem decodeOfEncode : Obligations.DecodeOfEncode := fun _ rest hwf => decode_encode_append rest hwf

/-- An instruction has at least the three VEX bytes, the opcode byte and ModRM (R85, R97). -/
theorem Instr.length_ge (i : Instr) : 5 ≤ i.length := by
  simp only [Instr.length, formLength]
  omega

/-- Settles O4: R97's sum counts the bytes written, and its parts are bounded. -/
theorem encodingLength : Obligations.EncodingLength := fun i => ⟨i.encoding.bytes_length, i.length_ge, i.length_le⟩

end Sys2Proof
end

section
/-! How far a run gets: every step moves `rip` past one instruction of at least 5 bytes of the text (R97, R263; D15). -/

namespace Sys2Proof.Machine

/-- From `s` to `t`, in `k` steps, `rip` has moved on by at least 5 bytes a step, and has not passed the end of the text that
it was in or at the end of (R97, R263). -/
def AdvancesInText (k : Nat) (s t : State) : Prop :=
  s.ripNat + 5 * k ≤ t.ripNat ∧ (s.ripNat ≤ s.launch.textEnd → t.ripNat ≤ s.launch.textEnd)

/-- A step goes before a run: it moves `rip` past one instruction, and leaves the launch as it was. -/
theorem AdvancesInText.step {k : Nat} {s t u : State} (h : step s = .next t) (hrest : AdvancesInText k t u) :
    AdvancesInText (k + 1) s u := by
  obtain ⟨i, -, -, -, ⟨-, -, -, -, -, hlaunch, -⟩, hmove, -, hend⟩ := step_ran h
  obtain ⟨hadvance, hwithin⟩ := hrest
  rw [hlaunch] at hwithin
  have hlen := i.length_ge
  exact ⟨by omega, fun _ => hwithin hend⟩

/-- Settles O21: by induction on the run, since every step moves `rip` past one instruction within the text. -/
theorem runsEndWithinText : Obligations.RunsEndWithinText := by
  intro k s t hinv hrun
  obtain ⟨hadvance, hwithin⟩ := run_induction (R := AdvancesInText) (fun s => ⟨Nat.le_refl _, id⟩)
    (fun _ _ _ _ _ hstep hrest => hrest.step hstep) hinv hrun
  obtain ⟨-, -, -, -, -, hend⟩ := hinv
  exact ⟨hadvance, hwithin hend⟩

end Sys2Proof.Machine
end

section
/-! What the decoder consumes: of the bytes it is given it takes some and hands on the rest, and what it answers depends on those it
takes only (R85, R97, R105). And what it reads is well formed (R88 to R93). -/

namespace Sys2Proof

/-! ### Readers -/

/-- A reader of bytes takes a first part of them, hands on the rest, and answers the same whatever follows that part. -/
def Consumes {α : Type} (read : List Byte → Option (α × List Byte)) : Prop :=
  ∀ bytes a rest, read bytes = some (a, rest) →
    ∃ taken, bytes = taken ++ rest ∧ ∀ other, read (taken ++ other) = some (a, other)

variable {α β : Type}

theorem Consumes.nothing (a : α) : Consumes fun bytes => some (a, bytes) := by
  rintro bytes _ _ ⟨⟩
  exact ⟨[], rfl, fun _ => rfl⟩

theorem Consumes.map {read : List Byte → Option (α × List Byte)} (h : Consumes read) (f : α → β) :
    Consumes fun bytes => (read bytes).map fun p => (f p.1, p.2) := by
  intro bytes b rest hread
  obtain ⟨⟨a, rest⟩, ha, ⟨⟩⟩ := Option.map_eq_some_iff.1 hread
  obtain ⟨taken, htaken, hother⟩ := h bytes a _ ha
  exact ⟨taken, htaken, fun other => congrArg (Option.map _) (hother other)⟩

/-- A byte, then what a reader that depends on it takes. -/
theorem Consumes.byte {read : List Byte → Option (α × List Byte)} {next : Byte → List Byte → Option (α × List Byte)}
    (hnil : read [] = none) (hcons : ∀ b tail, read (b :: tail) = next b tail) (h : ∀ b, Consumes (next b)) :
    Consumes read := by
  intro bytes a rest hread
  cases bytes with
  | nil => cases hnil.symm.trans hread
  | cons b tail =>
    obtain ⟨taken, rfl, hother⟩ := h b tail a rest ((hcons b tail).symm.trans hread)
    exact ⟨b :: taken, rfl, fun other => (hcons b _).trans (hother other)⟩

theorem takeDisp32_consumes : Consumes takeDisp32 := by
  intro bytes d rest h
  match bytes, h with
  | b0 :: b1 :: b2 :: b3 :: _, rfl => exact ⟨[b0, b1, b2, b3], rfl, fun _ => rfl⟩

theorem takeDisp_consumes (md : BitVec 2) : Consumes (takeDisp md) := by
  intro bytes d rest h
  obtain ⟨b, rfl, rfl, rfl⟩ | ⟨x, rfl, rfl, hx⟩ | ⟨h1, h2, rfl, rfl⟩ := takeDisp_eq_some h
  · exact ⟨[b], rfl, fun _ => rfl⟩
  · exact takeDisp32_consumes.map Disp.d32 bytes _ rest h
  · exact ⟨[], rfl, fun _ => by simp [takeDisp, h1, h2]⟩

theorem decodeSib_consumes (v : Vex) (md : BitVec 2) (sib : Byte) : Consumes (decodeSib v md sib) := by
  unfold decodeSib
  by_cases hc : (sib.extractLsb' 0 3 = 0b101#3 && md = 0b00#2) = true
  · simp only [if_pos hc]
    exact takeDisp32_consumes.map _
  · simp only [if_neg hc]
    exact (takeDisp_consumes md).map _

/-- The ModRM:r/m operand is read by one of four readers, which `mod` and `rm` choose (R88 to R93). -/
theorem decodeRM_consumes (v : Vex) (md : BitVec 2) (low : BitVec 3) : Consumes (decodeRM v md low) := by
  unfold decodeRM
  by_cases hreg : md = 0b11#2
  · simp only [if_pos hreg]
    exact .nothing _
  · simp only [if_neg hreg]
    by_cases hsib : low = 0b100#3
    · simp only [if_pos hsib]
      exact .byte rfl (fun _ _ => rfl) fun sib => (decodeSib_consumes v md sib).map RM.mem
    · simp only [if_neg hsib]
      by_cases hrip : (low = 0b101#3 && md = 0b00#2) = true
      · simp only [if_pos hrip]
        exact takeDisp32_consumes.map fun d => RM.mem (.ripRel d)
      · simp only [if_neg hrip]
        exact (takeDisp_consumes md).map fun d => RM.mem (.base (v.b ++ low) d)

/-! ### What is read is well formed -/

theorem low_append : ∀ (b : BitVec 1) (low : BitVec 3), RegNum.low (b ++ low) = low := by decide

/-- An index field never names register 4 (R89). -/
theorem indexOk_sibIndex (n : RegNum) : Mem.indexOk (sibIndex n) = true := by
  by_cases h : n = 4#4 <;> simp [sibIndex, Mem.indexOk, h]

/-- A base field of 101b has not the `mod` that stands for no displacement, so that its register carries one (R89, R93). -/
theorem baseDispOk_of_takeDisp {md : BitVec 2} {low : BitVec 3} {bytes rest : List Byte} {d : Disp} (b : BitVec 1)
    (hreg : md ≠ 0b11#2) (hbase : ¬(low = 0b101#3 && md = 0b00#2) = true) (h : takeDisp md bytes = some (d, rest)) :
    Mem.baseDispOk (b ++ low) d = true := by
  have hmods : ∀ md : BitVec 2, md ≠ 0b11#2 → md ≠ 0b01#2 → md ≠ 0b10#2 → md = 0b00#2 := by decide
  obtain ⟨x, -, rfl, -⟩ | ⟨x, -, rfl, -⟩ | ⟨h1, h2, -, -⟩ := takeDisp_eq_some h
  · simp [Mem.baseDispOk]
  · simp [Mem.baseDispOk]
  · have hlow : low ≠ 5#3 := by simpa [hmods md hreg h1 h2] using hbase
    simp [Mem.baseDispOk, low_append, hlow]

theorem decodeSib_wf {v : Vex} {md : BitVec 2} {sib : Byte} {bytes rest : List Byte} {m : Mem} (hreg : md ≠ 0b11#2)
    (h : decodeSib v md sib bytes = some (m, rest)) : m.wf = true := by
  unfold decodeSib at h
  dsimp only at h
  split at h
  case isTrue =>
    obtain ⟨p, -, ⟨⟩⟩ := Option.map_eq_some_iff.1 h
    exact indexOk_sibIndex _
  case isFalse hbase =>
    obtain ⟨p, hp, ⟨⟩⟩ := Option.map_eq_some_iff.1 h
    simp [Mem.wf, indexOk_sibIndex, baseDispOk_of_takeDisp _ hreg hbase hp]

/-- An operand that is read can be encoded, and is a register exactly if `mod` is 11b (R88 to R93). -/
theorem decodeRM_wf {v : Vex} {md : BitVec 2} {low : BitVec 3} {bytes rest : List Byte} {rm : RM}
    (h : decodeRM v md low bytes = some (rm, rest)) : rm.wf = true ∧ ((∃ r, rm = .reg r) ↔ md = 0b11#2) := by
  unfold decodeRM at h
  split at h
  case isTrue hreg =>
    cases h
    exact ⟨rfl, fun _ => hreg, fun _ => ⟨_, rfl⟩⟩
  case isFalse hreg =>
    suffices hmem : ∃ m, rm = .mem m ∧ m.wf = true by
      obtain ⟨m, rfl, hwf⟩ := hmem
      exact ⟨hwf, nofun, fun hmd => absurd hmd hreg⟩
    split at h
    case isTrue hsib =>
      cases bytes with
      | nil => cases h
      | cons sib bytes =>
        obtain ⟨p, hp, ⟨⟩⟩ := Option.map_eq_some_iff.1 h
        exact ⟨_, rfl, decodeSib_wf hreg hp⟩
    case isFalse hsib =>
      split at h
      case isTrue hrip =>
        obtain ⟨p, -, ⟨⟩⟩ := Option.map_eq_some_iff.1 h
        exact ⟨_, rfl, rfl⟩
      case isFalse hbase =>
        obtain ⟨p, hp, ⟨⟩⟩ := Option.map_eq_some_iff.1 h
        exact ⟨_, rfl, by simp [Mem.wf, low_append, hsib, baseDispOk_of_takeDisp _ hreg hbase hp]⟩

/-! ### The decoder's verdict -/

/-- A row that answers an instruction has read the operand, then the immediate if it has one, and made the instruction of them
(R85, R105 step 6). -/
theorem decodeRow_operands {row : Row} {v : Vex} {modrm : Byte} {k : BitVec 32} {tail rest : List Byte} {i : Instr}
    (h : decodeRow row v modrm k tail = .instr i rest) :
    ∃ (rm : RM) (imm : Option Byte), row.ib = imm.isSome ∧
      decodeRM v (modrm.extractLsb' 6 2) (modrm.extractLsb' 0 3) tail = some (rm, imm.toList ++ rest) ∧
      row.make ⟨v.r ++ modrm.extractLsb' 3 3, v.vvvv, rm, imm.getD 0⟩ = some i := by
  simp only [decodeRow] at h
  split at h
  case h_1 => cases h
  case h_2 rm rest' hrm =>
    split at h
    case isTrue hib =>
      cases rest' with
      | nil => cases h
      | cons b rest'' =>
        dsimp only at h
        split at h <;> cases h
        next hmake => exact ⟨rm, some b, hib, hrm, hmake⟩
    case isFalse hib =>
      split at h <;> cases h
      next hmake => exact ⟨rm, none, by simpa using hib, hrm, hmake⟩

/-- The instruction of a row keeps the operand that was read (R86). -/
theorem make_rm {row : Row} (hrow : row ∈ opcodeTable) {o : Operands} {i : Instr} (h : row.make o = some i) : i.rm = o.rm :=
  (rowFits i).1.symm.trans (Row.keepsShape_of_mem_opcodeTable hrow o i h).1

/-- What a row answers has taken the operand, and the immediate if it has one, and nothing behind them (R97, R105 step 6). -/
theorem decodeRow_taken {row : Row} {v : Vex} {modrm : Byte} {k : BitVec 32} {tail rest : List Byte} {i : Instr}
    (h : decodeRow row v modrm k tail = .instr i rest) :
    ∃ taken, tail = taken ++ rest ∧ ∀ other, decodeRow row v modrm k (taken ++ other) = .instr i other := by
  obtain ⟨rm, imm, hib, hrm, hmake⟩ := decodeRow_operands h
  obtain ⟨taken, rfl, hother⟩ := decodeRM_consumes _ _ _ _ _ _ hrm
  refine ⟨taken ++ imm.toList, (List.append_assoc ..).symm, fun other => decodeRow_complete hib ?_ hmake⟩
  rw [List.append_assoc, hother]

/-- What a row answers is well formed, and its operand is a register exactly if `mod` is 11b (R88 to R93). -/
theorem decodeRow_wf {row : Row} (hrow : row ∈ opcodeTable) {v : Vex} {modrm : Byte} {k : BitVec 32} {tail rest : List Byte}
    {i : Instr} (h : decodeRow row v modrm k tail = .instr i rest) :
    i.wf = true ∧ ((∃ r, i.rm = .reg r) ↔ modrm.extractLsb' 6 2 = 0b11#2) := by
  obtain ⟨rm, imm, -, hrm, hmake⟩ := decodeRow_operands h
  rw [Instr.wf, make_rm hrow hmake]
  exact decodeRM_wf hrm

/-- A row of the table never answers #UD (R105 steps 5, 6). -/
theorem decodeRow_ne_ud {row : Row} {v : Vex} {modrm : Byte} {k : BitVec 32} {tail : List Byte} {u : UdRow} :
    decodeRow row v modrm k tail ≠ .ud u := by
  intro h
  simp only [decodeRow] at h
  repeat' split at h
  all_goals cases h

/-- The verdict on C4h and the four bytes behind it, whatever follows: a row of R101 is met, or one row of the table goes on to read
the operands, or neither table lists the encoding (R101, R102, R105 steps 4 to 6). -/
inductive HeadVerdict (p1 p2 op modrm : Byte) : Prop where
  | ud (u : UdRow) (hit : UdRow.hit (Vex.ofBytes p1 p2) op (modrm.extractLsb' 6 2) u = true)
      (decodes : ∀ tail, decode (0xC4 :: p1 :: p2 :: op :: modrm :: tail) = .ud u)
  | row (row : Row) (listed : row ∈ opcodeTable) (fits : row.matches (Vex.ofBytes p1 p2) op (modrm.extractLsb' 6 2) = true)
      (decodes : ∀ tail, decode (0xC4 :: p1 :: p2 :: op :: modrm :: tail) =
        decodeRow row (Vex.ofBytes p1 p2) modrm (Machine.decodeKey p1 p2 op) tail)
  | unlisted (noHit : ∀ u, UdRow.hit (Vex.ofBytes p1 p2) op (modrm.extractLsb' 6 2) u = false)
      (noRow : ∀ row ∈ opcodeTable, row.matches (Vex.ofBytes p1 p2) op (modrm.extractLsb' 6 2) = false)
      (decodes : ∀ tail, decode (0xC4 :: p1 :: p2 :: op :: modrm :: tail) =
        .foreign (.unlisted (Machine.decodeKey p1 p2 op)))

theorem mem_udRows (u : UdRow) : u ∈ udRows := by cases u <;> decide

/-- The decoder looks through the rows of R101, then through the table (R105 steps 4 to 6). -/
theorem headVerdict (p1 p2 op modrm : Byte) : HeadVerdict p1 p2 op modrm := by
  have hdecode (tail : List Byte) : decode (0xC4 :: p1 :: p2 :: op :: modrm :: tail) = decodeVex p1 p2 op modrm tail := by
    simp [decode]
  cases hud : udRows.find? (UdRow.hit (Vex.ofBytes p1 p2) op (modrm.extractLsb' 6 2)) with
  | some u =>
    exact .ud u (List.find?_some hud) fun tail => by simp only [hdecode, decodeVex, hud]
  | none =>
    cases hrow : opcodeTable.find? fun r => r.matches (Vex.ofBytes p1 p2) op (modrm.extractLsb' 6 2) with
    | some r =>
      have hfits : r.matches (Vex.ofBytes p1 p2) op (modrm.extractLsb' 6 2) = true :=
        List.find?_some (p := fun r : Row => r.matches (Vex.ofBytes p1 p2) op (modrm.extractLsb' 6 2)) hrow
      exact .row r (List.mem_of_find?_eq_some hrow) hfits fun tail => by
        simp only [hdecode, decodeVex, hud, hrow, Machine.decodeKey]
    | none =>
      refine .unlisted (fun u => ?_) (fun r hr => ?_) fun tail => by
        simp only [hdecode, decodeVex, hud, hrow, Machine.decodeKey]
      · exact Bool.eq_false_iff.2 (List.find?_eq_none.1 hud u (mem_udRows u))
      · exact Bool.eq_false_iff.2 (List.find?_eq_none.1 hrow r hr)

/-- A decoded instruction stands behind C4h, where one row of the table reads it. -/
theorem decode_eq_instr_row {p1 p2 op modrm : Byte} {tail rest : List Byte} {i : Instr}
    (h : decode (0xC4 :: p1 :: p2 :: op :: modrm :: tail) = .instr i rest) :
    ∃ row ∈ opcodeTable, decodeRow row (Vex.ofBytes p1 p2) modrm (Machine.decodeKey p1 p2 op) tail = .instr i rest ∧
      ∀ other, decode (0xC4 :: p1 :: p2 :: op :: modrm :: other) =
        decodeRow row (Vex.ofBytes p1 p2) modrm (Machine.decodeKey p1 p2 op) other := by
  cases headVerdict p1 p2 op modrm with
  | ud u _ decodes => cases (decodes tail).symm.trans h
  | row row listed _ decodes => exact ⟨row, listed, (decodes tail).symm.trans h, decodes⟩
  | unlisted _ _ decodes => cases (decodes tail).symm.trans h

/-- Settles O5: a row reads the operands, which take the bytes counted; `decode_length` counts them. -/
theorem decodeConsumesLength : Obligations.DecodeConsumesLength := by
  intro bytes i rest h
  have hlen := decode_length h
  obtain ⟨p1, p2, op, modrm, tail, rfl, -⟩ := decode_eq_instr h
  obtain ⟨row, hrow, hanswer, hdecode⟩ := decode_eq_instr_row h
  obtain ⟨taken, rfl, hother⟩ := decodeRow_taken hanswer
  refine ⟨(decodeRow_wf hrow hanswer).1, 0xC4 :: p1 :: p2 :: op :: modrm :: taken, rfl, ?_, fun other => ?_⟩
  · simp only [List.length_cons, List.length_append] at hlen ⊢
    omega
  · exact (hdecode _).trans (hother other)

end Sys2Proof
end

section
/-! The decode key K read by its mask: a key, and VEX.vvvv where a row constrains it, as the table prints them (R96, R100, R101). -/

namespace Sys2Proof.Machine

/-! ### Fields under a mask -/

theorem append_eq_append_iff {m n : Nat} {a b : BitVec m} {c d : BitVec n} : a ++ c = b ++ d ↔ a = b ∧ c = d := by
  constructor
  case mpr =>
    rintro ⟨rfl, rfl⟩
    rfl
  case mp =>
    intro h
    refine ⟨BitVec.eq_of_getLsbD_eq fun i _ => ?_, BitVec.eq_of_getLsbD_eq fun i hi => ?_⟩
    · simpa [BitVec.getLsbD_append] using congrArg (BitVec.getLsbD · (n + i)) h
    · simpa [BitVec.getLsbD_append, hi] using congrArg (BitVec.getLsbD · i) h

/-- Fields under the fields of a mask have the fields of a pattern exactly if each has its own. -/
theorem append_and_eq_iff {m n : Nat} {a x p : BitVec m} {b y q : BitVec n} :
    (a ++ b) &&& (x ++ y) = p ++ q ↔ a &&& x = p ∧ b &&& y = q := by
  rw [BitVec.and_append, append_eq_append_iff]

/-- Byte P1 under its mask is the field `m-mmmm` (R82). -/
theorem p1_and_mask {p1 : Byte} {m : BitVec 5} : p1 &&& (0#3 ++ 0b11111#5) = 0#3 ++ m ↔ p1.extractLsb' 0 5 = m := by
  have hsplit : ∀ b : Byte, b = b.extractLsb' 5 3 ++ b.extractLsb' 0 5 := by decide
  have hzero : ∀ a : BitVec 3, a &&& 0#3 = 0#3 := by decide
  have hones : ∀ a : BitVec 5, a &&& 0b11111#5 = a := by decide
  have h := append_and_eq_iff (a := p1.extractLsb' 5 3) (x := 0#3) (p := 0#3) (b := p1.extractLsb' 0 5) (y := 0b11111#5) (q := m)
  rw [← hsplit, hzero, hones] at h
  exact h.trans (and_iff_right rfl)

/-- Byte P2 under its mask is VEX.W, VEX.L and `pp`, and the bits `c` of `vvvv` (R82). -/
theorem p2_and_mask {p2 : Byte} {w l : BitVec 1} {c u : BitVec 4} {pp : BitVec 2} :
    p2 &&& (1#1 ++ c ++ 1#1 ++ 0b11#2) = w ++ u ++ l ++ pp ↔
      p2.extractLsb' 7 1 = w ∧ p2.extractLsb' 3 4 &&& c = u ∧ p2.extractLsb' 2 1 = l ∧ p2.extractLsb' 0 2 = pp := by
  have hsplit : ∀ b : Byte, b = b.extractLsb' 7 1 ++ b.extractLsb' 3 4 ++ b.extractLsb' 2 1 ++ b.extractLsb' 0 2 := by decide
  have h1 : ∀ a : BitVec 1, a &&& 1#1 = a := by decide
  have h2 : ∀ a : BitVec 2, a &&& 0b11#2 = a := by decide
  have h := append_and_eq_iff (a := p2.extractLsb' 7 1 ++ p2.extractLsb' 3 4 ++ p2.extractLsb' 2 1) (x := 1#1 ++ c ++ 1#1)
    (p := w ++ u ++ l) (b := p2.extractLsb' 0 2) (y := 0b11#2) (q := pp)
  rw [← hsplit, append_and_eq_iff, append_and_eq_iff, h1, h1, h2, and_assoc, and_assoc] at h
  exact h

/-- The mask of a row that constrains the bits `c` of VEX.vvvv, beside the key (R96). -/
def keyMask (c : BitVec 4) : BitVec 32 := 0xFF#8 ++ (0#3 ++ 0b11111#5) ++ (1#1 ++ c ++ 1#1 ++ 0b11#2) ++ 0xFF#8

/-- The value of K under the mask that a row with this key and these bits of VEX.vvvv asks for (R96). -/
def keyPattern (k : OpKey) (u : BitVec 4) : BitVec 32 :=
  0xC4#8 ++ (0#3 ++ k.map.bits) ++ (k.w ++ u ++ k.l ++ 0b01#2) ++ k.op

/-- K has the key's pattern under the mask exactly if the VEX bytes and the opcode byte carry the key, and VEX.vvvv the bits asked for. -/
theorem decodeKey_and_keyMask {p1 p2 op : Byte} {k : OpKey} {c u : BitVec 4} :
    decodeKey p1 p2 op &&& keyMask c = keyPattern k u ↔
      (Vex.ofBytes p1 p2).hasKey op k = true ∧ p2.extractLsb' 3 4 &&& c = u := by
  have hop : ∀ a : Byte, a &&& 0xFF#8 = a := by decide
  calc decodeKey p1 p2 op &&& keyMask c = keyPattern k u
      ↔ (((0xC4#8 &&& 0xFF#8 = 0xC4#8 ∧ p1 &&& (0#3 ++ 0b11111#5) = 0#3 ++ k.map.bits) ∧
          p2 &&& (1#1 ++ c ++ 1#1 ++ 0b11#2) = k.w ++ u ++ k.l ++ 0b01#2) ∧ op &&& 0xFF#8 = k.op) := by
        rw [← append_and_eq_iff, ← append_and_eq_iff, ← append_and_eq_iff]
        rfl
    _ ↔ _ := by
        rw [p1_and_mask, p2_and_mask, hop op]
        simp only [Vex.hasKey, Bool.and_eq_true, decide_eq_true_eq]
        simp only [Vex.ofBytes]
        tauto

/-! ### The rows of the table (R100) -/

/-- A row as the spec prints it (R96). -/
def rowTableKey (row : Row) : TableKey :=
  ⟨keyPattern row.key (if row.usesV then 0 else 0b1111#4), keyMask (if row.usesV then 0 else 0b1111#4), row.memOnly⟩

theorem tableKeys_eq : tableKeys = opcodeTable.map rowTableKey := by decide

/-- A row matches what its printed form hits (R96). -/
theorem matches_eq_hits (row : Row) (p1 p2 op : Byte) (md : BitVec 2) :
    row.matches (Vex.ofBytes p1 p2) op md = (rowTableKey row).hits (decodeKey p1 p2 op) md := by
  have hones : ∀ a : BitVec 4, ~~~a = 0 ↔ a &&& 0b1111#4 = 0b1111#4 := by decide
  rw [Bool.eq_iff_iff]
  simp only [Row.matches, TableKey.hits, rowTableKey, Bool.and_eq_true, Bool.or_eq_true, decide_eq_true_eq,
    decodeKey_and_keyMask]
  refine and_congr_left fun _ => and_congr_right fun _ => ?_
  cases row.usesV with
  | true => simp
  | false =>
    simp only [Bool.false_eq_true, false_or, if_false]
    exact hones _

/-- Settles O8: the printed rows are those of the decoder, one by one. -/
theorem rowsMatchDecodeKeys : Obligations.RowsMatchDecodeKeys := by
  refine ⟨by rw [tableKeys_eq, List.length_map], fun p hp p1 p2 op md => ?_⟩
  rw [tableKeys_eq, ← List.map_prod_left_eq_zip] at hp
  obtain ⟨row, -, rfl⟩ := List.mem_map.1 hp
  exact matches_eq_hits row p1 p2 op md

/-- Settles O7: a row is told by its key, and `UdRow.hit_eq_false` keeps the rows of R101 apart. -/
theorem rowsAreDisjoint : Obligations.RowsAreDisjoint := by
  refine ⟨rfl, fun v op md => ?_, fun v op md u hu row hrow => Bool.eq_false_iff.2 fun hmatch => ?_⟩
  · refine (List.pairwise_map.1 opcodeTable_keys_nodup).imp fun hne hboth => hne ?_
    simp only [Row.matches, Bool.and_eq_true] at hboth
    obtain ⟨⟨⟨hkey, -⟩, -⟩, ⟨hkey', -⟩, -⟩ := hboth
    exact Vex.hasKey_unique hkey hkey'
  · simp [UdRow.hit_eq_false hrow hmatch u] at hu

/-! ### The rows of R101 -/

theorem extractLsb'_append_high {m n : Nat} (a : BitVec m) (b : BitVec n) (i k : Nat) :
    (a ++ b).extractLsb' (n + i) k = a.extractLsb' i k := by
  apply BitVec.eq_of_getLsbD_eq
  intro j hj
  simp [BitVec.getLsbD_append, hj, Nat.add_assoc]

theorem extractLsb'_append_low {m n : Nat} (a : BitVec m) (b : BitVec n) {i k : Nat} (h : i + k ≤ n) :
    (a ++ b).extractLsb' i k = b.extractLsb' i k := by
  apply BitVec.eq_of_getLsbD_eq
  intro j hj
  simp [BitVec.getLsbD_append, hj, show i + j < n by omega]

/-- The fields of K that R101 names beside whole keys. -/
theorem decodeKey_fields (p1 p2 op : Byte) :
    (decodeKey p1 p2 op).extractLsb' 24 8 = 0xC4#8 ∧ (decodeKey p1 p2 op).extractLsb' 16 5 = p1.extractLsb' 0 5 ∧
      (decodeKey p1 p2 op).extractLsb' 8 2 = p2.extractLsb' 0 2 ∧ (decodeKey p1 p2 op).extractLsb' 11 4 = p2.extractLsb' 3 4 ∧
      (decodeKey p1 p2 op).extractLsb' 15 1 = p2.extractLsb' 7 1 ∧ (decodeKey p1 p2 op).extractLsb' 0 8 = op := by
  have hop (i k : Nat) : (decodeKey p1 p2 op).extractLsb' (8 + i) k = (0xC4#8 ++ p1 ++ p2).extractLsb' i k :=
    extractLsb'_append_high _ _ i k
  have hp2 (i k : Nat) : (0xC4#8 ++ p1 ++ p2).extractLsb' (8 + i) k = (0xC4#8 ++ p1).extractLsb' i k :=
    extractLsb'_append_high _ _ i k
  refine ⟨?_, ?_, ?_, ?_, ?_, ?_⟩
  · exact (hop 16 8).trans ((hp2 8 8).trans (extractLsb'_append_high _ _ 0 8))
  · exact (hop 8 5).trans ((hp2 0 5).trans (extractLsb'_append_low _ _ (by decide)))
  · exact (hop 0 2).trans (extractLsb'_append_low _ _ (by decide))
  · exact (hop 3 4).trans (extractLsb'_append_low _ _ (by decide))
  · exact (hop 7 1).trans (extractLsb'_append_low _ _ (by decide))
  · exact (extractLsb'_append_low _ _ (by decide)).trans (BitVec.extractLsb'_eq_self)

/-- K meets a row of R101 exactly if the VEX bytes, the opcode byte and `mod` do (R101). -/
theorem udKeyHits_eq_hit (p1 p2 op : Byte) (md : BitVec 2) (row : UdRow) :
    udKeyHits (decodeKey p1 p2 op) md row = UdRow.hit (Vex.ofBytes p1 p2) op md row := by
  have hkey (k : OpKey) : decide (decodeKey p1 p2 op &&& keyMask 0 = keyPattern k 0) = (Vex.ofBytes p1 p2).hasKey op k := by
    rw [Bool.eq_iff_iff, decide_eq_true_eq, decodeKey_and_keyMask]
    simp
  obtain ⟨hC4, hmap, hpp, hvvvv, hw, hop⟩ := decodeKey_fields p1 p2 op
  have h38 : keyIsMap38 (decodeKey p1 p2 op) =
      (decide ((Vex.ofBytes p1 p2).mmmmm = OpMap.m0F38.bits) && decide ((Vex.ofBytes p1 p2).pp = 0b01#2)) := by
    simp only [keyIsMap38, hC4, hmap, hpp, decide_true, Bool.true_and]
    rfl
  have hcast : keyIsVpbroadcast (decodeKey p1 p2 op) = isVpbroadcastOp op := by
    simp only [keyIsVpbroadcast, hop]
    rfl
  have hzero : ∀ a : BitVec 4, a ≠ 0b1111#4 ↔ ~~~a ≠ 0 := by decide
  cases row with
  | vinserti128L0 => exact hkey ⟨.m0F3A, 0, 0, 0x38⟩
  | vbroadcasti128Reg => exact congrArg (· && decide (md = 0b11#2)) (hkey ⟨.m0F38, 0, 1, 0x5A⟩)
  | vbroadcasti128L0 => exact hkey ⟨.m0F38, 0, 0, 0x5A⟩
  | broadcastVvvv =>
    simp only [udKeyHits, UdRow.hit, h38, hcast, hop, hvvvv, hzero]
    rfl
  | vpbroadcastW1 =>
    simp only [udKeyHits, UdRow.hit, h38, hcast, hw]
    rfl
  | vpermdL0 => exact hkey ⟨.m0F38, 0, 0, 0x36⟩
  | vpermpdL0 => exact hkey ⟨.m0F3A, 1, 0, 0x01⟩
  | vpermpsL0 => exact hkey ⟨.m0F38, 0, 0, 0x16⟩
  | vpermqL0 => exact hkey ⟨.m0F3A, 1, 0, 0x00⟩

end Sys2Proof.Machine
end

section
/-! What the decoder's verdict is, in K and `mod` (R91, R100 to R102), and what a step does with it (R105, R231, R238). -/

namespace Sys2Proof.Machine

/-! ### The verdict and the keys -/

/-- No encoding of R101 is in the table (R101). -/
theorem tableKeys_avoid_ud {p1 p2 op : Byte} {md : BitVec 2} {u : UdRow} (hu : udKeyHits (decodeKey p1 p2 op) md u = true) :
    ∀ t ∈ tableKeys, t.hits (decodeKey p1 p2 op) md = false := by
  rw [udKeyHits_eq_hit] at hu
  intro t ht
  rw [tableKeys_eq] at ht
  obtain ⟨row, hrow, rfl⟩ := List.mem_map.1 ht
  rw [← matches_eq_hits]
  refine Bool.eq_false_iff.2 fun hmatch => ?_
  simp [UdRow.hit_eq_false hrow hmatch u] at hu

/-- The decoder gives #UD only to what the row of R101 names (R101, D6). -/
theorem udKeyHits_of_decode_ud {p1 p2 op modrm : Byte} {tail : List Byte} {u : UdRow}
    (h : decode (0xC4 :: p1 :: p2 :: op :: modrm :: tail) = .ud u) :
    udKeyHits (decodeKey p1 p2 op) (modrm.extractLsb' 6 2) u = true := by
  rw [udKeyHits_eq_hit]
  cases headVerdict p1 p2 op modrm with
  | ud _ hit decodes =>
    cases (decodes tail).symm.trans h
    exact hit
  | row _ _ _ decodes => exact absurd ((decodes tail).symm.trans h) decodeRow_ne_ud
  | unlisted _ _ decodes => cases (decodes tail).symm.trans h

/-- The decoder gives #UD to whatever a row of R101 names (R101). -/
theorem decode_ud_of_udKeyHits {p1 p2 op modrm : Byte} (tail : List Byte) {u : UdRow}
    (h : udKeyHits (decodeKey p1 p2 op) (modrm.extractLsb' 6 2) u = true) :
    ∃ u', decode (0xC4 :: p1 :: p2 :: op :: modrm :: tail) = .ud u' := by
  rw [udKeyHits_eq_hit] at h
  cases headVerdict p1 p2 op modrm with
  | ud u' _ decodes => exact ⟨u', decodes tail⟩
  | row _ listed fits => simp [UdRow.hit_eq_false listed fits] at h
  | unlisted noHit => simp [noHit] at h

/-- Settles O11: the operand that a row reads is a register exactly if `mod` is 11b, and the operand of a masked move or of
VBROADCASTI128 is memory. -/
theorem modSelectsRegisterOrMemory : Obligations.ModSelectsRegisterOrMemory := by
  refine ⟨fun p1 p2 op modrm tail rest i h => ?_, fun p1 p2 modrm tail hkey hmd => ?_⟩
  · obtain ⟨row, hrow, hanswer, -⟩ := decode_eq_instr_row h
    obtain ⟨-, hreg⟩ := decodeRow_wf hrow hanswer
    refine ⟨hreg, fun hmem hmd => ?_⟩
    obtain ⟨r, hr⟩ := hreg.2 hmd
    obtain hmove | ⟨d, m, rfl⟩ := hmem
    · obtain ⟨k, hk⟩ := Option.isSome_iff_exists.1 hmove
      cases hr.symm.trans (maskedMove_operand hk).1
    · cases hr
  · refine decode_ud_of_udKeyHits (u := .vbroadcasti128Reg) tail ?_
    rw [udKeyHits_eq_hit, UdRow.hit, hkey, hmd]
    rfl

/-! ### The step -/

/-- Settles O14: the fetch answers the instruction decoded. -/
theorem stepRunsDecodedInstruction : Obligations.StepRunsDecodedInstruction := by
  intro s i rest hat hdecode hfetchable
  refine ⟨(decodeConsumesLength _ _ _ hdecode).1, ?_⟩
  rw [step, fetch_inside hat, hdecode, decodedOutcome, fetched_ok hfetchable, andThen_next]

/-- Settles O40: the fetch raises #UD once the five bytes are read. -/
theorem udEncodingRaisesUd : Obligations.UdEncodingRaisesUd := by
  intro s row hat hdecode hfetchable
  rw [step, fetch_inside hat, hdecode, decodedOutcome, fetched_ok hfetchable]
  rfl

/-- Settles O9: the decoder's #UD is R101's, and the step raises it. -/
theorem udEncodings : Obligations.UdEncodings := by
  intro p1 p2 op modrm tail
  refine ⟨⟨fun ⟨u, hu⟩ => ⟨u, udKeyHits_of_decode_ud hu⟩, fun ⟨_, hhit⟩ => decode_ud_of_udKeyHits tail hhit⟩,
    fun _ hu => udKeyHits_of_decode_ud hu, fun row hhit => ⟨tableKeys_avoid_ud hhit, fun s hat hwindow hfetchable => ?_⟩⟩
  obtain ⟨u, hu⟩ := decode_ud_of_udKeyHits tail hhit
  exact udEncodingRaisesUd s u hat (hwindow ▸ hu) hfetchable

/-- Settles O12: the first byte is looked at first, and what neither table lists is refused by the decoder and by the fetch. -/
theorem foreignEncodingsRefused : Obligations.ForeignEncodingsRefused := by
  refine ⟨fun b tail hb => if_pos hb, fun p1 p2 op modrm tail hud hrow => ?_, fun s why hat hdecode hfetchable => ?_⟩
  · cases headVerdict p1 p2 op modrm with
    | ud u hit => simp [← udKeyHits_eq_hit, hud] at hit
    | row row listed fits =>
      have hnot := hrow (rowTableKey row) (by rw [tableKeys_eq]; exact List.mem_map_of_mem listed)
      simp [matches_eq_hits, hnot] at fits
    | unlisted _ _ decodes => exact decodes tail
  · rw [step, fetch_inside hat, hdecode, decodedOutcome, fetched_ok hfetchable]
    rfl

/-- Settles O41: the fetch raises #UD for an encoding of R101, an instruction for its missing feature. -/
theorem udOnlyFromEncodingOrFeature : Obligations.UdOnlyFromEncodingOrFeature := by
  intro s t h
  obtain hfetch | ⟨i, hfetch, hexec⟩ := step_eq_fault.1 h
  · obtain ⟨n, hr⟩ | ⟨hr, hud⟩ := fetch_eq_fault hfetch
    · cases hr
    · cases hr
      exact ⟨rfl, .inl hud⟩
  · obtain ⟨-, -, rest, hdecode⟩ := fetch_eq_next hfetch
    cases exec_eq_fault hexec with
    | ud feature => exact ⟨rfl, .inr ⟨i, rest, hdecode, feature⟩⟩

/-- Settles O10: each word is decoded. -/
theorem writtenOutWordsDecode : Obligations.WrittenOutWordsDecode := by
  and_intros <;> decide

/-! ### A word of the opcode table -/

/-- The bytes of a loaded text may be fetched (R261 (d)). -/
theorem accessible_loadText {s : State} {text : List Byte} {n : Nat} (htop : s.rip.toNat + text.length ≤ 2 ^ 64)
    (hn : n ≤ text.length) : (loadText s text).launch.accessible s.rip n .fetch = true := by
  refine accessible_iff.2 fun k hk => ?_
  have haddr : (byteAddr s.rip k).toNat = s.rip.toNat + k := by
    rw [byteAddr_toNat, Nat.mod_eq_of_lt (by omega)]
  simp only [Launch.accessibleByte, loadText_regions, List.any_cons]
  simp [Region.ofText, Region.contains, Region.admits, haddr, show k < text.length by omega]

/-- `rip` is at the first byte of a loaded text. -/
theorem atText_loadText {s : State} {text : List Byte} (htop : s.rip.toNat + text.length ≤ 2 ^ 64) (hpos : 0 < text.length) :
    (loadText s text).AtText := by
  refine ⟨Launch.textFits_iff.2 ?_, ?_, ?_⟩ <;> simp only [Launch.textEnd, loadText_textBase, loadText_textLen, loadText_ripNat]
  case refine_1 => exact htop
  all_goals omega

/-- The window at the beginning of a loaded text no longer than the longest instruction is the text. -/
theorem fetchWindow_loadText {s : State} {text : List Byte} (hwf : s.mem.wf = true) (hlen : text.length ≤ Config.maxInstrBytes) :
    fetchWindow (loadText s text) = text := by
  have hcount : min Config.maxInstrBytes ((loadText s text).launch.textEnd - (loadText s text).ripNat) = text.length := by
    simp only [Launch.textEnd, loadText_textBase, loadText_textLen, loadText_ripNat]
    omega
  rw [fetchWindow, hcount, loadText_mem, loadText_rip]
  exact Memory.readBytes_placeBytes _ _ hwf (hlen.trans (by decide))

/-- Settles O13: the word is the text at `rip`, all of it in the window and fetchable. -/
theorem tableWordRuns : Obligations.TableWordRuns := by
  intro s nbits w i hwf htop hword
  have hlen : (tableWordBytes nbits w).length = Config.maxInstrBytes := rfl
  unfold decodeTableWord at hword
  split at hword
  case h_2 => cases hword
  case h_1 j rest hdecode =>
    cases hword
    refine (stepRunsDecodedInstruction _ i rest (atText_loadText htop (hlen ▸ by decide)) ?_
      (accessible_loadText htop (hlen ▸ i.length_le))).2
    rw [fetchWindow_loadText hwf hlen.le, hdecode]

end Sys2Proof.Machine
end

section
/-! Register sources, which are always ready (R91), and the bits of an immediate that a form ignores (R94). -/

namespace Sys2Proof.Machine

/-- Settles O49: a form with a register source is none of the masked moves, and its source is ready. -/
theorem registerFormsAlwaysComplete : Obligations.RegisterFormsAlwaysComplete := by
  intro i r s hrm hf
  cases exec_shape i with
  | source eb rm ib d result _ _ operand _ _ _ eq =>
    obtain rfl := operand.symm.trans hrm
    exact ⟨_, (eq s).trans (sourceForm_ready hf trivial), rfl⟩
  | load _ _ _ _ _ _ _ operand => cases operand.symm.trans hrm
  | store _ _ _ _ _ _ _ operand => cases operand.symm.trans hrm

/-- A built value depends on the elements it is built of only. -/
theorem build_congr {W w n : Nat} {f g : Nat → BitVec w} (h : ∀ i < n, f i = g i) : build W w n f = build W w n g := by
  induction n with
  | zero => rfl
  | succ n ih => rw [build, build, ih fun i hi => h i (by omega), h n (by omega)]

theorem insert128_congr {a b : Byte} (h : a.getLsbD 0 = b.getLsbD 0) (x : Ymm) (y : Xmm) :
    insert128 x y a = insert128 x y b := by
  rw [insert128, insert128, h]

theorem blendDwords_congr {W n : Nat} {a b : Byte} (h : ∀ j < n, a.getLsbD j = b.getLsbD j) (x y : BitVec W) :
    blendDwords n x y a = blendDwords n x y b :=
  build_congr fun i hi => by rw [h i hi]

theorem permIlPD_congr {W n : Nat} {a b : Byte} (h : ∀ j < n, a.getLsbD j = b.getLsbD j) (x : BitVec W) :
    permIlPD n x a.getLsbD = permIlPD n x b.getLsbD :=
  build_congr fun i hi => by rw [h i hi]

/-- A half of a result ignores bit 2 of its nibble (R176). -/
theorem permuteHalf_congr {c e : BitVec 4} (h : ∀ j < 4, j ≠ 2 → c.getLsbD j = e.getLsbD j) (x y : Ymm) :
    permuteHalf x y c = permuteHalf x y e := by
  have hselect : c.extractLsb' 0 2 = e.extractLsb' 0 2 := BitVec.eq_of_getLsbD_eq fun j hj => by
    simpa [hj] using h j (by omega) (by omega)
  rw [permuteHalf, permuteHalf, h 3 (by decide) (by decide), hselect]

theorem permuteHalves_congr {a b : Byte} (h : ∀ j < 8, j ≠ 2 → j ≠ 6 → a.getLsbD j = b.getLsbD j) (x y : Ymm) :
    permuteHalves x y a = permuteHalves x y b :=
  build_congr fun i hi => permuteHalf_congr (fun j hj hne => by
    rw [getLsbD_elem _ _ _ hj, getLsbD_elem _ _ _ hj]
    exact h _ (by omega) (by omega) (by omega)) x y

/-- Settles O55: the function that each form computes reads the other bits only. -/
theorem ignoredImmediateBits : Obligations.IgnoredImmediateBits := by
  intro d v rm a b s
  refine ⟨fun h => ⟨?_, ?_⟩, fun h => ?_, fun h => ⟨?_, ?_⟩, fun h => ?_, fun h => ?_⟩ <;> simp only [exec]
  · simp only [execVinsertf128, insert128_congr h]
  · simp only [execVinserti128, insert128_congr h]
  · simp only [execVpblendd128, blendDwords_congr h]
  · simp only [execVperm2i128, permuteHalves_congr h]
  · simp only [execVperm2f128, permuteHalves_congr h]
  · simp only [execVpermilpdImm128, permIlPD_congr h]
  · simp only [execVpermilpdImm256, permIlPD_congr h]

end Sys2Proof.Machine
end

section
/-! Results of the non-masked forms: a form whose source is ready writes its result and nothing else (R22, R25), the result is read
element by element, and the inserts are the first forms settled so (R120 to R122). -/

namespace Sys2Proof.Machine

/-! ### Completion and elements, for every non-masked form -/

/-- Writing a result back changes the destination, `rip` and the draw counter only (R22, R25). -/
theorem onlyDest_writeBack {W : Nat} (s : State) (d : RegNum) (v : BitVec W) (n : Nat) : OnlyDest d n s (s.writeBack d v n) :=
  ⟨⟨rfl, rfl, rfl, rfl, rfl, rfl, rfl⟩, fun _ hr => State.readYmm_writeBack_other s v n hr, fun _ => rfl⟩

/-- A non-masked form completes as claimed if its result, zero-extended to the register, is good. -/
theorem formCompletes_of_sourceForm {f : Feature} {R W eb : Nat} {i : Instr} {ib : Bool} {d : RegNum}
    {result : State → BitVec W → BitVec R} {good : State → BitVec W → Ymm → Prop} (hlen : i.length = formLength i.rm ib)
    (hexec : ∀ s, exec i s = sourceForm f W eb i.rm ib d (result s) s)
    (hgood : ∀ s src, good s src ((result s src).setWidth 256)) : FormCompletes f W eb i d good := by
  intro s hf hready
  rw [hlen] at hready ⊢
  refine ⟨_, (hexec s).trans (sourceForm_ready hf hready), ?_, ?_⟩
  · rw [State.readYmm_writeBack_same]
    exact hgood s _
  · rw [hlen]
    exact onlyDest_writeBack s d _ _

/-- A built value, zero-extended to a register, has the elements it was built of and zeros above them (R7, R21). -/
theorem hasElems_build {W w n : Nat} {f g : Nat → BitVec w} (hw : 0 < w) (hn : w * n ≤ W) (hW : W ≤ 256)
    (h : ∀ i < n, g i = f i) : HasElems w n f ((build W w n g).setWidth 256) := by
  refine ⟨fun i hi => ?_, fun j _ hj => ?_⟩
  · rw [elem_setWidth_ge w _ hW, elem_build g hw hi hn, h i hi]
  · rw [BitVec.getLsbD_setWidth, getLsbD_build_high g hw hj, Bool.and_false]

/-- The whole of a register is its value. -/
theorem readVec_256 (s : State) (r : RegNum) : s.readVec 256 r = s.readYmm r := BitVec.setWidth_eq _

/-! ### The inserts -/

/-- The half that imm8[0] names is the second source, the other half that of the first source (R120 to R122). -/
theorem hasElems_insert128 (s : State) (v : RegNum) (src : Xmm) (imm : Byte) :
    HasElems 128 2 (fun i => if i = (imm.getLsbD 0).toNat then src else elem 128 (s.readYmm v) i)
      ((insert128 (s.readVec 256 v) src imm).setWidth 256) := by
  rw [readVec_256, insert128]
  refine hasElems_build (by decide) (by decide) (by decide) fun i _ => ?_
  cases imm.getLsbD 0 <;> rfl

/-- Settles O25: both inserts are the same non-masked form, under their own feature and opcode byte. -/
theorem insertsComplete : Obligations.InsertsComplete :=
  ⟨fun _ v _ imm => ⟨⟨rfl, rfl, rfl, rfl, rfl⟩,
      formCompletes_of_sourceForm rfl (fun _ => rfl) fun s src => hasElems_insert128 s v src imm⟩,
    fun _ v _ imm => ⟨⟨rfl, rfl, rfl, rfl, rfl⟩,
      formCompletes_of_sourceForm rfl (fun _ => rfl) fun s src => hasElems_insert128 s v src imm⟩⟩

/-! ### Twin forms -/

/-- Where two features are present it does not matter which of them a form asks for (R233). -/
theorem withFeature_eq_withFeature {α : Type} {f g : Feature} {s : State} (hf : s.hasFeature f = true)
    (hg : s.hasFeature g = true) (body : Result α) : withFeature f s body = withFeature g s body :=
  (withFeature_on hf).trans (withFeature_on hg).symm

/-- Settles O54: VPERMPS and VPERMPD have the meanings of VPERMD and VPERMQ; the other twins differ in the feature they ask for
only. -/
theorem twinFormsAgree : Obligations.TwinFormsAgree := by
  intro s (havx : s.hasFeature .avx = true) (havx2 : s.hasFeature .avx2 = true)
  have twin (body : Result State) : withFeature .avx s body = withFeature .avx2 s body :=
    withFeature_eq_withFeature havx havx2 body
  refine ⟨?halves, ?dwords, ?qwords, ?loads, ?stores⟩
  case halves => exact fun _ _ _ _ => ⟨twin _, twin _⟩
  case dwords => exact fun _ _ _ => rfl
  case qwords => exact fun _ _ _ => rfl
  case loads => exact fun _ _ _ => ⟨twin _, twin _, twin _, twin _⟩
  case stores => exact fun _ _ _ => ⟨twin _, twin _, twin _, twin _⟩

end Sys2Proof.Machine
end

section
/-! Masked moves whose enabled elements can all be accessed: what each completes with, byte by byte, and what it leaves unchanged
(R130 to R132). The forms of VMASKMOVPS and VMASKMOVPD are instances (R133 to R140). -/

namespace Sys2Proof.Machine

/-! ### Loads -/

/-- The elements of a masked move fill its vector length (R57). -/
theorem maskedMove_elems_fill {i : Instr} {k : MaskedMove} (hmove : maskedMoveOf i = some k) : k.w * (k.W / k.w) = k.W := by
  obtain ⟨hW | hW, hw | hw⟩ := maskedMove_widths hmove <;> rw [hW, hw]

/-- The register value of a masked load: enabled elements from memory, the others 0, and 0 above them (R21, R131). -/
theorem hasElems_maskedLoadValue {W w : Nat} (s : State) (v : RegNum) (ea : Word) (hw : 0 < w) (hW : W ≤ 256) :
    HasElems w (W / w) (fun i => if maskBit w (s.readYmm v) i then s.mem.readValue w (elemAddr ea w i) else 0)
      ((maskedLoadValue w (W / w) (s.readVec W v) ea s.mem : BitVec W).setWidth 256) := by
  refine hasElems_build hw (Nat.mul_div_le W w) hW fun i hi => ?_
  rw [maskBit_readVec s v hw hi]

/-- A loaded element byte by byte: those of memory, or 0 if it is masked off (R50, R131). -/
theorem elem_loaded_byte {w b : Nat} (enabled : Bool) (m : Memory) (ea : Word) (i : Nat) (hb : b < w / 8) :
    elem 8 (if enabled then m.readValue w (elemAddr ea w i) else 0) b = if enabled then m.read (elemByteAddr ea w i b) else 0 := by
  cases enabled with
  | true => exact Memory.elem_readValue w m _ hb
  | false => exact BitVec.extractLsb'_zero

/-- A form that is a masked load completes as claimed wherever its enabled elements can be read. -/
theorem maskedLoadCompletes {f : Feature} {W w : Nat} {load : RegNum → RegNum → Mem → Instr}
    (hload : ∀ d v m, maskedMoveOf (load d v m) = some ⟨W, w, v, m, .read⟩ ∧ (load d v m).encoding.reg = d ∧
      featureOf (load d v m) = f) : MaskedLoadCompletes f W w load := by
  intro d v m s hf hready
  obtain ⟨hmove, hdest, rfl⟩ := hload d v m
  have hlen : (load d v m).length = formLength (.mem m) false := (maskedMove_operand hmove).2
  have hw : 0 < w := maskedMove_elemWidth_pos hmove
  have hfill : w * (W / w) = W := maskedMove_elems_fill hmove
  have hW : W = 128 ∨ W = 256 := (maskedMove_widths hmove).1
  cases maskedMove_meaning hmove with
  | store kind => cases kind
  | load _ _ eq =>
    rw [hdest] at eq
    obtain ⟨helems, hhigh⟩ :=
      hasElems_maskedLoadValue (W := W) s v (effAddr m (formLength (.mem m) false) s) hw (by omega)
    refine ⟨_, (eq s).trans (maskedLoadForm_ready hf hready), ?value, ?frame⟩
    case value =>
      rw [State.readYmm_writeBack_same]
      refine ⟨fun i hi b hb => ?_, fun j hj hjW => hhigh j hj (hfill.trans_le hjW)⟩
      rw [helems i hi]
      exact elem_loaded_byte _ s.mem _ i hb
    case frame =>
      rw [hlen]
      exact onlyDest_writeBack s d _ _

/-- Settles O35: the four forms are masked loads that ask for AVX. -/
theorem maskedFloatLoadsComplete : Obligations.MaskedFloatLoadsComplete := by
  and_intros
  all_goals exact maskedLoadCompletes fun _ _ _ => ⟨rfl, rfl, rfl⟩

/-! ### Stores -/

/-- A form that is a masked store completes as claimed wherever its enabled elements can be written. -/
theorem maskedStoreCompletes {f : Feature} {W w : Nat} {store : Mem → RegNum → RegNum → Instr}
    (hstore : ∀ m v src, maskedMoveOf (store m v src) = some ⟨W, w, v, m, .write⟩ ∧ (store m v src).encoding.reg = src ∧
      featureOf (store m v src) = f) : MaskedStoreCompletes f W w store := by
  intro m v src s hwf hf hready
  obtain ⟨hmove, hdata, rfl⟩ := hstore m v src
  have hlen : (store m v src).length = formLength (.mem m) false := (maskedMove_operand hmove).2
  have hspan : W / w * (w / 8) ≤ 2 ^ 64 := maskedMove_span hmove
  have hmask (i : Nat) (hi : i < W / w) : maskBit w (s.readVec W v) i = maskBit w (s.readYmm v) i :=
    maskBit_readVec s v (maskedMove_elemWidth_pos hmove) hi
  cases maskedMove_meaning hmove with
  | load kind => cases kind
  | store _ _ eq =>
    rw [hdata] at eq
    refine ⟨_, (eq s).trans (maskedStoreForm_ready hf hready), ?advanced, rfl, ?stored, ?other⟩
    case advanced =>
      rw [hlen]
      exact ⟨rfl, rfl, rfl, rfl, rfl, rfl, rfl⟩
    case stored =>
      intro i hi henabled b hb
      rw [← elem_readVec s src hi]
      exact read_storeElems_same w _ _ _ hwf hspan hi ((hmask i hi).trans henabled) hb
    case other =>
      intro a ha
      exact read_storeElems_other w _ _ _ _ hwf a fun i hi henabled => ha i hi ((hmask i hi).symm.trans henabled)

/-- Settles O37: the four forms are masked stores that ask for AVX. -/
theorem maskedFloatStoresComplete : Obligations.MaskedFloatStoresComplete := by
  and_intros
  all_goals exact maskedStoreCompletes fun _ _ _ => ⟨rfl, rfl, rfl⟩

end Sys2Proof.Machine
end

section
/-! The blends: each dword is that of the first or of the second source, as its bit of imm8 says (R145 to R147; the direction is the
spec's decision D19). -/

namespace Sys2Proof.Machine

/-- A set bit of imm8 takes the dword of the second source, a clear one that of the first; a shorter blend is 0 above its dwords
(R145, R146). -/
theorem hasElems_blendDwords {W n : Nat} (s : State) (v : RegNum) (src : BitVec W) (imm : Byte) (hn : 32 * n = W) (hW : W ≤ 256) :
    HasElems 32 n (fun i => if imm.getLsbD i then elem 32 src i else elem 32 (s.readYmm v) i)
      ((blendDwords n (s.readVec W v) src imm).setWidth 256) := by
  refine hasElems_build (by decide) hn.le hW fun i hi => ?_
  cases imm.getLsbD i with
  | true => rfl
  | false => exact elem_readVec s v (by omega)

/-- Settles O26: both blends are non-masked forms that read an imm8, one of four dwords and one of eight. -/
theorem blendsComplete : Obligations.BlendsComplete :=
  ⟨fun _ v _ imm => formCompletes_of_sourceForm rfl (fun _ => rfl) fun s src => hasElems_blendDwords s v src imm rfl (by decide),
    fun _ v _ imm => formCompletes_of_sourceForm rfl (fun _ => rfl) fun s src => hasElems_blendDwords s v src imm rfl (by decide)⟩

end Sys2Proof.Machine
end

section
/-! The broadcasts: every element of the result is the source (R150 to R159); a VEX.128 form leaves zeros above its elements (the
spec's decision D5). -/

namespace Sys2Proof.Machine

/-- Copies of one element, zero-extended to a register: the element at each of the `n` places and zeros above them (R150). -/
theorem hasElems_broadcast {W w n : Nat} (x : BitVec w) (hw : 0 < w) (hn : w * n = W) (hW : W ≤ 256) :
    HasElems w n (fun _ => x) ((broadcast W w n x).setWidth 256) :=
  hasElems_build hw hn.le hW fun _ _ => rfl

/-- A non-masked form whose result is the broadcast of its source completes with a copy of the source at every place. -/
theorem formCompletes_of_broadcast {f : Feature} {W w n eb : Nat} {i : Instr} {d : RegNum} (hw : 0 < w) (hn : w * n = W)
    (hW : W ≤ 256) (hlen : i.length = formLength i.rm false)
    (hexec : ∀ s, exec i s = sourceForm f w eb i.rm false d (broadcast W w n) s) :
    FormCompletes f w eb i d fun _ src r => HasElems w n (fun _ => src) r :=
  formCompletes_of_sourceForm hlen hexec fun _ src => hasElems_broadcast src hw hn hW

/-- Settles O27: the four forms broadcast their source to the low 128 bits. -/
theorem broadcasts128Complete : Obligations.Broadcasts128Complete := by
  and_intros
  all_goals exact fun _ _ => formCompletes_of_broadcast (W := 128) (by decide) rfl (by decide) rfl fun _ => rfl

/-- Settles O28: the five forms broadcast their source to the whole register, VBROADCASTI128 from memory only. -/
theorem broadcasts256Complete : Obligations.Broadcasts256Complete := by
  and_intros
  all_goals exact fun _ _ => formCompletes_of_broadcast (W := 256) (by decide) rfl le_rfl rfl fun _ => rfl

end Sys2Proof.Machine
end

section
/-! The permutes across the whole register: each element is the source element that its index names (R165 to R168, R170; the index
width and the field order are the spec's decision D18). -/

namespace Sys2Proof.Machine

/-- The low bits of an element are the bits of the vector from the element's first bit on (R7). -/
theorem extractLsb'_elem {W w k : Nat} (x : BitVec W) (i : Nat) (hk : k ≤ w) :
    (elem w x i).extractLsb' 0 k = x.extractLsb' (w * i) k := by
  refine BitVec.eq_of_getLsbD_eq fun j hj => ?_
  rw [BitVec.getLsbD_extractLsb', BitVec.getLsbD_extractLsb', Nat.zero_add, getLsbD_elem w i x (hj.trans_le hk)]

/-! ### VPERMD and VPERMPS -/

/-- Bits 2:0 of each index dword name the source dword that is taken; the other index bits are ignored (R165, R167, R170). -/
theorem hasElems_permuteDwords (s : State) (v : RegNum) (src : Ymm) :
    HasElems 32 8 (fun i => elem 32 src ((s.readYmm v).extractLsb' (32 * i) 3).toNat)
      ((permuteDwords (s.readVec 256 v) src).setWidth 256) := by
  rw [readVec_256, permuteDwords]
  refine hasElems_build (by decide) le_rfl le_rfl fun i _ => ?_
  rw [extractLsb'_elem _ i (by decide)]

/-- Settles O29: both forms have their indexes in VEX.vvvv and their data in ModRM:r/m. -/
theorem dwordPermutesComplete : Obligations.DwordPermutesComplete :=
  ⟨fun _ v _ => formCompletes_of_sourceForm rfl (fun _ => rfl) fun s src => hasElems_permuteDwords s v src,
    fun _ v _ => formCompletes_of_sourceForm rfl (fun _ => rfl) fun s src => hasElems_permuteDwords s v src⟩

/-! ### VPERMQ and VPERMPD -/

/-- Field `i` of the immediate, the lowest first, names the source qword that is taken (R166, R168). -/
theorem hasElems_permuteQwords (src : Ymm) (imm : Byte) :
    HasElems 64 4 (fun i => elem 64 src (imm.extractLsb' (2 * i) 2).toNat) ((permuteQwords src imm).setWidth 256) :=
  hasElems_build (by decide) le_rfl le_rfl fun _ _ => rfl

/-- Settles O30: both forms have their data in ModRM:r/m and their index fields in imm8. -/
theorem qwordPermutesComplete : Obligations.QwordPermutesComplete :=
  ⟨fun _ _ imm => formCompletes_of_sourceForm rfl (fun _ => rfl) fun _ src => hasElems_permuteQwords src imm,
    fun _ _ imm => formCompletes_of_sourceForm rfl (fun _ => rfl) fun _ src => hasElems_permuteQwords src imm⟩

end Sys2Proof.Machine
end

section
/-! The permutes of 128-bit halves: each half of the result is zero or one of the four source halves (R175, R176, R195; the fields of
imm8 are the spec's decision D18). -/

namespace Sys2Proof.Machine

/-- Bit 1 of a selector names the source, bit 0 the half of it (R176). -/
theorem select128_eq (x y : Ymm) (c : BitVec 2) :
    select128 x y c = elem 128 (if c.getLsbD 1 then y else x) (c.getLsbD 0).toNat := by
  have hhalf : (c.extractLsb' 0 1).toNat = (c.getLsbD 0).toNat := by
    rw [BitVec.extractLsb'_toNat, BitVec.getLsbD, Nat.toNat_testBit, Nat.shiftRight_zero, Nat.pow_zero, Nat.div_one, Nat.pow_one]
  rw [select128, hhalf]
  cases c.getLsbD 1 <;> rfl

/-- Half `i` of a result by the bits of nibble `i` of imm8: bit 3 zeroes it, bits 1:0 are its selector (R176). -/
theorem permuteHalf_nibble (x y : Ymm) (imm : Byte) (i : Nat) :
    permuteHalf x y (elem 4 imm i) =
      if imm.getLsbD (4 * i + 3) then 0
      else elem 128 (if imm.getLsbD (4 * i + 1) then y else x) (imm.getLsbD (4 * i)).toNat := by
  have hselect {j : Nat} (hj : j < 2) : ((elem 4 imm i).extractLsb' 0 2).getLsbD j = imm.getLsbD (4 * i + j) := by
    rw [extractLsb'_elem imm i (by decide), BitVec.getLsbD_extractLsb', decide_eq_true hj, Bool.true_and]
  rw [permuteHalf, select128_eq, getLsbD_elem 4 i imm (by decide), hselect Nat.one_lt_two, hselect Nat.zero_lt_two]
  rfl

/-- Nibble `i` of imm8 governs half `i` of the register (R176). -/
theorem hasElems_permuteHalves (s : State) (v : RegNum) (src : Ymm) (imm : Byte) :
    HasElems 128 2
      (fun i =>
        if imm.getLsbD (4 * i + 3) then 0
        else elem 128 (if imm.getLsbD (4 * i + 1) then src else s.readYmm v) (imm.getLsbD (4 * i)).toNat)
      ((permuteHalves (s.readVec 256 v) src imm).setWidth 256) := by
  rw [readVec_256, permuteHalves]
  exact hasElems_build (by decide) le_rfl le_rfl fun i _ => permuteHalf_nibble (s.readYmm v) src imm i

/-- Settles O31: both forms permute the halves of VEX.vvvv and ModRM:r/m, each under its own feature. -/
theorem halfPermutesComplete : Obligations.HalfPermutesComplete := by
  and_intros
  all_goals exact fun _ v _ imm =>
    formCompletes_of_sourceForm rfl (fun _ => rfl) fun s src => hasElems_permuteHalves s v src imm

end Sys2Proof.Machine
end

section
/-! The permutes within 128-bit lanes: each element is an element of the source's own lane (R180 to R189); a VEX.128 form leaves zeros
above its lane (the spec's decision D5). The variable forms have their data in VEX.vvvv and their control in ModRM:r/m; the fields of a
control element and of imm8 are the spec's decisions D18 and D20. -/

namespace Sys2Proof.Machine

/-! ### Lanes -/

/-- Where the elements fill whole lanes of `k`, a choice within the lane of one of them is one of them. -/
theorem inLane_lt {k n i c : Nat} (hlanes : k ∣ n) (hi : i < n) (hc : c < k) : k * (i / k) + c < n := by
  obtain ⟨m, rfl⟩ := hlanes
  calc k * (i / k) + c < k * (i / k) + k := Nat.add_lt_add_left hc _
    _ = k * (i / k + 1) := (Nat.mul_succ _ _).symm
    _ ≤ k * m := Nat.mul_le_mul_left k (Nat.div_lt_of_lt_mul hi)

/-- An element chosen within the lane of element `i` is the same in a vector operand and in its whole register (R20). -/
theorem elem_readVec_inLane {W w k n i c : Nat} (s : State) (v : RegNum) (hw : 0 < w) (hn : w * n = W) (hlanes : k ∣ n)
    (hi : i < n) (hc : c < k) : elem w (s.readVec W v) (k * (i / k) + c) = elem w (s.readYmm v) (k * (i / k) + c) := by
  refine elem_readVec s v ?_
  rw [← hn, Nat.mul_div_cancel_left n hw]
  exact inLane_lt hlanes hi hc

/-! ### VPERMILPD -/

/-- Each qword's selector bit counts up from the lower qword of its lane (R180). -/
theorem permIlPD_eq_build {W : Nat} (n : Nat) (src : BitVec W) (sel : Nat → Bool) :
    permIlPD n src sel = build W 64 n fun i => elem 64 src (2 * (i / 2) + (sel i).toNat) :=
  build_congr fun i _ => by cases sel i <;> rfl

/-- Bit 1 of each control qword selects, its other bits are ignored (R180; D18, D20). -/
theorem pdControl_eq_getLsbD {W : Nat} (ctl : BitVec W) (i : Nat) : pdControl ctl i = ctl.getLsbD (64 * i + 1) :=
  getLsbD_elem 64 i ctl (by decide)

/-- The variable forms choose among the qwords of VEX.vvvv (R181, R182). -/
theorem hasElems_permIlPD_pdControl {W n : Nat} (s : State) (v : RegNum) (ctl : BitVec W) (hlanes : 2 ∣ n) (hn : 64 * n = W)
    (hW : W ≤ 256) :
    HasElems 64 n (fun i => elem 64 (s.readYmm v) (2 * (i / 2) + (ctl.getLsbD (64 * i + 1)).toNat))
      ((permIlPD n (s.readVec W v) (pdControl ctl)).setWidth 256) := by
  rw [permIlPD_eq_build]
  refine hasElems_build (by decide) hn.le hW fun i hi => ?_
  rw [pdControl_eq_getLsbD]
  exact elem_readVec_inLane s v (by decide) hn hlanes hi (Bool.toNat_lt _)

/-- The immediate forms choose qword `i` by bit `i` of imm8 (R183, R184). -/
theorem hasElems_permIlPD_immediate {W n : Nat} (src : BitVec W) (imm : Byte) (hn : 64 * n = W) (hW : W ≤ 256) :
    HasElems 64 n (fun i => elem 64 src (2 * (i / 2) + (imm.getLsbD i).toNat))
      ((permIlPD n src imm.getLsbD).setWidth 256) := by
  rw [permIlPD_eq_build]
  exact hasElems_build (by decide) hn.le hW fun _ _ => rfl

/-- Settles O32: each form is a non-masked form over one lane of two qwords or over two. -/
theorem inLaneQwordPermutesComplete : Obligations.InLaneQwordPermutesComplete := by
  refine ⟨?vector128, ?vector256, ?immediate128, ?immediate256⟩
  case vector128 | vector256 =>
    exact fun _ v _ => formCompletes_of_sourceForm rfl (fun _ => rfl) fun s ctl =>
      hasElems_permIlPD_pdControl s v ctl (by decide) rfl (by decide)
  case immediate128 | immediate256 =>
    exact fun _ _ imm => formCompletes_of_sourceForm rfl (fun _ => rfl) fun _ src =>
      hasElems_permIlPD_immediate src imm rfl (by decide)

/-! ### VPERMILPS -/

/-- Bits 1:0 of each control dword select, its other bits are ignored (R185; D18). -/
theorem psControl_eq_extractLsb' {W : Nat} (ctl : BitVec W) (i : Nat) : psControl ctl i = ctl.extractLsb' (32 * i) 2 :=
  extractLsb'_elem ctl i (by decide)

/-- The variable forms choose among the dwords of VEX.vvvv (R186, R188). -/
theorem hasElems_permIlPS_psControl {W n : Nat} (s : State) (v : RegNum) (ctl : BitVec W) (hlanes : 4 ∣ n) (hn : 32 * n = W)
    (hW : W ≤ 256) :
    HasElems 32 n (fun i => elem 32 (s.readYmm v) (4 * (i / 4) + (ctl.extractLsb' (32 * i) 2).toNat))
      ((permIlPS n (s.readVec W v) (psControl ctl)).setWidth 256) := by
  rw [permIlPS]
  refine hasElems_build (by decide) hn.le hW fun i hi => ?_
  rw [psControl_eq_extractLsb']
  exact elem_readVec_inLane s v (by decide) hn hlanes hi (BitVec.isLt _)

/-- The immediate forms choose a dword by the field of imm8 for its place in its lane, the same in every lane (R187, R189). -/
theorem hasElems_permIlPS_psImmediate {W n : Nat} (src : BitVec W) (imm : Byte) (hn : 32 * n = W) (hW : W ≤ 256) :
    HasElems 32 n (fun i => elem 32 src (4 * (i / 4) + (imm.extractLsb' (2 * (i % 4)) 2).toNat))
      ((permIlPS n src (psImmediate imm)).setWidth 256) :=
  hasElems_build (by decide) hn.le hW fun _ _ => rfl

/-- Settles O33: each form is a non-masked form over one lane of four dwords or over two. -/
theorem inLaneDwordPermutesComplete : Obligations.InLaneDwordPermutesComplete := by
  refine ⟨?vector128, ?vector256, ?immediate128, ?immediate256⟩
  case vector128 | vector256 =>
    exact fun _ v _ => formCompletes_of_sourceForm rfl (fun _ => rfl) fun s ctl =>
      hasElems_permIlPS_psControl s v ctl (by decide) rfl (by decide)
  case immediate128 | immediate256 =>
    exact fun _ _ imm => formCompletes_of_sourceForm rfl (fun _ => rfl) fun _ src =>
      hasElems_permIlPS_psImmediate src imm rfl (by decide)

end Sys2Proof.Machine
end

section
/-! VPMASKMOVD and VPMASKMOVQ, which are masked moves that ask for AVX2 (R200 to R208), and a form whose feature is missing (R233). -/

namespace Sys2Proof.Machine

/-- Settles O36: the four forms are masked loads that ask for AVX2. -/
theorem maskedIntegerLoadsComplete : Obligations.MaskedIntegerLoadsComplete := by
  and_intros
  all_goals exact maskedLoadCompletes fun _ _ _ => ⟨rfl, rfl, rfl⟩

/-- Settles O38: the four forms are masked stores that ask for AVX2. -/
theorem maskedIntegerStoresComplete : Obligations.MaskedIntegerStoresComplete := by
  and_intros
  all_goals exact maskedStoreCompletes fun _ _ _ => ⟨rfl, rfl, rfl⟩

/-- Settles O39: each of the three shapes asks for its feature before anything else. -/
theorem missingFeatureRaisesUd : Obligations.MissingFeatureRaisesUd := by
  intro i s hoff
  cases exec_shape i with
  | source _ _ _ _ _ _ _ _ _ _ _ eq => exact (eq s).trans (withFeature_off hoff)
  | load _ _ _ _ _ _ _ _ _ _ _ eq => exact (eq s).trans (withFeature_off hoff)
  | store _ _ _ _ _ _ _ _ _ _ _ eq => exact (eq s).trans (withFeature_off hoff)

end Sys2Proof.Machine
end

section
/-! The variable shifts: each element is multiplied by 2 to its own count, cut to its width (R215 to R219). -/

namespace Sys2Proof.Machine

/-- A shift by less than the width multiplies by a power of two, modulo the width; any other gives 0 (R215). -/
theorem shiftElem_eq_ofNat {w : Nat} (x count : BitVec w) (hw : 0 < w) :
    shiftElem x count = if count.toNat < w then BitVec.ofNat w (x.toNat * 2 ^ count.toNat) else 0 := by
  by_cases hcount : count.toNat < w
  · rw [shiftElem, if_neg (by omega), if_pos hcount]
    apply BitVec.eq_of_toNat_eq
    rw [BitVec.toNat_shiftLeft, Nat.shiftLeft_eq, BitVec.toNat_ofNat]
  · rw [shiftElem, if_pos (by omega), if_neg hcount]

/-- Each element of the first source is shifted by the count element in the same place; a shorter shift is 0 above its elements
(R215; D5). -/
theorem hasElems_shiftLeftVar {W w n : Nat} (s : State) (v : RegNum) (cnt : BitVec W) (hw : 0 < w) (hn : w * n = W)
    (hW : W ≤ 256) :
    HasElems w n
      (fun i =>
        if (elem w cnt i).toNat < w then BitVec.ofNat w ((elem w (s.readYmm v) i).toNat * 2 ^ (elem w cnt i).toNat) else 0)
      ((shiftLeftVar w n (s.readVec W v) cnt).setWidth 256) := by
  refine hasElems_build hw hn.le hW fun i hi => ?_
  have hin : i < W / w := by rwa [← hn, Nat.mul_div_cancel_left n hw]
  rw [shiftElem_eq_ofNat _ _ hw, elem_readVec s v hin]

/-- Settles O34: each form is a non-masked form with its data in VEX.vvvv and its counts in ModRM:r/m. -/
theorem variableShiftsComplete : Obligations.VariableShiftsComplete := by
  and_intros
  all_goals exact fun _ v _ => ⟨⟨rfl, rfl, rfl, rfl, rfl⟩,
    formCompletes_of_sourceForm rfl (fun _ => rfl) fun s cnt => hasElems_shiftLeftVar s v cnt (by decide) rfl (by decide)⟩

end Sys2Proof.Machine
end

section
/-! How many bytes the decoder's verdict stands on: the whole of an instruction's encoding, and never more than it was given (R105,
R263). -/

namespace Sys2Proof

/-- Settles O6: `decode_take_encode`, for every instruction and length. -/
theorem properInitialPartIsTruncated : Obligations.ProperInitialPartIsTruncated :=
  fun _ _ hwf hn => decode_take_encode hwf hn

/-- The bytes that the fetch access of a verdict spans (R105, R238); a text that ends too early gets no access (log entry 15). -/
def Decoded.bytesRead : Decoded → Nat
  | .instr i _ => i.length
  | .ud _ => 5
  | .foreign why => why.bytesRead
  | .truncated => 0

theorem Foreign.bytesRead_le (why : Foreign) : why.bytesRead ≤ 5 := by
  cases why <;> simp [Foreign.bytesRead]

theorem bytesRead_foreignFirst (b : Byte) : (foreignFirst b).bytesRead = 1 := by
  unfold foreignFirst
  split
  · rfl
  · split <;> rfl

/-- No verdict stands on more bytes than the decoder was given (R105). -/
theorem decode_bytesRead_le (bytes : List Byte) : (decode bytes).bytesRead ≤ bytes.length := by
  match bytes with
  | [] => exact le_rfl
  | p0 :: rest =>
    by_cases hp0 : p0 = 0xC4
    · subst hp0
      match rest with
      | [] | [_] | [_, _] | [_, _, _] => exact Nat.zero_le _
      | p1 :: p2 :: op :: modrm :: tail =>
        cases hverdict : decode (0xC4 :: p1 :: p2 :: op :: modrm :: tail) with
        | instr i after => exact (Nat.le_add_right _ _).trans (decode_length hverdict).ge
        | ud row => exact Nat.le_add_left 5 tail.length
        | foreign why => exact why.bytesRead_le.trans (Nat.le_add_left 5 tail.length)
        | truncated => exact Nat.zero_le _
    · have hforeign : decode (p0 :: rest) = .foreign (foreignFirst p0) := if_pos hp0
      rw [hforeign, Decoded.bytesRead, bytesRead_foreignFirst, List.length_cons]
      omega

end Sys2Proof
end

section
/-! Launches: the fetch of a text that meets the invariant of a run never faults, no launch admits a write to its text, and the reset
state and a loaded text meet the invariant (R261, R263, R267). -/

namespace Sys2Proof.Machine

/-! ### The fetch of a text -/

/-- Where the bytes of a verdict may be fetched, the fetch raises no memory fault. -/
theorem decodedOutcome_ne_memFault {s : State} {d : Decoded} (h : s.launch.accessible s.rip d.bytesRead .fetch = true)
    (a : Word) (n : Nat) (kind : AccessKind) (t : State) : decodedOutcome s d ≠ .fault (.memFault a n kind t) := by
  cases d with
  | instr i rest => simp [decodedOutcome, fetched_ok (n := i.length) h]
  | ud row => simp [decodedOutcome, fetched_ok (n := 5) h, raise]
  | foreign why => simp [decodedOutcome, fetched_ok (n := why.bytesRead) h]
  | truncated => simp [decodedOutcome]

/-- In a fetchable text the bytes from `rip` to the end of the text may be fetched (R261 (d)). -/
theorem accessible_rip_of_textFetchable {s : State} (hat : s.AtText) (hfetchable : s.launch.textFetchable = true) {n : Nat}
    (hn : s.ripNat + n ≤ s.launch.textEnd) : s.launch.accessible s.rip n .fetch = true := by
  obtain ⟨-, hrip⟩ := hat.ripNat_eq
  obtain ⟨-, hbase, -⟩ := hat
  rw [hrip] at hbase hn
  obtain ⟨j, hj⟩ := Nat.exists_eq_add_of_le hbase
  have hplace : s.rip = byteAddr s.launch.textBase j := by
    apply BitVec.eq_of_toNat_eq
    rw [byteAddr_toNat, ← hj, Nat.mod_eq_of_lt s.rip.isLt]
  rw [hplace]
  refine (accessibleIsMonotone s.launch s.launch.textBase s.launch.textLen .fetch).1 hfetchable j n ?_
  rw [Launch.textEnd] at hn
  omega

/-- No fetch from a state that meets the invariant of a run raises a memory fault (R267). -/
theorem fetch_ne_memFault {s : State} (hinv : s.Inv) (a : Word) (n : Nat) (kind : AccessKind) (t : State) :
    fetch s ≠ .fault (.memFault a n kind t) := by
  obtain ⟨-, -, hfits, hfetchable, hbase, hend⟩ := hinv
  by_cases hcomplete : s.ripNat = s.launch.textEnd
  · simp [fetch, hfits, hcomplete]
  · have hat : s.AtText := ⟨hfits, hbase, by omega⟩
    have hread := decode_bytesRead_le (fetchWindow s)
    rw [fetch_inside hat]
    refine decodedOutcome_ne_memFault (accessible_rip_of_textFetchable hat hfetchable ?_) a n kind t
    rw [fetchWindow, Memory.length_readBytes, ← fetchWindow] at hread
    omega

/-! ### No write to the text -/

/-- A byte of the text admits no write (R261 (d); log entry 5). -/
theorem inText_of_accessibleByte_write {l : Launch} {a : Word} (h : l.accessibleByte .write a = true) : l.inText a = false := by
  simp only [Launch.accessibleByte, decide_true, Bool.true_and, Bool.and_eq_true, Bool.not_eq_true'] at h
  exact h.2

/-- Settles O59: a range that may be written holds no byte of the text; a memory fault of a step is not the fetch's, and an
instruction raises those of reads and writes only. -/
theorem textFetchableNeverWritable : Obligations.TextFetchableNeverWritable := by
  refine ⟨fun l a n htext => Bool.eq_false_iff.2 fun hwrite => ?_, fun s t a n hinv hfault => ?_⟩
  · have hclear : touches l.inText a n = false :=
      touches_eq_false.2 fun k hk => inText_of_accessibleByte_write (accessible_iff.1 hwrite k hk)
    rw [hclear] at htext
    cases htext
  · obtain hfetch | ⟨i, -, hexec⟩ := step_eq_fault.1 hfault
    · exact fetch_ne_memFault hinv a n .fetch t hfetch
    · cases exec_eq_fault hexec

/-! ### Reset and loading -/

/-- Settles O1: the text after reset is empty, and `rip` is at its end. -/
theorem resetMeetsInvariant : Obligations.ResetMeetsInvariant := by
  have hfits : State.reset.launch.textFits = true := by decide
  exact ⟨⟨rfl, fun _ => rfl, hfits, rfl, le_rfl, le_rfl⟩, rfl, step_runComplete hfits rfl⟩

/-- Byte `k` of the bytes read from `a` upwards is the byte at `a + k` (R51). -/
theorem Memory.getD_readBytes (m : Memory) (a : Word) {n k : Nat} (hk : k < n) (b : Byte) :
    (m.readBytes a n).getD k b = m.read (byteAddr a k).toNat := by
  induction n generalizing a k with
  | zero => omega
  | succ n ih =>
    cases k with
    | zero => simp [Memory.readBytes, byteAddr]
    | succ k =>
      rw [Memory.readBytes, List.getD_cons_succ, ih (a + 1) (by omega), Nat.add_comm k 1, ← byteAddr_byteAddr]
      rfl

/-- Settles O58: the bytes placed are the bytes read back, and the text's own region admits its fetch. -/
theorem loadedTextMeetsInvariant : Obligations.LoadedTextMeetsInvariant := by
  intro s text hwf havx htop
  have haddr {k : Nat} (hk : k < text.length) : (byteAddr s.rip k).toNat = s.rip.toNat + k := by
    rw [byteAddr_toNat, Nat.mod_eq_of_lt (by omega)]
  refine ⟨⟨?wf, havx, ?fits, ?fetchable, ?base, ?ends⟩, loadText_ripNat s text, fun k hk => ?inside, fun a ha => ?outside⟩
  case wf => exact Memory.wf_placeBytes s.rip text hwf
  case fits => exact Launch.textFits_iff.2 htop
  case fetchable => exact accessible_loadText htop le_rfl
  case base => rw [loadText_ripNat, loadText_textBase]
  case ends =>
    rw [loadText_ripNat, Launch.textEnd, loadText_textBase]
    exact Nat.le_add_right _ _
  case inside =>
    have hbytes := Memory.readBytes_placeBytes s.rip text hwf (by omega)
    rw [loadText_mem, ← haddr hk, ← Memory.getD_readBytes _ s.rip hk 0, hbytes]
  case outside =>
    refine Memory.read_placeBytes_other s.rip text hwf a fun k hk => ?_
    rw [haddr hk]
    omega

end Sys2Proof.Machine
end
